-- ==== Sys2Proof/Word.lean ====
section
/-! DEFINITION. The word widths of the block (R8): the host data word, the operand registers, the pack bytes. -/

namespace Sys2Proof

/-- A host data word or command word: 32 bits (R8, R51, R70). -/
abbrev Word := BitVec 32

/-- An operand, dimension or result register: 16 significant bits (R8, R29, R31, R32). -/
abbrev Half := BitVec 16

/-- A pack byte (R8, R37). -/
abbrev Byte := BitVec 8

end Sys2Proof
end

