-- ==== Sys2Proof/Config.lean ====
section
/-! DEFINITION. The implementation parameters MAX_W, MAX_H and BASE (R7). They are data of a run: State holds them,
no step changes them, and a statement over all states is a statement over all parameters (log 4).
The fourth parameter, POLAR_ENDPOINT, has one admissible value, the exact function of R116 (R117); it is computed in
Machine/Polar.lean (log 8). The spec leaves no other value open that a run can read, so there is no free value here. -/

namespace Sys2Proof

/-- The parameters of R7 that are numbers. -/
structure Params where
  /-- MAX_W: columns of each bit plane. -/
  maxW : Nat
  /-- MAX_H: rows of each bit plane. -/
  maxH : Nat
  /-- BASE: the block's byte address on the host bus (OPEN: the platform chooses it). -/
  base : Nat
  deriving DecidableEq, Repr

/-- R7's defaults for MAX_W and MAX_H; BASE has none, and 0 is a DESIGN CHOICE (log 4, safe: every statement is about
all values of BASE). -/
def Params.default : Params := { maxW := 256, maxH := 32, base := 0 }

end Sys2Proof
end

