-- ==== Sys2Proof/Syntax.lean ====
section
/-! DEFINITION. The RE command set as syntax: one constructor per row of the opcode map (R78), the operands of a
command word being its fields P and F (R73, R74); and the raw fields of a command word before any check (R71). -/

namespace Sys2Proof

/-- The P field's two values: plane A (P = 0) and plane B (P = 1) (R73). -/
inductive Plane where
  | a
  | b
  deriving DecidableEq, Repr

/-- Plane 1 - P, the source of a COMBINE into plane P (R160). -/
def Plane.other : Plane → Plane
  | .a => .b
  | .b => .a

/-- The M field's four values (R75). -/
inductive CombineMode where
  | normal
  | or
  | and
  | xor
  deriving DecidableEq, Repr

/-- The commands, one constructor per row of the opcode map (R78), in its order. `p` is the target plane,
`filled` the F field. -/
inductive Instr where
  | nop
  | clear (p : Plane)
  | line (p : Plane)
  | linePolar (p : Plane)
  | circle (p : Plane) (filled : Bool)
  | box (p : Plane) (filled : Bool)
  | combineNormal (p : Plane)
  | combineOr (p : Plane)
  | combineAnd (p : Plane)
  | combineXor (p : Plane)
  | pack (p : Plane)
  | unpack (p : Plane)
  deriving DecidableEq, Repr

/-- The five fields of a command word (R71), any bits at all. -/
structure CmdFields where
  opc : BitVec 8
  p   : BitVec 1
  f   : BitVec 1
  m   : BitVec 2
  rsv : BitVec 20
  deriving DecidableEq, Repr

end Sys2Proof
end

