-- ==== Sys2Proof/WellFormed.lean ====
section
/-! DEFINITION. What makes the fields of a command word legal (R72, R76, R77) and what makes parameters legal (R7),
one named check each. -/

namespace Sys2Proof

/-- R72: the values 0x00 to 0x08 of OPC are assigned. -/
def CmdFields.opcodeAssigned (c : CmdFields) : Bool := c.opc.toNat ≤ 8

/-- R76: RSV must be 0 in every command. -/
def CmdFields.reservedZero (c : CmdFields) : Bool := c.rsv == 0#20

/-- R77: P is 0 for NOP. -/
def CmdFields.unusedPlaneZero (c : CmdFields) : Bool := c.opc != 0#8 || c.p == 0#1

/-- R77: F is 0 for every opcode except CIRCLE (0x04) and BOX (0x05). -/
def CmdFields.unusedFilledZero (c : CmdFields) : Bool := c.opc == 4#8 || c.opc == 5#8 || c.f == 0#1

/-- R77: M is 0 for every opcode except COMBINE (0x06). -/
def CmdFields.unusedModeZero (c : CmdFields) : Bool := c.opc == 6#8 || c.m == 0#2

/-- The fields of a legal command word: R81 read from the other side. -/
def CmdFields.wellFormed (c : CmdFields) : Bool :=
  c.opcodeAssigned && c.reservedZero && c.unusedPlaneZero && c.unusedFilledZero && c.unusedModeZero

/-- R7: MAX_W is a multiple of 32 with 32 ≤ MAX_W ≤ 1024. -/
def Params.widthLegal (p : Params) : Bool := p.maxW % 32 == 0 && 32 ≤ p.maxW && p.maxW ≤ 1024

/-- R7: MAX_H is a multiple of 8 with 8 ≤ MAX_H ≤ 1024. -/
def Params.heightLegal (p : Params) : Bool := p.maxH % 8 == 0 && 8 ≤ p.maxH && p.maxH ≤ 1024

/-- R7: MAX_W × MAX_H ≤ 32768. -/
def Params.sizeLegal (p : Params) : Bool := p.maxW * p.maxH ≤ 32768

/-- R7: BASE is 16 KiB aligned. -/
def Params.baseLegal (p : Params) : Bool := p.base % 0x4000 == 0

/-- The parameter values R7 calls legal. -/
def Params.wellFormed (p : Params) : Bool := p.widthLegal && p.heightLegal && p.sizeLegal && p.baseLegal

end Sys2Proof
end

