-- ==== Sys2Proof/Decode.lean ====
section
/-! DEFINITION. The decoder of a command word, total, written as R84 writes it over the match/mask rows of R78; an
illegal word is rejected by the name of what makes it illegal (R81). After it, the encoder, written from the field
layout of R71 and the opcode map's operands, and the operand use of R79. -/

namespace Sys2Proof

/-- Why a word is illegal: the three cases of R81. -/
inductive IllegalWord where
  /-- any RSV bit set (R76) -/
  | reservedBitSet
  /-- OPC in 0x09 … 0xFF (R72) -/
  | opcodeUnassigned
  /-- a nonzero field that the opcode does not use (R77) -/
  | unusedFieldSet
  deriving DecidableEq, Repr

/-- One row of the opcode map (R78): its match and mask, and the command it stands for, given P and F. -/
structure OpRow where
  mnemonic : String
  pattern  : Word
  mask     : Word
  build    : Plane → Bool → Instr

/-- The opcode map (R78), row by row. -/
def opcodeTable : List OpRow :=
  [ { mnemonic := "NOP", pattern := 0x00000000#32, mask := 0xFFFFFFFF#32, build := fun _ _ => .nop },
    { mnemonic := "CLEAR", pattern := 0x00000001#32, mask := 0xFFFFFEFF#32, build := fun p _ => .clear p },
    { mnemonic := "LINE", pattern := 0x00000002#32, mask := 0xFFFFFEFF#32, build := fun p _ => .line p },
    { mnemonic := "LINE_POLAR", pattern := 0x00000003#32, mask := 0xFFFFFEFF#32, build := fun p _ => .linePolar p },
    { mnemonic := "CIRCLE", pattern := 0x00000004#32, mask := 0xFFFFFCFF#32, build := fun p f => .circle p f },
    { mnemonic := "BOX", pattern := 0x00000005#32, mask := 0xFFFFFCFF#32, build := fun p f => .box p f },
    { mnemonic := "COMBINE.NORMAL", pattern := 0x00000006#32, mask := 0xFFFFFEFF#32,
      build := fun p _ => .combineNormal p },
    { mnemonic := "COMBINE.OR", pattern := 0x00000406#32, mask := 0xFFFFFEFF#32, build := fun p _ => .combineOr p },
    { mnemonic := "COMBINE.AND", pattern := 0x00000806#32, mask := 0xFFFFFEFF#32, build := fun p _ => .combineAnd p },
    { mnemonic := "COMBINE.XOR", pattern := 0x00000C06#32, mask := 0xFFFFFEFF#32, build := fun p _ => .combineXor p },
    { mnemonic := "PACK", pattern := 0x00000007#32, mask := 0xFFFFFEFF#32, build := fun p _ => .pack p },
    { mnemonic := "UNPACK", pattern := 0x00000008#32, mask := 0xFFFFFEFF#32, build := fun p _ => .unpack p } ]

/-- The fields of a word (R71). -/
def fieldsOfWord (v : Word) : CmdFields :=
  { opc := v.extractLsb' 0 8, p := v.extractLsb' 8 1, f := v.extractLsb' 9 1, m := v.extractLsb' 10 2,
    rsv := v.extractLsb' 12 20 }

/-- The word that has the given fields (R71). -/
def wordOfFields (c : CmdFields) : Word := c.rsv ++ c.m ++ c.f ++ c.p ++ c.opc

/-- P, bit 8 (R73). -/
def planeOfWord (v : Word) : Plane := if v.getLsbD 8 then .b else .a

/-- F, bit 9 (R74). -/
def filledOfWord (v : Word) : Bool := v.getLsbD 9

/-- The name of what makes a word illegal, asked only of words that no row matches (R81). -/
def illegalReason (v : Word) : IllegalWord :=
  if (fieldsOfWord v).reservedZero = false then .reservedBitSet
  else if (fieldsOfWord v).opcodeAssigned = false then .opcodeUnassigned
  else .unusedFieldSet

/-- R84: the row whose masked bits the word matches, or ILLEGAL with its reason. -/
def decode (v : Word) : Except IllegalWord Instr :=
  match opcodeTable.find? (fun row => v &&& row.mask == row.pattern) with
  | some row => .ok (row.build (planeOfWord v) (filledOfWord v))
  | none => .error (illegalReason v)

/-- The P field of a plane (R73). -/
def planeBit : Plane → BitVec 1
  | .a => 0#1
  | .b => 1#1

/-- The F field (R74). -/
def filledBit (filled : Bool) : BitVec 1 := BitVec.ofBool filled

/-- The M field (R75). -/
def modeBits : CombineMode → BitVec 2
  | .normal => 0b00#2
  | .or => 0b01#2
  | .and => 0b10#2
  | .xor => 0b11#2

/-- The fields of a command: its OPC, the fields it uses, and 0 in every other field (R77, R78). -/
def fieldsOfInstr : Instr → CmdFields
  | .nop => { opc := 0x00#8, p := 0#1, f := 0#1, m := 0#2, rsv := 0#20 }
  | .clear p => { opc := 0x01#8, p := planeBit p, f := 0#1, m := 0#2, rsv := 0#20 }
  | .line p => { opc := 0x02#8, p := planeBit p, f := 0#1, m := 0#2, rsv := 0#20 }
  | .linePolar p => { opc := 0x03#8, p := planeBit p, f := 0#1, m := 0#2, rsv := 0#20 }
  | .circle p filled => { opc := 0x04#8, p := planeBit p, f := filledBit filled, m := 0#2, rsv := 0#20 }
  | .box p filled => { opc := 0x05#8, p := planeBit p, f := filledBit filled, m := 0#2, rsv := 0#20 }
  | .combineNormal p => { opc := 0x06#8, p := planeBit p, f := 0#1, m := modeBits .normal, rsv := 0#20 }
  | .combineOr p => { opc := 0x06#8, p := planeBit p, f := 0#1, m := modeBits .or, rsv := 0#20 }
  | .combineAnd p => { opc := 0x06#8, p := planeBit p, f := 0#1, m := modeBits .and, rsv := 0#20 }
  | .combineXor p => { opc := 0x06#8, p := planeBit p, f := 0#1, m := modeBits .xor, rsv := 0#20 }
  | .pack p => { opc := 0x07#8, p := planeBit p, f := 0#1, m := 0#2, rsv := 0#20 }
  | .unpack p => { opc := 0x08#8, p := planeBit p, f := 0#1, m := 0#2, rsv := 0#20 }

/-- The command word of a command (R71, R78). -/
def encode (i : Instr) : Word := wordOfFields (fieldsOfInstr i)

/-- A command is well formed when the fields it is encoded with are legal (R81). Every command of `Instr` is
(Laws/PerInstr.lean): its operands are typed by R73 and R74, so an ill-formed one exists only as raw fields. -/
def instrWellFormed (i : Instr) : Bool := (fieldsOfInstr i).wellFormed

/-- R79's last column: whether the command uses W and H, and so whether the issue checks them (R91). -/
def usesWH : Instr → Bool
  | .nop => false
  | .clear _ => false
  | .line _ => true
  | .linePolar _ => true
  | .circle _ _ => true
  | .box _ _ => true
  | .combineNormal _ => true
  | .combineOr _ => true
  | .combineAnd _ => true
  | .combineXor _ => true
  | .pack _ => true
  | .unpack _ => true

/-- The command that the decoder reads from a word whose low `nbits` bits are `w` and whose other bits are 0, numbered
as opcode_table.json numbers them: bit 0 is the least significant bit of the one 32-bit command word (R10, R71). -/
def decodeTableWord (nbits w : Nat) : Option Instr :=
  match decode (BitVec.ofNat 32 (w % 2 ^ nbits)) with
  | .ok i => some i
  | .error _ => none

end Sys2Proof
end

