-- ==== Sys2Proof/Machine/State.lean ====
section
/-! DEFINITION. The state of the block (R20, exactly that list), the host's side of a run held beside it as plain
data, the reasons a step can stop, and the state after reset (R41). -/

namespace Sys2Proof.Machine

/-- STATUS.ERRCODE: the codes that R187 lets the block produce; 5 to 15 are never produced, so they have no
constructor. -/
inductive ErrCode where
  | none
  | illegalCmd
  | invalidArg
  | cmdWhileBusy
  | busyAccess
  deriving DecidableEq, Repr

/-- The fields of STATUS (R24). The reserved bits read 0 and are not stored. `busy` is the engine's state too (R39). -/
structure Status where
  busy    : Bool
  done    : Bool
  err     : Bool
  errCode : ErrCode
  deriving DecidableEq, Repr

/-- ARG0 to ARG4 (R31). -/
structure Args where
  arg0 : Half
  arg1 : Half
  arg2 : Half
  arg3 : Half
  arg4 : Half
  deriving DecidableEq, Repr

/-- L, the latched command state (R38). -/
structure Latch where
  cmd  : Word
  w    : Half
  h    : Half
  args : Args
  deriving DecidableEq, Repr

/-- A memory: the cells that hold a value, keys strictly rising. An unlisted key holds NO value (R41: UNSPECIFIED), and
a read of it faults (D45). In a plane the key is the pixel number y · MAX_W + x and the byte is 0 or 1; in PackBuf the
key is the byte's index (log 6, log 7). -/
abbrev Memory := List Host.Cell

/-- The two agents (R18). -/
inductive Agent where
  | host
  | engine
  deriving DecidableEq, Repr

/-- One thing the outside world does to the block (R19). Addresses are bus addresses (BASE + offset); the second
number of an access is its size in bytes, as in R51's MemRead(off, 4). -/
inductive HostAction where
  /-- MemRead(addr, size) (R51) -/
  | read (addr size : Nat)
  /-- MemWrite(addr, size, v) (R51) -/
  | write (addr size : Nat) (v : Word)
  /-- `wait`: read STATUS until BUSY is 0 (R86) -/
  | wait
  /-- `waitn n`: as `wait`, but give up after `n` reads with BUSY = 1 (R86) -/
  | waitn (n : Nat)
  /-- the platform asserts the reset input (R205) -/
  | reset
  deriving DecidableEq, Repr

/-- What the host has learnt. -/
inductive Observation where
  /-- the value a read returned -/
  | value (v : Word)
  /-- a `waitn` that gave up (R86) -/
  | timeout
  deriving DecidableEq, Repr

/-- Why the machine stops with a fault. -/
inductive Fault where
  /-- A host read of a plane word with an UNSPECIFIED bit (I1). Raised by readOffset. Safe. -/
  | unspecifiedPlaneWord
  /-- A host read of a PACKBUF word with an UNSPECIFIED byte (I2). Raised by readOffset. Safe. -/
  | unspecifiedPackWord
  /-- A COMBINE whose source has an UNSPECIFIED bit in the active area (I1). Raised by combineActive. Safe. -/
  | unspecifiedSourcePixel
  /-- A COMBINE OR, AND or XOR whose destination has an UNSPECIFIED bit in the active area (I1). Raised by
  combineActive. Safe. -/
  | unspecifiedDestPixel
  /-- A PACK of an active area with an UNSPECIFIED bit (I1). Raised by execPack. Safe. -/
  | unspecifiedPackedPixel
  /-- An UNPACK of an UNSPECIFIED byte (I2). Raised by execUnpack. Safe. -/
  | unspecifiedPackByte
  /-- A completion whose latched W or H is outside 1 … MAX: pixels that do not exist (R35). Raised by withActiveArea;
  no run reaches it, since the issue checks both (R91). Safe (log 10). -/
  | areaOutsidePlane
  /-- A completion whose latched word is no legal command. Raised by engineTurn; no run reaches it, since the issue
  checks the word (R91). Safe (log 11). -/
  | illegalLatchedCommand
  deriving DecidableEq, Repr

/-- Why the machine has no step. -/
inductive Refusal where
  /-- An instruction without a meaning, by its mnemonic. Raised by exec's arms; no arm raises it. Safe. -/
  | notModelled (mnemonic : String)
  /-- A host access that does not move exactly 32 bits: it does not exist at this interface (R51, R58, I5). Raised by
  busOffset. Safe. -/
  | subWordAccess
  /-- A host access at an offset that is no multiple of 4: it does not exist at this interface (R51, R58, I5). Raised
  by busOffset. Safe. -/
  | unalignedAccess
  /-- A host access outside BASE … BASE + 0x3FFF: the platform's, not the block's (R61, I11). Raised by busOffset.
  Safe. -/
  | outsideBlock
  deriving DecidableEq, Repr

/-- The state: the parameters (R7), the block's architectural state (R20), and the MODEL's own three fields for what
is outside the block (log 1 to log 3). CMD has no storage (R23) and CAPS is computed from the parameters (R33). -/
structure State where
  params   : Params
  status   : Status
  bmW      : Half
  bmH      : Half
  args     : Args
  packLen  : Half
  planeA   : Memory
  planeB   : Memory
  packBuf  : Memory
  latched  : Latch
  /-- The model's own: what the host and the platform still do, oldest first. -/
  host     : List HostAction
  /-- The model's own: which agent moves at each coming step, oldest first; empty means the engine whenever BUSY = 1,
  else the host. -/
  turns    : List Agent
  /-- The model's own: what the host has learnt, newest first. -/
  observed : List Observation
  deriving DecidableEq, Repr

/-- STATUS after reset: 0x0000_0000 (R41). -/
def Status.atReset : Status := { busy := false, done := false, err := false, errCode := .none }

/-- ARG0 to ARG4 after reset (R41). -/
def Args.atReset : Args := { arg0 := 0, arg1 := 0, arg2 := 0, arg3 := 0, arg4 := 0 }

/-- L after reset: R41 leaves it unspecified and nothing reads it while IDLE; zeros are a DESIGN CHOICE, unsafe
(log 5). -/
def Latch.atReset : Latch := { cmd := 0, w := 0, h := 0, args := Args.atReset }

/-- The block right after reset, for any parameters (R41): every register at its reset value, no plane bit and no
PackBuf byte holding a value, nothing asked by the host. -/
def State.resetWith (p : Params) : State :=
  { params := p, status := Status.atReset, bmW := BitVec.ofNat 16 (min 140 p.maxW),
    bmH := BitVec.ofNat 16 (min 32 p.maxH), args := Args.atReset, packLen := 0, planeA := [], planeB := [],
    packBuf := [], latched := Latch.atReset, host := [], turns := [], observed := [] }

/-- The machine right after reset, with R7's default parameters (R41). -/
def State.reset : State := State.resetWith Params.default

end Sys2Proof.Machine
end

