-- ==== Sys2Proof/Machine/Flags.lean ====
section
/-! DEFINITION. Every computation on STATUS (R24, R42): its word, and its five writers: acceptance, completion, the
rejection of a command or access, the host's W1C write, and reset (Status.atReset). -/

namespace Sys2Proof.Machine

/-- The number of an error code (R187). -/
def errCodeBits : ErrCode → BitVec 4
  | .none => 0#4
  | .illegalCmd => 1#4
  | .invalidArg => 2#4
  | .cmdWhileBusy => 3#4
  | .busyAccess => 4#4

/-- STATUS as the host reads it (R24): ERRCODE in [7:4], bit 3 reserved, ERR, DONE and BUSY in bits 2, 1 and 0, bits
31 to 8 reserved. -/
def statusWord (st : Status) : Word :=
  0#24 ++ errCodeBits st.errCode ++ 0#1 ++ BitVec.ofBool st.err ++ BitVec.ofBool st.done ++ BitVec.ofBool st.busy

/-- Acceptance's writes (R90): DONE <- 0, BUSY <- 1. -/
def statusAccept (st : Status) : Status := { st with done := false, busy := true }

/-- Completion's writes (R90): BUSY <- 0, DONE <- 1. -/
def statusComplete (st : Status) : Status := { st with busy := false, done := true }

/-- R27: the first rejection since ERR was cleared sets ERR and keeps its code; later ones change nothing. -/
def statusRaise (code : ErrCode) (st : Status) : Status :=
  if st.err then st else { st with err := true, errCode := code }

/-- R28: a host write of v clears DONE if v[1] = 1, and ERR with ERRCODE if v[2] = 1; other bits are ignored. -/
def statusAcknowledge (v : Word) (st : Status) : Status :=
  { busy := st.busy,
    done := if v.getLsbD 1 then false else st.done,
    err := if v.getLsbD 2 then false else st.err,
    errCode := if v.getLsbD 2 then .none else st.errCode }

end Sys2Proof.Machine
end

