-- ==== Sys2Proof/Machine/Operands.lean ====
section
/-! DEFINITION. The integer primitives of R11, how each command reads its operands from the latched copies (R79, R80),
and the bit and byte order helpers of the windows (R53, R55). -/

namespace Sys2Proof.Machine

/-- sext_16 (R11). -/
abbrev sext16 (v : Half) : Int := v.toInt

/-- zext_16 (R11). -/
abbrev zext16 (v : Half) : Nat := v.toNat

/-- ceil8(h) = (h + 7) div 8 (R11). -/
def ceil8 (h : Nat) : Nat := (h + 7) / 8

/-- W of the active area (R80). -/
def areaW (l : Latch) : Nat := zext16 l.w

/-- H of the active area (R80). -/
def areaH (l : Latch) : Nat := zext16 l.h

/-- G, the number of byte groups per column (R17, R170). -/
def areaG (l : Latch) : Nat := ceil8 (areaH l)

/-- LINE's operands (R79). -/
structure LineOperands where
  x0 : Int
  y0 : Int
  x1 : Int
  y1 : Int
  deriving DecidableEq, Repr

def lineOperands (l : Latch) : LineOperands :=
  { x0 := sext16 l.args.arg0, y0 := sext16 l.args.arg1, x1 := sext16 l.args.arg2, y1 := sext16 l.args.arg3 }

/-- LINE_POLAR's operands (R79): the angle is signed degrees, the length unsigned. -/
structure PolarOperands where
  x      : Int
  y      : Int
  angle  : Int
  length : Nat
  deriving DecidableEq, Repr

def polarOperands (l : Latch) : PolarOperands :=
  { x := sext16 l.args.arg0, y := sext16 l.args.arg1, angle := sext16 l.args.arg2, length := zext16 l.args.arg3 }

/-- CIRCLE's operands (R79). -/
structure CircleOperands where
  cx : Int
  cy : Int
  r  : Nat
  deriving DecidableEq, Repr

def circleOperands (l : Latch) : CircleOperands :=
  { cx := sext16 l.args.arg0, cy := sext16 l.args.arg1, r := zext16 l.args.arg2 }

/-- BOX's operands (R79). -/
structure BoxOperands where
  x      : Int
  y      : Int
  w      : Nat
  h      : Nat
  radius : Nat
  deriving DecidableEq, Repr

def boxOperands (l : Latch) : BoxOperands :=
  { x := sext16 l.args.arg0, y := sext16 l.args.arg1, w := zext16 l.args.arg2, h := zext16 l.args.arg3,
    radius := zext16 l.args.arg4 }

/-- The n-bit pattern whose bit i is f i: the sum of f i << i (R53). -/
def bitsLE : (n : Nat) → (Nat → Bool) → BitVec n
  | 0, _ => 0#0
  | n + 1, f => (bitsLE n (fun i => f (i + 1))).concat (f 0)

/-- Four bytes as a word, byte 0 in the least significant lane (R55, R57). -/
def wordOfBytes (b0 b1 b2 b3 : Byte) : Word := b3 ++ b2 ++ b1 ++ b0

/-- Lane i of a word: bits [8i+7 : 8i] (R55). -/
def byteOfWord (v : Word) (i : Nat) : Byte := v.extractLsb' (8 * i) 8

end Sys2Proof.Machine
end

