-- ==== Sys2Proof/Machine/Ops.lean ====
section
/-! DEFINITION. The named operations over memory and registers that every meaning and every host access uses: cells,
planes, pixels, the active area, the rejection of a command or access (the block's one form of exception, R185), its
acknowledgement (the return from it, R195), issue, acceptance and completion, and reset. -/

namespace Sys2Proof.Machine

open Host (Outcome)

/-! ### Memory cells -/

/-- The byte at a key, if it holds a value. -/
def cellAt : Memory → Nat → Option Byte
  | [], _ => none
  | (b, v) :: rest, a => if a = b then some v else if a < b then none else cellAt rest a

/-- Give the byte at a key a value, keeping the keys strictly rising. -/
def writeCell : Memory → Nat → Byte → Memory
  | [], a, v => [(a, v)]
  | (b, w) :: rest, a, v =>
    if a = b then (a, v) :: rest else if a < b then (a, v) :: (b, w) :: rest else (b, w) :: writeCell rest a v

/-- Give the byte at each key of a list the value that `val` names for the key. Two mentions of one key agree, so the
order of the list does not matter (R93, R160). -/
def writeEach (m : Memory) (keys : List Nat) (val : Nat → Byte) : Memory :=
  keys.foldl (fun m a => writeCell m a (val a)) m

/-- A memory whose keys 0 … n-1 all hold `v` and whose other keys hold no value. -/
def filled (n : Nat) (v : Byte) : Memory := (List.range n).map (fun a => (a, v))

/-- The canonical form: keys strictly rising. (No cell can equal what an unlisted key reads as, since that is no value.) -/
def memoryWf : Memory → Bool
  | [] => true
  | [_] => true
  | (a, _) :: (b, w) :: rest => decide (a < b) && memoryWf ((b, w) :: rest)

/-- Every key is below n: no cell outside the storage that exists (R35, R37). -/
def keysBelow (n : Nat) (m : Memory) : Bool := m.all (fun c => decide (c.1 < n))

/-- Every cell is 0 or 1, as a plane's cells are (R35: bits). -/
def cellsAreBits (m : Memory) : Bool := m.all (fun c => c.2 == 0#8 || c.2 == 1#8)

/-! ### Planes, pixels and PackBuf -/

/-- Plane p (R35). -/
def planeOf (s : State) : Plane → Memory
  | .a => s.planeA
  | .b => s.planeB

/-- Replace plane p. -/
def setPlane (s : State) (p : Plane) (m : Memory) : State :=
  match p with
  | .a => { s with planeA := m }
  | .b => { s with planeB := m }

/-- The number of pixels of a plane: MAX_W × MAX_H (R35). -/
def planeSize (p : Params) : Nat := p.maxW * p.maxH

/-- PACKBUF_BYTES = MAX_W · MAX_H / 8 (R37). -/
def packBytes (p : Params) : Nat := p.maxW * p.maxH / 8

/-- The key of pixel (x, y): row-major (R35). -/
def pixelKey (p : Params) (x y : Nat) : Nat := y * p.maxW + x

/-- The column of a key. -/
def keyX (p : Params) (a : Nat) : Nat := a % p.maxW

/-- The row of a key. -/
def keyY (p : Params) (a : Nat) : Nat := a / p.maxW

/-- A pixel as a plane's cell. -/
def bitCell (b : Bool) : Byte := if b then 1#8 else 0#8

/-- Whether the pixel at a key holds a value. -/
def pixelKnown (m : Memory) (a : Nat) : Bool := (cellAt m a).isSome

/-- The pixel at a key that holds a value. -/
def pixelBit (m : Memory) (a : Nat) : Bool := ((cellAt m a).getD 0#8).getLsbD 0

/-- Plane[p][y][x], if it holds a value (R12, R35). -/
def readPixel (s : State) (p : Plane) (x y : Nat) : Option Bool :=
  (cellAt (planeOf s p) (pixelKey s.params x y)).map (fun c => c.getLsbD 0)

/-- PackBuf[j], if it holds a value (R12, R37). -/
def readPackByte (s : State) (j : Nat) : Option Byte := cellAt s.packBuf j

/-- The columns 0 … w-1 of rows 0 … h-1, row by row (R160). -/
def gridPixels (w h : Nat) : List (Nat × Nat) :=
  (List.range h).flatMap (fun y => (List.range w).map (fun x => (x, y)))

/-- Their keys. -/
def gridKeys (p : Params) (w h : Nat) : List Nat := (gridPixels w h).map (fun xy => pixelKey p xy.1 xy.2)

/-- The keys of the active area (R36). -/
def areaKeys (s : State) : List Nat := gridKeys s.params (areaW s.latched) (areaH s.latched)

/-! ### The active area and the completion of a command -/

/-- R80: 1 ≤ W ≤ MAX_W and 1 ≤ H ≤ MAX_H. -/
def dimensionsOk (p : Params) (w h : Half) : Bool :=
  decide (1 ≤ zext16 w) && decide (zext16 w ≤ p.maxW) && decide (1 ≤ zext16 h) && decide (zext16 h ≤ p.maxH)

/-- The latched active area lies in the planes. -/
def areaOk (s : State) : Bool := dimensionsOk s.params s.latched.w s.latched.h

/-- A completion that uses W and H. An area outside the planes names pixels that do not exist (R35); the issue keeps
it from happening (R91), and the model stops there (log 10). -/
def withActiveArea (s : State) (k : Outcome State Fault Refusal) : Outcome State Fault Refusal :=
  if areaOk s then k else .fault .areaOutsidePlane

/-- The end of a completion: BUSY <- 0, DONE <- 1 (R90, R94). -/
def finish (s : State) : Outcome State Fault Refusal := .next { s with status := statusComplete s.status }

/-! ### Errors, issue, acceptance, reset -/

/-- raise CmdError(code) (R27, R186): the block's exception. It saves no state and changes no mode (R194). -/
def raiseCmdError (code : ErrCode) (s : State) : State := { s with status := statusRaise code s.status }

/-- The host's write to STATUS (R28), which acknowledges an error (R195). -/
def acknowledge (v : Word) (s : State) : State := { s with status := statusAcknowledge v s.status }

/-- accept(v) (R90, R92): latch the word, the dimensions and the operands; DONE <- 0; BUSY <- 1. -/
def accept (v : Word) (s : State) : State :=
  { s with
    latched := { cmd := v, w := s.bmW, h := s.bmH, args := s.args },
    status := statusAccept s.status }

/-- issue(v) (R91): the host's write to CMD. -/
def issue (v : Word) (s : State) : State :=
  if s.status.busy then raiseCmdError .cmdWhileBusy s
  else
    match decode v with
    | .error _ => raiseCmdError .illegalCmd s
    | .ok i =>
      if usesWH i && !dimensionsOk s.params s.bmW s.bmH then raiseCmdError .invalidArg s
      else accept v s

/-- The reset input (R205, R206, R41): every register at its reset value, the engine IDLE, no memory bit holding a
value. The parameters, and what lies outside the block, stay. -/
def resetBlock (s : State) : State :=
  { State.resetWith s.params with host := s.host, turns := s.turns, observed := s.observed }

end Sys2Proof.Machine
end

