-- ==== Sys2Proof/Machine/Bus.lean ====
section
/-! DEFINITION. The host's side of the block: the address decode (R50, R51, R58, R61), reads and writes of registers
(R22 to R34) and of window words (R52 to R56), busy window accesses (R60), the reset input (R205) and the host's polling
loops (R86); and one move of the host. -/

namespace Sys2Proof.Machine

open Host (Outcome)

/-- The offset from BASE of a host access, if the access exists at this interface (R50, R51, R58). -/
def busOffset (p : Params) (addr size : Nat) : Except Refusal Nat :=
  if addr < p.base ∨ p.base + 0x4000 ≤ addr then .error .outsideBlock
  else if size ≠ 4 then .error .subWordAccess
  else if (addr - p.base) % 4 ≠ 0 then .error .unalignedAccess
  else .ok (addr - p.base)

/-- CAPS = {MAX_H, MAX_W} (R33). -/
def capsWord (p : Params) : Word := BitVec.ofNat 16 p.maxH ++ BitVec.ofNat 16 p.maxW

/-- A register read at an offset below 0x1000 (R22): CMD and the reserved offsets read 0 (R23, R34), and a 16-bit
register reads zero-extended (R29 to R32). -/
def readRegister (off : Nat) (s : State) : Word :=
  if off = 0x004 then statusWord s.status
  else if off = 0x008 then s.bmW.setWidth 32
  else if off = 0x00C then s.bmH.setWidth 32
  else if off = 0x010 then s.args.arg0.setWidth 32
  else if off = 0x014 then s.args.arg1.setWidth 32
  else if off = 0x018 then s.args.arg2.setWidth 32
  else if off = 0x01C then s.args.arg3.setWidth 32
  else if off = 0x020 then s.args.arg4.setWidth 32
  else if off = 0x024 then s.packLen.setWidth 32
  else if off = 0x028 then capsWord s.params
  else 0#32

/-- A register write at an offset below 0x1000 (R22): CMD issues (R23), STATUS acknowledges (R28), a 16-bit register
keeps the low 16 bits (R29 to R31), and PACK_LEN, CAPS and the reserved offsets ignore it (R32 to R34). -/
def writeRegister (off : Nat) (v : Word) (s : State) : State :=
  if off = 0x000 then issue v s
  else if off = 0x004 then acknowledge v s
  else if off = 0x008 then { s with bmW := v.setWidth 16 }
  else if off = 0x00C then { s with bmH := v.setWidth 16 }
  else if off = 0x010 then { s with args := { s.args with arg0 := v.setWidth 16 } }
  else if off = 0x014 then { s with args := { s.args with arg1 := v.setWidth 16 } }
  else if off = 0x018 then { s with args := { s.args with arg2 := v.setWidth 16 } }
  else if off = 0x01C then { s with args := { s.args with arg3 := v.setWidth 16 } }
  else if off = 0x020 then { s with args := { s.args with arg4 := v.setWidth 16 } }
  else s

/-- PW, the backed words of a plane window (R52). -/
def planeWords (p : Params) : Nat := p.maxW * p.maxH / 32

/-- PBW, the backed words of the PACKBUF window: every word that holds bytes of PackBuf, four each (R37, R176, D6, I8).
DEDUCED: R52's table gives a quarter of this, which would leave most of PackBuf out of the host's reach (log 20). -/
def packWords (p : Params) : Nat := p.maxW * p.maxH / 32

/-- The key of the pixel that bit b of plane-window word k covers (R53): row k div RW, column 32·(k mod RW) + b, with
RW = MAX_W / 32. -/
def windowKey (p : Params) (k b : Nat) : Nat :=
  pixelKey p (32 * (k % (p.maxW / 32)) + b) (k / (p.maxW / 32))

/-- A host read of plane-window word k while BUSY = 0 (R53, R54); an UNSPECIFIED bit among its 32 is a fault (I1). -/
def readPlaneWord (p : Plane) (k : Nat) (s : State) : Except Fault Word :=
  if k < planeWords s.params then
    if (List.range 32).all (fun b => pixelKnown (planeOf s p) (windowKey s.params k b)) then
      .ok (bitsLE 32 (fun b => pixelBit (planeOf s p) (windowKey s.params k b)))
    else .error .unspecifiedPlaneWord
  else .ok 0#32

/-- A host write of plane-window word k while BUSY = 0 (R53, R54): bit b goes to column 32·(k mod RW) + b. -/
def writePlaneWord (p : Plane) (k : Nat) (v : Word) (s : State) : State :=
  if k < planeWords s.params then
    setPlane s p (writeEach (planeOf s p) ((List.range 32).map (windowKey s.params k))
      (fun a => bitCell (v.getLsbD (keyX s.params a % 32))))
  else s

/-- A host read of PACKBUF word k while BUSY = 0 (R55, R56); an UNSPECIFIED byte among its four is a fault (I2). -/
def readPackWord (k : Nat) (s : State) : Except Fault Word :=
  if k < packWords s.params then
    match readPackByte s (4 * k), readPackByte s (4 * k + 1), readPackByte s (4 * k + 2), readPackByte s (4 * k + 3) with
    | some b0, some b1, some b2, some b3 => .ok (wordOfBytes b0 b1 b2 b3)
    | _, _, _, _ => .error .unspecifiedPackWord
  else .ok 0#32

/-- A host write of PACKBUF word k while BUSY = 0 (R55, R56): lane i goes to byte 4k + i. -/
def writePackWord (k : Nat) (v : Word) (s : State) : State :=
  if k < packWords s.params then
    { s with packBuf := writeEach s.packBuf [4 * k, 4 * k + 1, 4 * k + 2, 4 * k + 3] (fun a => byteOfWord v (a % 4)) }
  else s

/-- The index of a window word (R53, R55): the offset's distance from the window's start, in words. -/
def windowIndex (off : Nat) : Nat := off % 0x1000 / 4

/-- A read of a window word while BUSY = 0 (R53 to R56). -/
def readWindow (off : Nat) (s : State) : Except Fault Word :=
  if off < 0x2000 then readPlaneWord .a (windowIndex off) s
  else if off < 0x3000 then readPlaneWord .b (windowIndex off) s
  else readPackWord (windowIndex off) s

/-- A write of a window word while BUSY = 0 (R53 to R56). -/
def writeWindow (off : Nat) (v : Word) (s : State) : State :=
  if off < 0x2000 then writePlaneWord .a (windowIndex off) v s
  else if off < 0x3000 then writePlaneWord .b (windowIndex off) v s
  else writePackWord (windowIndex off) v s

/-- A read that returned a value, with the state after it, or stopped. -/
abbrev ReadResult := Except Fault (Word × State)

/-- A read without a side effect (R59). -/
def pureRead (s : State) : Except Fault Word → ReadResult
  | .ok v => .ok (v, s)
  | .error f => .error f

/-- MemRead(off, 4) (R51): the value and the state after it. A window read while BUSY = 1 gives 0 and raises
BUSY_ACCESS (R60, R191); no other read has a side effect (R59). -/
def readOffset (off : Nat) (s : State) : ReadResult :=
  if off < 0x1000 then pureRead s (.ok (readRegister off s))
  else if s.status.busy then .ok (0#32, raiseCmdError .busyAccess s)
  else pureRead s (readWindow off s)

/-- MemWrite(off, 4, v) (R51). A window write while BUSY = 1 is dropped and raises BUSY_ACCESS (R60, R191). -/
def writeOffset (off : Nat) (v : Word) (s : State) : State :=
  if off < 0x1000 then writeRegister off v s
  else if s.status.busy then raiseCmdError .busyAccess s
  else writeWindow off v s

/-- The host learns something. -/
def observe (o : Observation) (s : State) : State := { s with observed := o :: s.observed }

/-- The host gets what a read returned. -/
def deliver : ReadResult → Outcome State Fault Refusal
  | .ok (v, t) => .next (observe (.value v) t)
  | .error f => .fault f

/-- One host read (R51). -/
def hostRead (addr size : Nat) (s : State) : Outcome State Fault Refusal :=
  match busOffset s.params addr size with
  | .error r => .refused r
  | .ok off => deliver (readOffset off s)

/-- One host write (R51). -/
def hostWrite (addr size : Nat) (v : Word) (s : State) : Outcome State Fault Refusal :=
  match busOffset s.params addr size with
  | .error r => .refused r
  | .ok off => .next (writeOffset off v s)

/-- One read of STATUS by a polling loop (R86). -/
def pollStatus (s : State) : State := observe (.value (readRegister 0x004 s)) s

/-- One read of STATUS by `wait` (R86): the loop goes on while BUSY = 1. -/
def hostWait (s : State) : State :=
  if s.status.busy then { pollStatus s with host := .wait :: s.host } else pollStatus s

/-- One read of STATUS by `waitn n` (R86): after n reads with BUSY = 1 it gives up and reports timeout. -/
def hostWaitn (n : Nat) (s : State) : State :=
  if n = 0 then observe .timeout s
  else if s.status.busy then
    if n = 1 then observe .timeout (pollStatus s) else { pollStatus s with host := .waitn (n - 1) :: s.host }
  else pollStatus s

/-- One action of the host or the platform (R19), already taken off the list. -/
def hostAct (a : HostAction) (s : State) : Outcome State Fault Refusal :=
  match a with
  | .read addr size => hostRead addr size s
  | .write addr size v => hostWrite addr size v s
  | .wait => .next (hostWait s)
  | .waitn n => .next (hostWaitn n s)
  | .reset => .next (resetBlock s)

/-- The host's move: its oldest pending action, or nothing while it has none (R207: the block waits). -/
def hostTurn (s : State) : Outcome State Fault Refusal :=
  match s.host with
  | [] => .next s
  | a :: rest => hostAct a { s with host := rest }

end Sys2Proof.Machine
end

