-- ==== Sys2Proof/Machine/Raster.lean ====
section
/-! DEFINITION. Pixel sets on unclipped integer coordinates (R13) and the clipping write primitive Plot (R93). A set
is written as a list of horizontal spans, so that a filled shape is as short as its rows; a pixel is a span of one. -/

namespace Sys2Proof.Machine

/-- A pixel (x, y), of any sign (R13). -/
abbrev Pixel := Int × Int

/-- The pixels (x, row) with lo ≤ x ≤ hi. -/
structure Span where
  row : Int
  lo  : Int
  hi  : Int
  deriving DecidableEq, Repr

/-- A pixel set (R13): the union of its spans. -/
abbrev PixelSet := List Span

/-- One pixel as a span. -/
def pixelSpan (p : Pixel) : Span := { row := p.2, lo := p.1, hi := p.1 }

/-- A list of pixels as a set. -/
def pixelSet (ps : List Pixel) : PixelSet := ps.map pixelSpan

/-- Membership of (x, y) in a span. -/
def inSpan (sp : Span) (x y : Int) : Bool := decide (y = sp.row) && decide (sp.lo ≤ x) && decide (x ≤ sp.hi)

/-- Membership of (x, y) in a set. -/
def inSet (ps : PixelSet) (x y : Int) : Bool := ps.any (fun sp => inSpan sp x y)

/-- The pixels of a span with 0 ≤ x < w and 0 ≤ y < h (R93's test). -/
def clipSpan (w h : Nat) (sp : Span) : List (Nat × Nat) :=
  if 0 ≤ sp.row ∧ sp.row < h then
    let first := (max sp.lo 0).toNat
    let stop := (min (sp.hi + 1) w).toNat
    (List.range' first (stop - first)).map (fun x => (x, sp.row.toNat))
  else []

/-- The pixels of a set inside the active area w × h. -/
def clipSet (w h : Nat) (ps : PixelSet) : List (Nat × Nat) := ps.flatMap (clipSpan w h)

/-- The keys that Plot writes. -/
def plotKeys (s : State) (ps : PixelSet) : List Nat :=
  (clipSet (areaW s.latched) (areaH s.latched) ps).map (fun xy => pixelKey s.params xy.1 xy.2)

/-- Plane p after Plot(p, S) (R93): every pixel of the set inside the active area is 1; the others are dropped. -/
def plottedPlane (p : Plane) (ps : PixelSet) (s : State) : Memory :=
  writeEach (planeOf s p) (plotKeys s ps) (fun _ => bitCell true)

/-- Plot(p, S) (R93). -/
def plot (p : Plane) (ps : PixelSet) (s : State) : State := setPlane s p (plottedPlane p ps s)

/-- A drawing command's completion: Plot, then R90's STATUS writes. -/
def draw (p : Plane) (ps : PixelSet) (s : State) : Host.Outcome State Fault Refusal :=
  withActiveArea s (finish (plot p ps s))

end Sys2Proof.Machine
end

