-- ==== Sys2Proof/Machine/Circle.lean ====
section
/-! DEFINITION. The circle family: octant pairs (R131), the outline and filled sets (R132, R133) and CIRCLE (R134). -/

namespace Sys2Proof.Machine

open Host (Outcome)

/-- R131's loop: emit (a, b) while a ≤ b. The first argument bounds the number of emitted pairs. -/
def octantLoop : Nat → Int → Int → Int → List (Int × Int)
  | 0, _, _, _ => []
  | n + 1, a, b, d =>
    if a ≤ b then
      (a, b) :: (if d < 0 then octantLoop n (a + 1) b (d + 2 * a + 3)
                 else octantLoop n (a + 1) (b - 1) (d + 2 * (a - b) + 5))
    else []

/-- OctantPairs(r) (R131). At most r + 1 pairs have a ≤ b, since a rises by 1 from 0 and b never exceeds r. -/
def octantPairs (r : Nat) : List (Int × Int) := octantLoop (r + 1) 0 r (1 - r)

/-- The eight images of an octant pair about the centre (R132). -/
def eightWay (cx cy : Int) (ab : Int × Int) : List Pixel :=
  [ (cx + ab.1, cy + ab.2), (cx - ab.1, cy + ab.2), (cx + ab.1, cy - ab.2), (cx - ab.1, cy - ab.2),
    (cx + ab.2, cy + ab.1), (cx - ab.2, cy + ab.1), (cx + ab.2, cy - ab.1), (cx - ab.2, cy - ab.1) ]

/-- CircleOutline(cx, cy, r) (R132). -/
def circleOutline (cx cy : Int) (r : Nat) : PixelSet := pixelSet ((octantPairs r).flatMap (eightWay cx cy))

/-- The four spans of an octant pair (R133). -/
def fourSpans (cx cy : Int) (ab : Int × Int) : List Span :=
  [ { row := cy + ab.2, lo := cx - ab.1, hi := cx + ab.1 }, { row := cy - ab.2, lo := cx - ab.1, hi := cx + ab.1 },
    { row := cy + ab.1, lo := cx - ab.2, hi := cx + ab.2 }, { row := cy - ab.1, lo := cx - ab.2, hi := cx + ab.2 } ]

/-- CircleFilled(cx, cy, r) (R133): the outline and the spans. -/
def circleFilled (cx cy : Int) (r : Nat) : PixelSet :=
  circleOutline cx cy r ++ (octantPairs r).flatMap (fourSpans cx cy)

/-- CIRCLE (R134). -/
def execCircle (p : Plane) (filled : Bool) (s : State) : Outcome State Fault Refusal :=
  let o := circleOperands s.latched
  draw p (if filled then circleFilled o.cx o.cy o.r else circleOutline o.cx o.cy o.r) s

end Sys2Proof.Machine
end

