-- ==== Sys2Proof/Machine/Polar.lean ====
section
/-! DEFINITION. The polar endpoint (R116), exact: the trigonometry is done in integers, on a table of the sines of
the integer degrees 0 to 90 rounded at the 20th decimal. Laws/Trig.lean proves that every entry is the real sine to
within 10^-17 and that no product of a length below 65536 with a table entry is close enough to a half-integer for that
difference to matter, except at 30 degrees, where the entry is the sine exactly (log 8). -/

namespace Sys2Proof.Machine

/-- The table's unit: 10^20 stands for the sine 1. -/
def trigUnit : Nat := 100000000000000000000

/-- sin(t°) · 10^20, rounded, for t = 0 … 90, in rows of thirteen. -/
def sinTable : List Nat :=
  [0, 1745240643728351282, 3489949670250097165, 5233595624294383272,
   6975647374412530078, 8715574274765817356, 10452846326765347140, 12186934340514748111,
   13917310096006544411, 15643446504023086901, 17364817766693034885, 19080899537654481241,
   20791169081775933710] ++
  [22495105434386499805, 24192189559966772256, 25881904510252076235, 27563735581699918565,
   29237170472273672810, 30901699437494742410, 32556815445715666871, 34202014332566873304,
   35836794954530027348, 37460659341591203541, 39073112848927375506, 40673664307580020775,
   42261826174069943619] ++
  [43837114678907741745, 45399049973954679156, 46947156278589077596, 48480962024633702908,
   50000000000000000000, 51503807491005421008, 52991926423320495405, 54463903501502708222,
   55919290347074683016, 57357643635104609611, 58778525229247312917, 60181502315204827992,
   61566147532565827967] ++
  [62932039104983745271, 64278760968653932632, 65605902899050728478, 66913060635885821383,
   68199836006249850044, 69465837045899728666, 70710678118654752440, 71933980033865113936,
   73135370161917048329, 74314482547739423501, 75470958022277199794, 76604444311897803520,
   77714596145697087998] ++
  [78801075360672195669, 79863551004729284628, 80901699437494742410, 81915204428899178968,
   82903757255504169201, 83867056794542402964, 84804809615642597039, 85716730070211228747,
   86602540378443864676, 87461970713939580028, 88294759285892694203, 89100652418836786236,
   89879404629916699278] ++
  [90630778703664996324, 91354545764260089550, 92050485345244032740, 92718385456678740081,
   93358042649720174899, 93969262078590838405, 94551857559931681035, 95105651629515357212,
   95630475596303548134, 96126169593831886192, 96592582628906828675, 97029572627599647231,
   97437006478523522854] ++
  [97814760073380563793, 98162718344766395350, 98480775301220805937, 98768834059513772619,
   99026806874157031508, 99254615164132203498, 99452189536827333692, 99619469809174553230,
   99756405025982424761, 99862953475457387378, 99939082701909573001, 99984769515639123916,
   100000000000000000000]

/-- sin(t°) in the table's unit, for 0 ≤ t ≤ 90. -/
def sinQuarter (t : Nat) : Nat := sinTable.getD t 0

/-- sin(t°) in the table's unit, for 0 ≤ t < 360, by the symmetry of the four quadrants. -/
def sinDegrees (t : Nat) : Int :=
  if t ≤ 90 then sinQuarter t
  else if t ≤ 180 then sinQuarter (180 - t)
  else if t ≤ 270 then -(sinQuarter (t - 180) : Int)
  else -(sinQuarter (360 - t) : Int)

/-- cos(t°) in the table's unit, for 0 ≤ t < 360: the sine a quarter turn on. -/
def cosDegrees (t : Nat) : Int := sinDegrees ((t + 90) % 360)

/-- round_he (R14) of the quotient n / d of naturals, d > 0: the nearest integer, an exact half to the even one. -/
def roundQuotient (n d : Nat) : Nat :=
  let q := n / d
  let r := n % d
  if 2 * r < d then q else if d < 2 * r then q + 1 else if q % 2 = 0 then q else q + 1

/-- round_he (R14) of z / d for an integer z: the rule is symmetric about 0 (R117). -/
def roundHalfEven (z : Int) (d : Nat) : Int :=
  if 0 ≤ z then roundQuotient z.natAbs d else -(roundQuotient z.natAbs d : Int)

/-- t = angle mod 360, in 0 … 359 (R116). -/
def reducedAngle (angle : Int) : Nat := (angle % 360).toNat

/-- dx = round_he(length · cos t) (R116). -/
def polarDx (angle : Int) (length : Nat) : Int :=
  roundHalfEven (length * cosDegrees (reducedAngle angle)) trigUnit

/-- dy = round_he(length · sin t) (R116). -/
def polarDy (angle : Int) (length : Nat) : Int :=
  roundHalfEven (length * sinDegrees (reducedAngle angle)) trigUnit

/-- PolarEndpoint(x, y, angle, length) (R116): y grows downward, so dy is subtracted (R118). -/
def polarEndpoint (x y angle : Int) (length : Nat) : Int × Int :=
  (x + polarDx angle length, y - polarDy angle length)

end Sys2Proof.Machine
end

