-- ==== Sys2Proof/Machine/Line.lean ====
section
/-! DEFINITION. The line family: the segment rasteriser (R111, R112), LINE (R115) and LINE_POLAR (R119). -/

namespace Sys2Proof.Machine

open Host (Outcome)

/-- What stays fixed along one segment (R112): the end point, dx, dy and the two step signs. -/
structure Segment where
  x1 : Int
  y1 : Int
  dx : Int
  dy : Int
  sx : Int
  sy : Int
  deriving DecidableEq, Repr

/-- The first lines of R112's LinePixels. -/
def segmentOf (x0 y0 x1 y1 : Int) : Segment :=
  { x1 := x1, y1 := y1, dx := (x1 - x0).natAbs, dy := -((y1 - y0).natAbs : Int), sx := if x0 < x1 then 1 else -1,
    sy := if y0 < y1 then 1 else -1 }

/-- R112's loop: emit (x, y), stop at the end point, else step in x, in y or in both by the one test value e2. The
first argument bounds the number of emitted pixels. -/
def lineLoop (g : Segment) : Nat → Int → Int → Int → List Pixel
  | 0, _, _, _ => []
  | n + 1, x, y, err =>
    if x = g.x1 ∧ y = g.y1 then [(x, y)]
    else
      let e2 := 2 * err
      let stepX := decide (e2 ≥ g.dy)
      let stepY := decide (e2 ≤ g.dx)
      (x, y) :: lineLoop g n (if stepX then x + g.sx else x) (if stepY then y + g.sy else y)
        ((if stepX then err + g.dy else err) + (if stepY then g.dx else 0))

/-- LinePixels(x0, y0, x1, y1) (R111, R112). It emits max(|x1 - x0|, |y1 - y0|) + 1 pixels (R113(b)), which is the
loop's bound. -/
def linePixels (x0 y0 x1 y1 : Int) : List Pixel :=
  let g := segmentOf x0 y0 x1 y1
  lineLoop g (max (x1 - x0).natAbs (y1 - y0).natAbs + 1) x0 y0 (g.dx + g.dy)

/-- LINE (R115). -/
def execLine (p : Plane) (s : State) : Outcome State Fault Refusal :=
  let o := lineOperands s.latched
  draw p (pixelSet (linePixels o.x0 o.y0 o.x1 o.y1)) s

/-- LINE_POLAR (R119): from the origin toward the polar endpoint. -/
def execLinePolar (p : Plane) (s : State) : Outcome State Fault Refusal :=
  let o := polarOperands s.latched
  let e := polarEndpoint o.x o.y o.angle o.length
  draw p (pixelSet (linePixels o.x o.y e.1 e.2)) s

end Sys2Proof.Machine
end

