-- ==== Sys2Proof/Machine/Box.lean ====
section
/-! DEFINITION. The box family: geometry (R145), effective radius (R146), outline (R147 to R149), filled set (R150)
and BOX (R151). -/

namespace Sys2Proof.Machine

open Host (Outcome)

/-- re (R146), for w ≥ 1 and h ≥ 1. -/
def effectiveRadius (w h radius : Nat) : Nat := min radius (min ((w - 1) / 2) ((h - 1) / 2))

/-- x1 = x + w - 1, and y1 likewise (R145). -/
def farEdge (x : Int) (w : Nat) : Int := x + w - 1

/-- R147: the outline with re = 0, four segments. -/
def boxSegments (x y x1 y1 : Int) : List Pixel :=
  linePixels x y x1 y ++ linePixels x1 y x1 y1 ++ linePixels x1 y1 x y1 ++ linePixels x y1 x y

/-- R148: the trimmed edges, top, bottom, left, right. -/
def boxEdges (x y x1 y1 re : Int) : List Pixel :=
  linePixels (x + re) y (x1 - re) y ++ linePixels (x + re) y1 (x1 - re) y1 ++
    linePixels x (y + re) x (y1 - re) ++ linePixels x1 (y + re) x1 (y1 - re)

/-- R149: the corner pixels of one octant pair: top-left, top-right, bottom-left, bottom-right. -/
def cornerPixels (x y x1 y1 re : Int) (ab : Int × Int) : List Pixel :=
  [ (x + re - ab.1, y + re - ab.2), (x + re - ab.2, y + re - ab.1),
    (x1 - re + ab.1, y + re - ab.2), (x1 - re + ab.2, y + re - ab.1),
    (x + re - ab.1, y1 - re + ab.2), (x + re - ab.2, y1 - re + ab.1),
    (x1 - re + ab.1, y1 - re + ab.2), (x1 - re + ab.2, y1 - re + ab.1) ]

/-- R149's Arcs. -/
def boxArcs (x y x1 y1 : Int) (re : Nat) : List Pixel := (octantPairs re).flatMap (cornerPixels x y x1 y1 re)

/-- The pixels of BoxOutline(x, y, w, h, radius) (R147 to R149), for w ≥ 1 and h ≥ 1. -/
def boxOutlinePixels (x y : Int) (w h radius : Nat) : List Pixel :=
  let re := effectiveRadius w h radius
  let x1 := farEdge x w
  let y1 := farEdge y h
  if re = 0 then boxSegments x y x1 y1 else boxEdges x y x1 y1 re ++ boxArcs x y x1 y1 re

/-- BoxOutline (R145, R147 to R149): empty when w = 0 or h = 0. -/
def boxOutline (x y : Int) (w h radius : Nat) : PixelSet :=
  if w = 0 ∨ h = 0 then [] else pixelSet (boxOutlinePixels x y w h radius)

/-- The span from the leftmost to the rightmost of the outline's pixels in a row (R150). -/
def rowSpan (outline : List Pixel) (row : Int) : Option Span :=
  match (outline.filter (fun p => decide (p.2 = row))).map (fun p => p.1) with
  | [] => none
  | u :: us => some { row := row, lo := us.foldl min u, hi := us.foldl max u }

/-- The rows y … y1 (R150). -/
def boxRows (y : Int) (h : Nat) : List Int := (List.range h).map (fun (k : Nat) => y + (k : Int))

/-- The filled rows of a box, for the rows of a list (R150). -/
def fillRows (outline : List Pixel) (rows : List Int) : PixelSet := rows.filterMap (rowSpan outline)

/-- BoxFilled (R145, R150): empty when w = 0 or h = 0. -/
def boxFilled (x y : Int) (w h radius : Nat) : PixelSet :=
  if w = 0 ∨ h = 0 then [] else fillRows (boxOutlinePixels x y w h radius) (boxRows y h)

/-- BoxFilled on the rows of the active area alone. Plot drops every pixel of the other rows (R93), so plotting this
set and plotting BoxFilled are the same write (Laws/Box.lean); this one is short however tall the box is. -/
def boxFilledInRows (areaRows : Nat) (x y : Int) (w h radius : Nat) : PixelSet :=
  if w = 0 ∨ h = 0 then []
  else fillRows (boxOutlinePixels x y w h radius)
    ((boxRows y h).filter (fun row => decide (0 ≤ row) && decide (row < areaRows)))

/-- BOX (R151). -/
def execBox (p : Plane) (filled : Bool) (s : State) : Outcome State Fault Refusal :=
  let o := boxOperands s.latched
  draw p (if filled then boxFilledInRows (areaH s.latched) o.x o.y o.w o.h o.radius
          else boxOutline o.x o.y o.w o.h o.radius) s

end Sys2Proof.Machine
end

