-- ==== Sys2Proof/Machine/Combine.lean ====
section
/-! DEFINITION. The combine family: COMBINE in its four modes (R160 to R164). -/

namespace Sys2Proof.Machine

open Host (Outcome)

/-- op(d, s) of a mode (R161 to R164). -/
def combineOp : CombineMode → Bool → Bool → Bool
  | .normal, _, src => src
  | .or, d, src => d || src
  | .and, d, src => d && src
  | .xor, d, src => d != src

/-- Whether a mode reads dst: every mode but NORMAL (R161, I1). -/
def combineReadsDst : CombineMode → Bool
  | .normal => false
  | .or => true
  | .and => true
  | .xor => true

/-- Every pixel of the active area of a plane holds a value. -/
def areaKnown (m : Memory) (s : State) : Bool := (areaKeys s).all (pixelKnown m)

/-- Plane p after Exec_COMBINE(L, op) (R160): every pixel of the active area is op of the old pixels of both planes. -/
def combinedPlane (mode : CombineMode) (p : Plane) (s : State) : Memory :=
  writeEach (planeOf s p) (areaKeys s)
    (fun a => bitCell (combineOp mode (pixelBit (planeOf s p) a) (pixelBit (planeOf s p.other) a)))

/-- Exec_COMBINE(L, op) (R160). An UNSPECIFIED bit read in either plane is a fault (I1, D45). -/
def combineActive (mode : CombineMode) (p : Plane) (s : State) : Outcome State Fault Refusal :=
  withActiveArea s
    (if areaKnown (planeOf s p.other) s = false then .fault .unspecifiedSourcePixel
     else if combineReadsDst mode = true ∧ areaKnown (planeOf s p) s = false then .fault .unspecifiedDestPixel
     else finish (setPlane s p (combinedPlane mode p s)))

/-- COMBINE.NORMAL (R161): src replaces; dst is not read. -/
def execCombineNormal (p : Plane) (s : State) : Outcome State Fault Refusal := combineActive .normal p s

/-- COMBINE.OR (R162). -/
def execCombineOr (p : Plane) (s : State) : Outcome State Fault Refusal := combineActive .or p s

/-- COMBINE.AND (R163). -/
def execCombineAnd (p : Plane) (s : State) : Outcome State Fault Refusal := combineActive .and p s

/-- COMBINE.XOR (R164). -/
def execCombineXor (p : Plane) (s : State) : Outcome State Fault Refusal := combineActive .xor p s

end Sys2Proof.Machine
end

