-- ==== Sys2Proof/Machine/Command.lean ====
section
/-! DEFINITION. The control commands: NOP (R95) and CLEAR (R96). -/

namespace Sys2Proof.Machine

open Host (Outcome)

/-- NOP (R95): nothing but R90's STATUS writes. -/
def execNop (s : State) : Outcome State Fault Refusal := finish s

/-- CLEAR (R96): every bit of the whole physical plane becomes 0, whatever BM_W and BM_H are. -/
def execClear (p : Plane) (s : State) : Outcome State Fault Refusal :=
  finish (setPlane s p (filled (planeSize s.params) (bitCell false)))

end Sys2Proof.Machine
end

