-- ==== Sys2Proof/Machine/Pack.lean ====
section
/-! DEFINITION. The pack family: PACK (R172) and UNPACK (R173), over the index map of R171: byte j of PackBuf covers
column j div G and rows 8·(j mod G) to 8·(j mod G) + 7, its bit 7 the topmost of them. -/

namespace Sys2Proof.Machine

open Host (Outcome)

/-- N = W · G, the packed length (R170, R175). -/
def packedLength (l : Latch) : Nat := areaW l * areaG l

/-- PACK_LEN <- W · G (R175). -/
def setPackLen (s : State) : State := { s with packLen := BitVec.ofNat 16 (packedLength s.latched) }

/-- The byte that PACK writes for column c and group g of a plane (R172): bit 7-k is the pixel (c, 8g + k), and 0 in
the rows from H on. -/
def packGroup (p : Params) (m : Memory) (h c g : Nat) : Byte :=
  bitsLE 8 (fun i => decide (8 * g + (7 - i) < h) && pixelBit m (pixelKey p c (8 * g + (7 - i))))

/-- PackBuf after Exec_PACK (R172): bytes 0 … N-1 are the groups of plane p, the others as before (R176). -/
def packedBuffer (p : Plane) (s : State) : Memory :=
  writeEach s.packBuf (List.range (packedLength s.latched))
    (fun j => packGroup s.params (planeOf s p) (areaH s.latched) (j / areaG s.latched) (j % areaG s.latched))

/-- Exec_PACK (R172). An UNSPECIFIED bit of the active area is a fault (I1, D45); rows from H on are not read. -/
def execPack (p : Plane) (s : State) : Outcome State Fault Refusal :=
  withActiveArea s
    (if areaKnown (planeOf s p) s = false then .fault .unspecifiedPackedPixel
     else finish (setPackLen { s with packBuf := packedBuffer p s }))

/-- Every byte that UNPACK reads holds a value. -/
def packedKnown (s : State) : Bool := (List.range (packedLength s.latched)).all (fun j => (readPackByte s j).isSome)

/-- The pixel that UNPACK writes at column c and row r: bit 7 - (r mod 8) of byte c·G + r div 8 (R171, R173). -/
def unpackedBit (buf : Memory) (g c r : Nat) : Bool :=
  ((cellAt buf (c * g + r / 8)).getD 0#8).getLsbD (7 - r % 8)

/-- Plane p after Exec_UNPACK (R173): rows 0 … 8G-1 of columns 0 … W-1 written, padding rows included. -/
def unpackedPlane (p : Plane) (s : State) : Memory :=
  writeEach (planeOf s p) (gridKeys s.params (areaW s.latched) (8 * areaG s.latched))
    (fun a => bitCell (unpackedBit s.packBuf (areaG s.latched) (keyX s.params a) (keyY s.params a)))

/-- Exec_UNPACK (R173). An UNSPECIFIED byte is a fault (I2, D45). -/
def execUnpack (p : Plane) (s : State) : Outcome State Fault Refusal :=
  withActiveArea s
    (if packedKnown s = false then .fault .unspecifiedPackByte
     else finish (setPackLen (setPlane s p (unpackedPlane p s))))

end Sys2Proof.Machine
end

