-- ==== Sys2Proof/Machine/Dispatch.lean ====
section
/-! DEFINITION. The dispatch of a decoded command to its meaning: the completion of the command on the latched state
(R94), one arm per row of the opcode map (R78). -/

namespace Sys2Proof.Machine

/-- Completion's choice of the latched command's rule (R94). -/
def exec (i : Instr) (s : State) : Host.Outcome State Fault Refusal :=
  match i with
  | .nop => Sys2Proof.Machine.execNop s
  | .clear p => Sys2Proof.Machine.execClear p s
  | .line p => Sys2Proof.Machine.execLine p s
  | .linePolar p => Sys2Proof.Machine.execLinePolar p s
  | .circle p filled => Sys2Proof.Machine.execCircle p filled s
  | .box p filled => Sys2Proof.Machine.execBox p filled s
  | .combineNormal p => Sys2Proof.Machine.execCombineNormal p s
  | .combineOr p => Sys2Proof.Machine.execCombineOr p s
  | .combineAnd p => Sys2Proof.Machine.execCombineAnd p s
  | .combineXor p => Sys2Proof.Machine.execCombineXor p s
  | .pack p => Sys2Proof.Machine.execPack p s
  | .unpack p => Sys2Proof.Machine.execUnpack p s

end Sys2Proof.Machine
end

