-- ==== Sys2Proof/Machine/Engine.lean ====
section
/-! DEFINITION. The engine's move: the completion of the latched command (R94). -/

namespace Sys2Proof.Machine

open Host (Outcome)

/-- Completion (R94): enabled while BUSY = 1, it runs the latched command; while BUSY = 0 the engine does nothing. A
latched word that no row matches stops the machine; the issue keeps it from happening (R91, log 11). -/
def engineTurn (s : State) : Outcome State Fault Refusal :=
  if s.status.busy then
    match decode s.latched.cmd with
    | .ok i => exec i s
    | .error _ => .fault .illegalLatchedCommand
  else .next s

/-- The word placed as the command in flight: what acceptance leaves in L and STATUS (R90). -/
def placeCommand (v : Word) (s : State) : State := accept v s

end Sys2Proof.Machine
end

