-- ==== Sys2Proof/Machine/Step.lean ====
section
/-! DEFINITION. One step: one move of one agent (R18, R19). Which agent moves is plain data in the state, since the
spec does not say how many host accesses come before a completion (R63, R214; log 2). -/

namespace Sys2Proof.Machine

/-- One step. The head of `turns` names the agent that moves; with none named, the engine moves whenever it can
(BUSY = 1), else the host. -/
def step (s : State) : Host.Outcome State Fault Refusal :=
  match s.turns with
  | .engine :: rest => engineTurn { s with turns := rest }
  | .host :: rest => hostTurn { s with turns := rest }
  | [] => if s.status.busy then engineTurn s else hostTurn s

/-- The state with the command word `w` accepted and the engine to move, so that the very next step runs the command:
a word comes to the engine by acceptance (R90), which this stands for (log 1). -/
def State.withFetchWord (s : State) (nbits w : Nat) : State :=
  { placeCommand (BitVec.ofNat 32 (w % 2 ^ nbits)) s with turns := .engine :: s.turns }

end Sys2Proof.Machine
end

