-- ==== Sys2Proof/Machine/HostProgram.lean ====
section
/-! DEFINITION. The host assembly notation (R85) and the pseudo-instructions (R86) as lists of host accesses: what a
host program puts into State.host. -/

namespace Sys2Proof.Machine

/-- A register name of R22, or a window word k of R85. -/
inductive HostName where
  | cmd
  | status
  | bmW
  | bmH
  | arg0
  | arg1
  | arg2
  | arg3
  | arg4
  | packLen
  | caps
  | planeWord (p : Plane) (k : Nat)
  | packWord (k : Nat)
  deriving DecidableEq, Repr

/-- off(NAME) (R22, R85). -/
def hostOffset : HostName → Nat
  | .cmd => 0x000
  | .status => 0x004
  | .bmW => 0x008
  | .bmH => 0x00C
  | .arg0 => 0x010
  | .arg1 => 0x014
  | .arg2 => 0x018
  | .arg3 => 0x01C
  | .arg4 => 0x020
  | .packLen => 0x024
  | .caps => 0x028
  | .planeWord .a k => 0x1000 + 4 * k
  | .planeWord .b k => 0x2000 + 4 * k
  | .packWord k => 0x3000 + 4 * k

/-- `wr NAME, imm` (R85); a negative decimal stands for its 32-bit two's complement. -/
def wr (base : Nat) (n : HostName) (imm : Int) : HostAction := .write (base + hostOffset n) 4 (BitVec.ofInt 32 imm)

/-- `rd NAME` (R85). -/
def rd (base : Nat) (n : HostName) : HostAction := .read (base + hostOffset n) 4

/-- `issue CMDSPEC` (R85): a write of the command's word to CMD. -/
def issueCmd (base : Nat) (i : Instr) : HostAction := .write (base + hostOffset .cmd) 4 (encode i)

/-- The COMBINE command of a mode (R85). -/
def combineCmd (mode : CombineMode) (d : Plane) : Instr :=
  match mode with
  | .normal => .combineNormal d
  | .or => .combineOr d
  | .and => .combineAnd d
  | .xor => .combineXor d

/-- The pseudo-instructions of R86 besides `wait` and `waitn`, which are host actions of their own. -/
inductive Pseudo where
  | dims (w h : Int)
  | clear (p : Plane)
  | line (p : Plane) (x0 y0 x1 y1 : Int)
  | linep (p : Plane) (x y ang len : Int)
  | circle (p : Plane) (filled : Bool) (cx cy r : Int)
  | box (p : Plane) (filled : Bool) (x y w h r : Int)
  | combine (mode : CombineMode) (d : Plane)
  | pack (p : Plane)
  | unpack (p : Plane)
  | ack
  deriving DecidableEq, Repr

/-- R86's expansions. -/
def expand (base : Nat) : Pseudo → List HostAction
  | .dims w h => [wr base .bmW w, wr base .bmH h]
  | .clear p => [issueCmd base (.clear p), .wait]
  | .line p x0 y0 x1 y1 =>
    [wr base .arg0 x0, wr base .arg1 y0, wr base .arg2 x1, wr base .arg3 y1, issueCmd base (.line p), .wait]
  | .linep p x y ang len =>
    [wr base .arg0 x, wr base .arg1 y, wr base .arg2 ang, wr base .arg3 len, issueCmd base (.linePolar p), .wait]
  | .circle p filled cx cy r =>
    [wr base .arg0 cx, wr base .arg1 cy, wr base .arg2 r, issueCmd base (.circle p filled), .wait]
  | .box p filled x y w h r =>
    [wr base .arg0 x, wr base .arg1 y, wr base .arg2 w, wr base .arg3 h, wr base .arg4 r, issueCmd base (.box p filled),
      .wait]
  | .combine mode d => [issueCmd base (combineCmd mode d), .wait]
  | .pack p => [issueCmd base (.pack p), .wait]
  | .unpack p => [issueCmd base (.unpack p), .wait]
  | .ack => [wr base .status 6]

/-- The state with a host program and an order of moves placed in it: how a program comes to run (log 1, log 2). -/
def withProgram (prog : List HostAction) (order : List Agent) (s : State) : State :=
  { s with host := prog, turns := order }

end Sys2Proof.Machine
end

