-- ==== Sys2Proof/Safety.lean ====
section
/-! DEFINITION. What holds of every state a run reaches, named clause by clause, and what counts as a safe step. -/

namespace Sys2Proof

open Machine

/-- A memory in canonical form whose keys all lie below n. -/
def storageOk (n : Nat) (m : Memory) : Bool := memoryWf m && keysBelow n m

/-- Both planes hold bits of existing pixels, and PackBuf bytes of existing indices, in canonical form (R35, R37). -/
def memoriesOk (s : State) : Bool :=
  storageOk (planeSize s.params) s.planeA && cellsAreBits s.planeA &&
  storageOk (planeSize s.params) s.planeB && cellsAreBits s.planeB &&
  storageOk (packBytes s.params) s.packBuf

/-- BUSY = 1 implies DONE = 0 (R26), and ERRCODE is 0 exactly when ERR is 0 (R24, R27, R28). -/
def statusOk (st : Status) : Bool := !(st.busy && st.done) && (st.err == (st.errCode != .none))

/-- While BUSY = 1 the latched word is a legal command, with latched dimensions in range if it uses them (R91, R92). -/
def inFlightOk (s : State) : Bool :=
  !s.status.busy ||
    match decode s.latched.cmd with
    | .ok i => !usesWH i || areaOk s
    | .error _ => false

/-- PACK_LEN never exceeds PACKBUF_BYTES (R32). -/
def packLenOk (s : State) : Bool := decide (s.packLen.toNat ≤ packBytes s.params)

/-- The invariant of the machine. -/
def StateInv (s : State) : Bool :=
  s.params.wellFormed && memoriesOk s && statusOk s.status && inFlightOk s && packLenOk s

/-- A fault that stands for a read of an UNSPECIFIED bit or byte, which the host's program can avoid (R208). -/
def isUnspecifiedRead : Fault → Bool
  | .unspecifiedPlaneWord => true
  | .unspecifiedPackWord => true
  | .unspecifiedSourcePixel => true
  | .unspecifiedDestPixel => true
  | .unspecifiedPackedPixel => true
  | .unspecifiedPackByte => true
  | .areaOutsidePlane => false
  | .illegalLatchedCommand => false

/-- A step is safe when it answers a next state, or stops only because the host asked for an access that does not
exist or for a value that nothing has written. -/
def safeStep (s : State) : Bool :=
  match step s with
  | .next _ => true
  | .fault f => isUnspecifiedRead f
  | .refused r => r == .subWordAccess || r == .unalignedAccess || r == .outsideBlock

/-! ### The terms that statements about completions are written in -/

/-- STATUS after a completion (R90): BUSY 0, DONE 1, ERR and ERRCODE as before. -/
def completedStatus (st : Status) : Status :=
  { busy := false, done := true, err := st.err, errCode := st.errCode }

/-- STATUS after a rejection (R27): the first one since ERR was cleared keeps its code. -/
def rejectedStatus (code : ErrCode) (st : Status) : Status :=
  { busy := st.busy, done := st.done, err := true, errCode := if st.err then st.errCode else code }

/-- Pixel (x, y) lies in the active area of the latched command (R36). -/
def InArea (s : State) (x y : Nat) : Prop := x < areaW s.latched ∧ y < areaH s.latched

/-- Memory `new` is memory `old` with a 1 at every pixel of S inside the active area and every other cell of the whole
memory as it was (R93). -/
def PlottedOver (s : State) (S : Int → Int → Prop) (old new : Memory) : Prop :=
  (∀ x y : Nat, InArea s x y → S x y → cellAt new (pixelKey s.params x y) = some 1#8) ∧
  (∀ a : Nat, (∀ x y : Nat, InArea s x y → S x y → a ≠ pixelKey s.params x y) → cellAt new a = cellAt old a)

/-- The command completes by plotting S into plane p: the next state is the old one with that plane and STATUS
replaced, and nothing else (R93, R94, R98). -/
def CompletesPlotting (i : Instr) (p : Plane) (S : Int → Int → Prop) (s : State) : Prop :=
  ∃ m : Memory, exec i s = .next { setPlane s p m with status := completedStatus s.status } ∧
    PlottedOver s S (planeOf s p) m

/-- The command completes by combining plane p with the other plane by `op` over the active area (R160), for any state
in which the pixels it reads hold values (I1): the next state is the old one with plane p and STATUS replaced, every
pixel of the active area is op of the old pixels, and every other cell of plane p is as it was. -/
def CompletesCombining (i : Instr) (p : Plane) (op : Bool → Bool → Bool) (readsDst : Bool) (s : State) : Prop :=
  (∀ x y, InArea s x y → ∃ b, readPixel s p.other x y = some b) →
  (readsDst = true → ∀ x y, InArea s x y → ∃ b, readPixel s p x y = some b) →
  ∃ m : Memory, exec i s = .next { setPlane s p m with status := completedStatus s.status } ∧
    (∀ x y b, InArea s x y → readPixel s p.other x y = some b →
      (∀ d, readPixel s p x y = some d → cellAt m (pixelKey s.params x y) = some (bitCell (op d b))) ∧
      (readsDst = false → cellAt m (pixelKey s.params x y) = some (bitCell (op false b)))) ∧
    (∀ a : Nat, (∀ x y, InArea s x y → a ≠ pixelKey s.params x y) → cellAt m a = cellAt (planeOf s p) a)

/-- Every pixel of the active area of a plane holds a value. -/
def AreaSpecified (s : State) (p : Plane) : Prop := ∀ x y, InArea s x y → readPixel s p x y ≠ none

/-- The bits and bytes that the completion of a command reads hold values, and no others need to (I1, I2): src for every
COMBINE and dst for OR, AND and XOR, the active area for PACK, the packed bytes for UNPACK. -/
def ReadsSpecified (s : State) : Instr → Prop
  | .nop => True
  | .clear _ => True
  | .line _ => True
  | .linePolar _ => True
  | .circle _ _ => True
  | .box _ _ => True
  | .combineNormal p => AreaSpecified s p.other
  | .combineOr p => AreaSpecified s p.other ∧ AreaSpecified s p
  | .combineAnd p => AreaSpecified s p.other ∧ AreaSpecified s p
  | .combineXor p => AreaSpecified s p.other ∧ AreaSpecified s p
  | .pack p => AreaSpecified s p
  | .unpack _ => ∀ j, j < areaW s.latched * areaG s.latched → readPackByte s j ≠ none

/-- v is one of the integers nearest to the real number r, the even one when two are (R14's round_he). -/
def IsRoundHalfEven (r : ℝ) (v : Int) : Prop := |r - v| < 1 / 2 ∨ (|r - v| = 1 / 2 ∧ Even v)

end Sys2Proof
end

