-- ==== Sys2Proof/Certificates/Slice0/Obligations.lean ====
section
/-! DEFINITION. The statements for the provers. Each docstring names the rules it formalises. -/

open Sys2Proof Sys2Proof.Machine
open Host (Outcome)

/-! ### Command words -/

/-- R78, R81: words written out from the opcode map and what they decode to. -/
def Obligations.DecodeOfSpecWords : Prop :=
  decode 0x00000000#32 = .ok .nop ∧
  decode 0x00000101#32 = .ok (.clear .b) ∧
  decode 0x00000102#32 = .ok (.line .b) ∧
  decode 0x00000003#32 = .ok (.linePolar .a) ∧
  decode 0x00000204#32 = .ok (.circle .a true) ∧
  decode 0x00000305#32 = .ok (.box .b true) ∧
  decode 0x00000006#32 = .ok (.combineNormal .a) ∧
  decode 0x00000506#32 = .ok (.combineOr .b) ∧
  decode 0x00000906#32 = .ok (.combineAnd .b) ∧
  decode 0x00000D06#32 = .ok (.combineXor .b) ∧
  decode 0x00000107#32 = .ok (.pack .b) ∧
  decode 0x00000008#32 = .ok (.unpack .a) ∧
  decode 0x00000100#32 = .error .unusedFieldSet ∧
  decode 0x00000606#32 = .error .unusedFieldSet ∧
  decode 0x000000FF#32 = .error .opcodeUnassigned ∧
  decode 0x80000001#32 = .error .reservedBitSet

/-- R77, R78, R84: a word decodes to a command exactly when it is that command's word, so every command comes back from
its word, with its P and F at either value, and every legal word has one meaning. -/
def Obligations.LegalWordIsEncodingOfItsCommand : Prop :=
  ∀ (v : Word) (i : Instr), decode v = .ok i ↔ encode i = v

/-- R81: the words that no row matches, by their fields; issuing one while idle raises ILLEGAL_CMD and changes nothing
but ERR and ERRCODE. -/
def Obligations.IllegalWordsAreExactlyR81 : Prop :=
  ∀ v : Word,
    ((∀ row ∈ opcodeTable, v &&& row.mask ≠ row.pattern) ↔
      (9 ≤ (v.extractLsb' 0 8).toNat ∨ v.extractLsb' 12 20 ≠ 0#20 ∨
        ((v.extractLsb' 0 8).toNat = 0 ∧ v.getLsbD 8 = true) ∨
        ((v.extractLsb' 0 8).toNat ≠ 4 ∧ (v.extractLsb' 0 8).toNat ≠ 5 ∧ v.getLsbD 9 = true) ∨
        ((v.extractLsb' 0 8).toNat ≠ 6 ∧ v.extractLsb' 10 2 ≠ 0#2))) ∧
    ((∀ row ∈ opcodeTable, v &&& row.mask ≠ row.pattern) ↔ ∀ i, decode v ≠ .ok i) ∧
    ((∀ row ∈ opcodeTable, v &&& row.mask ≠ row.pattern) → ∀ s : State, s.status.busy = false →
      hostAct (.write s.params.base 4 v) s = .next { s with status := rejectedStatus .illegalCmd s.status })

/-- R84: the match/mask pairs are pairwise disjoint. -/
def Obligations.OpcodeRowsDisjoint : Prop :=
  opcodeTable.Pairwise (fun r q => ∀ v : Word, ¬ (v &&& r.mask = r.pattern ∧ v &&& q.mask = q.pattern))

/-! ### Steps -/

/-- R94: while BUSY = 1 and the engine moves, a step is exec of the command that the latched word decodes to. That the
list `turns` names the mover, and that the engine moves when it names none, are the model's choices (log 2): R63 and
R214 leave open how many host accesses come first. -/
def Obligations.StepRunsLatchedCommand : Prop :=
  ∀ (s : State) (i : Instr), s.status.busy = true → decode s.latched.cmd = .ok i → instrWellFormed i = true →
    (∀ rest, s.turns = .engine :: rest → step s = exec i { s with turns := rest }) ∧
    (s.turns = [] → step s = exec i s)

/-- R18, R63, R207: when the host moves, a step is its oldest pending action; with none pending, or when the engine is
to move while BUSY = 0, nothing happens. That the actions and the order of moves stand in lists of State, and that the
engine moves first when no order is named, are the model's choices (log 1, log 2). -/
def Obligations.StepPerformsOldestHostAction : Prop :=
  ∀ (s : State),
    (∀ rest a acts, s.turns = .host :: rest → s.host = a :: acts →
      step s = hostAct a { s with turns := rest, host := acts }) ∧
    (∀ a acts, s.turns = [] → s.status.busy = false → s.host = a :: acts → step s = hostAct a { s with host := acts }) ∧
    (∀ rest, s.turns = .host :: rest → s.host = [] → step s = .next { s with turns := rest }) ∧
    (∀ rest, s.turns = .engine :: rest → s.status.busy = false → step s = .next { s with turns := rest }) ∧
    (s.turns = [] → s.status.busy = false → s.host = [] → step s = .next s)

/-! ### Issue and STATUS -/

/-- R91, R189, R190: a write to CMD runs its checks in order. While BUSY = 1 it is rejected with CMD_WHILE_BUSY whatever
the word; an illegal word with ILLEGAL_CMD; a legal one of any command but NOP and CLEAR whose BM_W or BM_H is out of
range with INVALID_ARG; a rejection changes only ERR and ERRCODE. Every other write is accepted, whatever the ARG
values: L gets the word, the dimensions and the operands, DONE is cleared, BUSY is set, and nothing else changes. -/
def Obligations.IssueRunsItsChecksInOrder : Prop :=
  ∀ (s : State) (v : Word),
    (s.status.busy = true →
      hostAct (.write s.params.base 4 v) s = .next { s with status := rejectedStatus .cmdWhileBusy s.status }) ∧
    (s.status.busy = false → (∀ i, decode v ≠ .ok i) →
      hostAct (.write s.params.base 4 v) s = .next { s with status := rejectedStatus .illegalCmd s.status }) ∧
    (∀ i, s.status.busy = false → decode v = .ok i → i ≠ .nop → (∀ p, i ≠ .clear p) →
      ¬ (1 ≤ s.bmW.toNat ∧ s.bmW.toNat ≤ s.params.maxW ∧ 1 ≤ s.bmH.toNat ∧ s.bmH.toNat ≤ s.params.maxH) →
      hostAct (.write s.params.base 4 v) s = .next { s with status := rejectedStatus .invalidArg s.status }) ∧
    (∀ i, s.status.busy = false → decode v = .ok i →
      (i = .nop ∨ (∃ p, i = .clear p) ∨
        1 ≤ s.bmW.toNat ∧ s.bmW.toNat ≤ s.params.maxW ∧ 1 ≤ s.bmH.toNat ∧ s.bmH.toNat ≤ s.params.maxH) →
      hostAct (.write s.params.base 4 v) s =
        .next { s with
          latched := { cmd := v, w := s.bmW, h := s.bmH, args := s.args },
          status := { busy := true, done := false, err := s.status.err, errCode := s.status.errCode } })

/-- R24, R187: what a host read of STATUS returns, bit by bit; it changes nothing of the block. -/
def Obligations.StatusReadLayout : Prop :=
  ∀ s : State, ∃ w : Word,
    hostAct (.read (s.params.base + 0x004) 4) s = .next { s with observed := .value w :: s.observed } ∧
    w.getLsbD 0 = s.status.busy ∧ w.getLsbD 1 = s.status.done ∧ w.getLsbD 2 = s.status.err ∧ w.getLsbD 3 = false ∧
    w.extractLsb' 4 4 =
      (match s.status.errCode with
       | .none => 0#4 | .illegalCmd => 1#4 | .invalidArg => 2#4 | .cmdWhileBusy => 3#4 | .busyAccess => 4#4) ∧
    w.extractLsb' 8 24 = 0#24

/-- R28: a host write to STATUS, at any time. -/
def Obligations.StatusWriteClearsByOnes : Prop :=
  ∀ (s : State) (v : Word),
    hostAct (.write (s.params.base + 0x004) 4 v) s =
      .next { s with status :=
        { busy := s.status.busy,
          done := s.status.done && !v.getLsbD 1,
          err := s.status.err && !v.getLsbD 2,
          errCode := if v.getLsbD 2 then .none else s.status.errCode } }

/-! ### Registers -/

/-- R29, R30, R31: a write to BM_W, BM_H or an ARG register keeps the low 16 bits there and changes nothing else, at
any time. -/
def Obligations.RegisterWritesKeepLowHalf : Prop :=
  ∀ (s : State) (v : Word),
    hostAct (.write (s.params.base + 0x008) 4 v) s = .next { s with bmW := v.extractLsb' 0 16 } ∧
    hostAct (.write (s.params.base + 0x00C) 4 v) s = .next { s with bmH := v.extractLsb' 0 16 } ∧
    hostAct (.write (s.params.base + 0x010) 4 v) s = .next { s with args := { s.args with arg0 := v.extractLsb' 0 16 } } ∧
    hostAct (.write (s.params.base + 0x014) 4 v) s = .next { s with args := { s.args with arg1 := v.extractLsb' 0 16 } } ∧
    hostAct (.write (s.params.base + 0x018) 4 v) s = .next { s with args := { s.args with arg2 := v.extractLsb' 0 16 } } ∧
    hostAct (.write (s.params.base + 0x01C) 4 v) s = .next { s with args := { s.args with arg3 := v.extractLsb' 0 16 } } ∧
    hostAct (.write (s.params.base + 0x020) 4 v) s = .next { s with args := { s.args with arg4 := v.extractLsb' 0 16 } }

/-- R23, R29 to R32: a host read of CMD returns 0, one of BM_W, BM_H, an ARG register or PACK_LEN its value
zero-extended, at any time; none of them changes the block. -/
def Obligations.RegisterReadsZeroExtend : Prop :=
  ∀ (s : State) (off : Nat) (h : Half),
    ((off = 0x008 ∧ h = s.bmW) ∨ (off = 0x00C ∧ h = s.bmH) ∨ (off = 0x010 ∧ h = s.args.arg0) ∨
      (off = 0x014 ∧ h = s.args.arg1) ∨ (off = 0x018 ∧ h = s.args.arg2) ∨ (off = 0x01C ∧ h = s.args.arg3) ∨
      (off = 0x020 ∧ h = s.args.arg4) ∨ (off = 0x024 ∧ h = s.packLen) ∨ (off = 0x000 ∧ h = 0#16)) →
    ∃ w : Word, w.toNat = h.toNat ∧
      hostAct (.read (s.params.base + off) 4) s = .next { s with observed := .value w :: s.observed }

/-- R33, R34: CAPS reads {MAX_H, MAX_W} and the reserved offsets 0x02C to 0xFFC read 0, at any time, without error; both
ignore writes, at any time, without error. With the default parameters CAPS reads 0x0020_0100. -/
def Obligations.CapsAndReservedOffsets : Prop :=
  (∀ (s : State) (v : Word) (off : Nat), 0x028 ≤ off → off ≤ 0xFFC → off % 4 = 0 → ∃ w : Word,
    hostAct (.read (s.params.base + off) 4) s = .next { s with observed := .value w :: s.observed } ∧
    (off = 0x028 → w.extractLsb' 0 16 = BitVec.ofNat 16 s.params.maxW ∧
      w.extractLsb' 16 16 = BitVec.ofNat 16 s.params.maxH ∧ (s.params = Params.default → w = 0x00200100#32)) ∧
    (0x02C ≤ off → w = 0#32) ∧
    hostAct (.write (s.params.base + off) 4 v) s = .next s)

/-- R32: PACK_LEN ignores host writes, at any time. -/
def Obligations.PackLenIgnoresHostWrites : Prop :=
  ∀ (s : State) (v : Word), hostAct (.write (s.params.base + 0x024) 4 v) s = .next s

/-- R51, R58, R61: an access that is not 32 bits wide, not aligned or not in the block's window does not exist at this
interface; the model's choice is to refuse it, under a name of its own for each (log 9). -/
def Obligations.NonexistentAccessesHaveNoStep : Prop :=
  ∀ (s : State) (addr size : Nat) (v : Word),
    ((addr < s.params.base ∨ s.params.base + 0x4000 ≤ addr) →
      hostAct (.read addr size) s = .refused .outsideBlock ∧ hostAct (.write addr size v) s = .refused .outsideBlock) ∧
    (s.params.base ≤ addr → addr < s.params.base + 0x4000 → size ≠ 4 →
      hostAct (.read addr size) s = .refused .subWordAccess ∧ hostAct (.write addr size v) s = .refused .subWordAccess) ∧
    (s.params.base ≤ addr → addr < s.params.base + 0x4000 → size = 4 → (addr - s.params.base) % 4 ≠ 0 →
      hostAct (.read addr size) s = .refused .unalignedAccess ∧
      hostAct (.write addr size v) s = .refused .unalignedAccess)

/-! ### Windows -/

/-- R53: the layout of a backed plane-window word, while idle. A read gathers the pixels of row k div RW from column
32·(k mod RW) on, the lowest column in bit 0, and faults when one of them holds no value (I1); a write sets those 32
pixels to the word's bits and changes nothing else of the plane or of the state. -/
def Obligations.PlaneWindowWordLayout : Prop :=
  ∀ (s : State) (p : Plane) (k : Nat), s.params.wellFormed = true → s.status.busy = false →
    k < s.params.maxW * s.params.maxH / 32 →
    let y := k / (s.params.maxW / 32)
    let x0 := 32 * (k % (s.params.maxW / 32))
    let addr := s.params.base + (match p with | .a => 0x1000 | .b => 0x2000) + 4 * k
    (∀ w : Word, (∀ b < 32, readPixel s p (x0 + b) y = some (w.getLsbD b)) →
      hostAct (.read addr 4) s = .next { s with observed := .value w :: s.observed }) ∧
    ((∃ b < 32, readPixel s p (x0 + b) y = none) → hostAct (.read addr 4) s = .fault .unspecifiedPlaneWord) ∧
    (∀ v : Word, memoryWf (planeOf s p) = true →
      ∃ m : Memory, hostAct (.write addr 4 v) s = .next (setPlane s p m) ∧
        (∀ b < 32, cellAt m (pixelKey s.params (x0 + b) y) = some (bitCell (v.getLsbD b))) ∧
        (∀ a : Nat, (∀ b < 32, a ≠ pixelKey s.params (x0 + b) y) → cellAt m a = cellAt (planeOf s p) a))

/-- R55: the layout of a backed PACKBUF word, while idle. A read gives its four bytes in little-endian lanes, and faults
when one of them holds no value (I2); a write stores lane i at byte 4k + i and changes nothing else. That the backed
words are all those that hold PackBuf's MAX_W·MAX_H / 8 bytes is the model's reading (log 20). -/
def Obligations.PackWindowWordLayout : Prop :=
  ∀ (s : State) (k : Nat), s.params.wellFormed = true → s.status.busy = false → k < s.params.maxW * s.params.maxH / 32 →
    let addr := s.params.base + 0x3000 + 4 * k
    (∀ b0 b1 b2 b3 : Byte, readPackByte s (4 * k) = some b0 → readPackByte s (4 * k + 1) = some b1 →
      readPackByte s (4 * k + 2) = some b2 → readPackByte s (4 * k + 3) = some b3 →
      hostAct (.read addr 4) s = .next { s with observed := .value (b3 ++ b2 ++ b1 ++ b0) :: s.observed }) ∧
    ((∃ i < 4, readPackByte s (4 * k + i) = none) → hostAct (.read addr 4) s = .fault .unspecifiedPackWord) ∧
    (∀ v : Word, memoryWf s.packBuf = true →
      ∃ m : Memory, hostAct (.write addr 4 v) s = .next { s with packBuf := m } ∧
        (∀ i < 4, cellAt m (4 * k + i) = some (v.extractLsb' (8 * i) 8)) ∧
        (∀ j : Nat, (∀ i < 4, j ≠ 4 * k + i) → cellAt m j = cellAt s.packBuf j))

/-- R53, R55: a window word written while idle reads back as written, in either plane and in PackBuf, whose window backs
every one of its bytes by the model's reading (log 20). -/
def Obligations.WindowWordReadsBackAsWritten : Prop :=
  ∀ (s t : State) (off : Nat) (v : Word), s.params.wellFormed = true → memoriesOk s = true → s.status.busy = false →
    off % 4 = 0 →
    (0x1000 ≤ off ∧ off < 0x1000 + s.params.maxW * s.params.maxH / 8 ∨
      0x2000 ≤ off ∧ off < 0x2000 + s.params.maxW * s.params.maxH / 8 ∨
      0x3000 ≤ off ∧ off < 0x3000 + s.params.maxW * s.params.maxH / 8) →
    hostAct (.write (s.params.base + off) 4 v) s = .next t →
    hostAct (.read (s.params.base + off) 4) t = .next { t with observed := .value v :: t.observed }

/-- R54: a window word beyond the backed size reads 0 and ignores writes, without error, while idle; while BUSY = 1 it is
rejected like any other window word. For PackBuf's window the backed size is the model's reading, PackBuf's own size
(log 20). -/
def Obligations.UnbackedWordsReadZero : Prop :=
  ∀ (s : State) (wb k : Nat) (v : Word), k < 1024 →
    (wb = 0x1000 ∨ wb = 0x2000 ∨ wb = 0x3000) → s.params.maxW * s.params.maxH / 32 ≤ k →
    (s.status.busy = false →
      hostAct (.read (s.params.base + wb + 4 * k) 4) s = .next { s with observed := .value 0#32 :: s.observed } ∧
      hostAct (.write (s.params.base + wb + 4 * k) 4 v) s = .next s) ∧
    (s.status.busy = true →
      hostAct (.read (s.params.base + wb + 4 * k) 4) s =
        .next { s with status := rejectedStatus .busyAccess s.status, observed := .value 0#32 :: s.observed } ∧
      hostAct (.write (s.params.base + wb + 4 * k) 4 v) s =
        .next { s with status := rejectedStatus .busyAccess s.status })

/-- R60, R191: while BUSY = 1 a read of any window word, backed or not, returns 0, a write is dropped, both raise
BUSY_ACCESS, and nothing else changes: the command in flight is unaffected. -/
def Obligations.BusyWindowAccessIsRejected : Prop :=
  ∀ (s : State) (off : Nat) (v : Word), s.status.busy = true → 0x1000 ≤ off → off ≤ 0x3FFC → off % 4 = 0 →
    hostAct (.read (s.params.base + off) 4) s =
      .next { s with status := rejectedStatus .busyAccess s.status, observed := .value 0#32 :: s.observed } ∧
    hostAct (.write (s.params.base + off) 4 v) s = .next { s with status := rejectedStatus .busyAccess s.status }

/-! ### Completions: what each command does, and that it does nothing else -/

/-- R90, R95, R96: NOP's completion writes STATUS alone; CLEAR's makes every bit of the whole plane P 0, in every state
and for every BM_W and BM_H, and changes nothing else but STATUS. -/
def Obligations.NopAndClearComplete : Prop :=
  ∀ (p : Plane) (s : State),
    exec .nop s = .next { s with status := completedStatus s.status } ∧
    ∃ m : Memory, exec (.clear p) s = .next { setPlane s p m with status := completedStatus s.status } ∧
      (∀ x y, x < s.params.maxW → y < s.params.maxH → cellAt m (pixelKey s.params x y) = some 0#8) ∧
      (∀ a, s.params.maxW * s.params.maxH ≤ a → cellAt m a = none)

/-- R115: LINE plots the pixels of LinePixels between its two signed endpoints. -/
def Obligations.LinePlotsSegment : Prop :=
  ∀ (p : Plane) (s : State), areaOk s = true → memoryWf (planeOf s p) = true →
    CompletesPlotting (.line p) p
      (fun x y => (x, y) ∈ linePixels s.latched.args.arg0.toInt s.latched.args.arg1.toInt
        s.latched.args.arg2.toInt s.latched.args.arg3.toInt) s

/-- R119: LINE_POLAR plots the pixels of LinePixels from its origin to the polar endpoint. -/
def Obligations.LinePolarPlotsSegmentToEndpoint : Prop :=
  ∀ (p : Plane) (s : State), areaOk s = true → memoryWf (planeOf s p) = true →
    CompletesPlotting (.linePolar p) p
      (fun x y => (x, y) ∈ linePixels s.latched.args.arg0.toInt s.latched.args.arg1.toInt
        (s.latched.args.arg0.toInt + polarDx s.latched.args.arg2.toInt s.latched.args.arg3.toNat)
        (s.latched.args.arg1.toInt - polarDy s.latched.args.arg2.toInt s.latched.args.arg3.toNat)) s

/-- R120: with length 0, LINE_POLAR plots exactly the origin, whatever the angle. -/
def Obligations.ZeroLengthPolarLinePlotsOrigin : Prop :=
  ∀ (p : Plane) (s : State), areaOk s = true → memoryWf (planeOf s p) = true → s.latched.args.arg3 = 0#16 →
    CompletesPlotting (.linePolar p) p
      (fun x y => x = s.latched.args.arg0.toInt ∧ y = s.latched.args.arg1.toInt) s

/-- R132, R134: CIRCLE with F = 0 plots the eight images of every octant pair about the centre. -/
def Obligations.CircleOutlinePlotsEightImages : Prop :=
  ∀ (p : Plane) (s : State), areaOk s = true → memoryWf (planeOf s p) = true →
    let cx := s.latched.args.arg0.toInt
    let cy := s.latched.args.arg1.toInt
    CompletesPlotting (.circle p false) p
      (fun x y => ∃ a b, (a, b) ∈ octantPairs s.latched.args.arg2.toNat ∧
        ((x = cx + a ∨ x = cx - a) ∧ (y = cy + b ∨ y = cy - b) ∨
         (x = cx + b ∨ x = cx - b) ∧ (y = cy + a ∨ y = cy - a))) s

/-- R133, R134: CIRCLE with F = 1 plots the four spans of every octant pair; the outline adds nothing to them. -/
def Obligations.CircleFilledPlotsSpans : Prop :=
  ∀ (p : Plane) (s : State), areaOk s = true → memoryWf (planeOf s p) = true →
    let cx := s.latched.args.arg0.toInt
    let cy := s.latched.args.arg1.toInt
    CompletesPlotting (.circle p true) p
      (fun x y => ∃ a b, (a, b) ∈ octantPairs s.latched.args.arg2.toNat ∧
        ((y = cy + b ∨ y = cy - b) ∧ cx - a ≤ x ∧ x ≤ cx + a ∨
         (y = cy + a ∨ y = cy - a) ∧ cx - b ≤ x ∧ x ≤ cx + b)) s

/-- R145, R147 to R149, R151: BOX with F = 0 plots the outline pixels, and nothing when w = 0 or h = 0. -/
def Obligations.BoxOutlinePlotsEdgesAndArcs : Prop :=
  ∀ (p : Plane) (s : State), areaOk s = true → memoryWf (planeOf s p) = true →
    let x0 := s.latched.args.arg0.toInt
    let y0 := s.latched.args.arg1.toInt
    let w := s.latched.args.arg2.toNat
    let h := s.latched.args.arg3.toNat
    let re : Int := (min s.latched.args.arg4.toNat (min ((w - 1) / 2) ((h - 1) / 2)) : Nat)
    let x1 := x0 + w - 1
    let y1 := y0 + h - 1
    CompletesPlotting (.box p false) p
      (fun x y => 1 ≤ w ∧ 1 ≤ h ∧
        ((re = 0 ∧ x0 ≤ x ∧ x ≤ x1 ∧ y0 ≤ y ∧ y ≤ y1 ∧ (x = x0 ∨ x = x1 ∨ y = y0 ∨ y = y1)) ∨
         (0 < re ∧ (y = y0 ∨ y = y1) ∧ x0 + re ≤ x ∧ x ≤ x1 - re) ∨
         (0 < re ∧ (x = x0 ∨ x = x1) ∧ y0 + re ≤ y ∧ y ≤ y1 - re) ∨
         (0 < re ∧ ∃ a b, ((a, b) ∈ octantPairs re.toNat ∨ (b, a) ∈ octantPairs re.toNat) ∧
            (x = x0 + re - a ∨ x = x1 - re + a) ∧ (y = y0 + re - b ∨ y = y1 - re + b)))) s

/-- R150, R151, R153: BOX with F = 1 fills each row y … y1 between the leftmost and the rightmost pixel of the
unclipped outline in that row. -/
def Obligations.BoxFilledPlotsRowsOfOutline : Prop :=
  ∀ (p : Plane) (s : State), areaOk s = true → memoryWf (planeOf s p) = true →
    let x0 := s.latched.args.arg0.toInt
    let y0 := s.latched.args.arg1.toInt
    let w := s.latched.args.arg2.toNat
    let h := s.latched.args.arg3.toNat
    let outline := boxOutlinePixels x0 y0 w h s.latched.args.arg4.toNat
    CompletesPlotting (.box p true) p
      (fun x y => 1 ≤ w ∧ 1 ≤ h ∧ y0 ≤ y ∧ y ≤ y0 + h - 1 ∧
        ∃ u v, (u, y) ∈ outline ∧ (v, y) ∈ outline ∧ u ≤ x ∧ x ≤ v) s

/-- R160 to R164: the four COMBINE commands, over the active area; NORMAL does not read dst. -/
def Obligations.CombineAppliesModeToActiveArea : Prop :=
  ∀ (p : Plane) (s : State), areaOk s = true → memoryWf (planeOf s p) = true →
    CompletesCombining (.combineNormal p) p (fun _ src => src) false s ∧
    CompletesCombining (.combineOr p) p (fun dst src => dst || src) true s ∧
    CompletesCombining (.combineAnd p) p (fun dst src => dst && src) true s ∧
    CompletesCombining (.combineXor p) p (fun dst src => dst ^^ src) true s

/-- I1, D45: a COMBINE that meets an UNSPECIFIED bit of src, or of dst for OR, AND and XOR, in the active area stops by
name. -/
def Obligations.CombineStopsOnUnspecifiedPixel : Prop :=
  ∀ (p : Plane) (s : State), areaOk s = true →
    ((∃ x y, InArea s x y ∧ readPixel s p.other x y = none) →
      exec (.combineNormal p) s = .fault .unspecifiedSourcePixel ∧
      exec (.combineOr p) s = .fault .unspecifiedSourcePixel ∧
      exec (.combineAnd p) s = .fault .unspecifiedSourcePixel ∧
      exec (.combineXor p) s = .fault .unspecifiedSourcePixel) ∧
    ((∀ x y, InArea s x y → readPixel s p.other x y ≠ none) → (∃ x y, InArea s x y ∧ readPixel s p x y = none) →
      exec (.combineOr p) s = .fault .unspecifiedDestPixel ∧
      exec (.combineAnd p) s = .fault .unspecifiedDestPixel ∧
      exec (.combineXor p) s = .fault .unspecifiedDestPixel)

/-- R171, R172, R175: PACK writes byte c·G + g from column c's group g, its bit 7-k the pixel (c, 8g + k) or 0 in the
padding rows, leaves the bytes from N on, sets PACK_LEN = W·G, and changes nothing else but STATUS. -/
def Obligations.PackWritesColumnMajorBytes : Prop :=
  ∀ (p : Plane) (s : State), areaOk s = true → memoryWf s.packBuf = true →
    (∀ x y, InArea s x y → ∃ b, readPixel s p x y = some b) →
    let W := s.latched.w.toNat
    let H := s.latched.h.toNat
    let G := (H + 7) / 8
    ∃ m : Memory,
      exec (.pack p) s = .next { s with
        packBuf := m, packLen := BitVec.ofNat 16 (W * G), status := completedStatus s.status } ∧
      (∀ c g, c < W → g < G → ∃ v : Byte, cellAt m (c * G + g) = some v ∧
        ∀ k < 8, (v.getLsbD (7 - k) = true ↔ 8 * g + k < H ∧ readPixel s p c (8 * g + k) = some true)) ∧
      (∀ j, W * G ≤ j → cellAt m j = cellAt s.packBuf j)

/-- R173, R175: UNPACK writes rows 0 … 8G-1 of columns 0 … W-1 of plane P, pixel (c, 8g + k) from bit 7-k of byte
c·G + g, sets PACK_LEN = W·G, and changes nothing else but STATUS; PackBuf is only read. -/
def Obligations.UnpackWritesColumnsWithPadding : Prop :=
  ∀ (p : Plane) (s : State), areaOk s = true → memoryWf (planeOf s p) = true →
    let W := s.latched.w.toNat
    let G := (s.latched.h.toNat + 7) / 8
    (∀ j, j < W * G → ∃ v, readPackByte s j = some v) →
    ∃ m : Memory,
      exec (.unpack p) s = .next { setPlane s p m with
        packLen := BitVec.ofNat 16 (W * G), status := completedStatus s.status } ∧
      (∀ c g k v, c < W → g < G → k < 8 → readPackByte s (c * G + g) = some v →
        cellAt m (pixelKey s.params c (8 * g + k)) = some (bitCell (v.getLsbD (7 - k)))) ∧
      (∀ a : Nat, (∀ c r, c < W → r < 8 * G → a ≠ pixelKey s.params c r) → cellAt m a = cellAt (planeOf s p) a)

/-- I1, I2, D45: PACK stops by name on an UNSPECIFIED bit of the active area, UNPACK on an UNSPECIFIED byte of the
packed length. -/
def Obligations.PackAndUnpackStopOnUnspecified : Prop :=
  ∀ (p : Plane) (s : State), areaOk s = true →
    ((∃ x y, InArea s x y ∧ readPixel s p x y = none) → exec (.pack p) s = .fault .unspecifiedPackedPixel) ∧
    ((∃ j, j < s.latched.w.toNat * ((s.latched.h.toNat + 7) / 8) ∧ readPackByte s j = none) →
      exec (.unpack p) s = .fault .unspecifiedPackByte)

/-! ### The shapes -/

/-- R113: the sequence of LinePixels starts at its first point, ends at its last, has max(|dx|, |dy|) + 1 distinct
pixels, moves by at most 1 in each coordinate and never stands still, moves x only toward x1 and y only toward y1,
advances by 1 at every step on the major axis, is the whole segment when axis-aligned, and is one pixel when the two
points are equal. -/
def Obligations.LinePixelsShape : Prop :=
  ∀ x0 y0 x1 y1 : Int,
    let ps := linePixels x0 y0 x1 y1
    ps.head? = some (x0, y0) ∧ ps.getLast? = some (x1, y1) ∧
    ps.length = max (x1 - x0).natAbs (y1 - y0).natAbs + 1 ∧ ps.Nodup ∧
    ps.IsChain (fun p q =>
      p ≠ q ∧ (q.1 = p.1 ∨ q.1 = p.1 + (x1 - x0).sign) ∧ (q.2 = p.2 ∨ q.2 = p.2 + (y1 - y0).sign) ∧
      (if (y1 - y0).natAbs ≤ (x1 - x0).natAbs then q.1 ≠ p.1 else q.2 ≠ p.2)) ∧
    (y0 = y1 → ∀ x y, (x, y) ∈ ps ↔ y = y0 ∧ min x0 x1 ≤ x ∧ x ≤ max x0 x1) ∧
    (x0 = x1 → ∀ x y, (x, y) ∈ ps ↔ x = x0 ∧ min y0 y1 ≤ y ∧ y ≤ max y0 y1) ∧
    (x0 = x1 → y0 = y1 → ps = [(x0, y0)])

/-- R14, R116: the polar endpoint's offsets are the exact real products length · cos and length · sin of the angle in
degrees, rounded to the nearest integer with halves to even, for every angle and every length that ARG3 can hold. -/
def Obligations.PolarEndpointIsExact : Prop :=
  ∀ (x y angle : Int) (length : Nat), length < 65536 →
    IsRoundHalfEven (length * Real.cos (angle * Real.pi / 180)) ((polarEndpoint x y angle length).1 - x) ∧
    IsRoundHalfEven (length * Real.sin (angle * Real.pi / 180)) (y - (polarEndpoint x y angle length).2)

/-- R117: the laws of PolarEndpoint, (a) to (g). -/
def Obligations.PolarOffsetLaws : Prop :=
  ∀ (angle : Int) (n : Nat),
    (polarDx (angle % 360) n = polarDx angle n ∧ polarDy (angle % 360) n = polarDy angle n) ∧
    (polarDx 0 n = n ∧ polarDy 0 n = 0) ∧ (polarDx 90 n = 0 ∧ polarDy 90 n = n) ∧
    (polarDx 180 n = -n ∧ polarDy 180 n = 0) ∧ (polarDx 270 n = 0 ∧ polarDy 270 n = -n) ∧
    ((polarDx angle n).natAbs ≤ n ∧ (polarDy angle n).natAbs ≤ n) ∧
    (polarDx (360 - angle) n = polarDx angle n ∧ polarDy (360 - angle) n = -polarDy angle n) ∧
    (polarDx (angle + 180) n = -polarDx angle n ∧ polarDy (angle + 180) n = -polarDy angle n) ∧
    polarDx (90 - angle) n = polarDy angle n ∧
    (polarDx angle 0 = 0 ∧ polarDy angle 0 = 0)

/-- R135, R136: the outline lies in the filled set; for r ≥ 1 the centre is in the filled set and not in the outline;
for r = 0 the only octant pair is (0, 0) and both sets are the centre alone. -/
def Obligations.CircleOutlineInsideFilled : Prop :=
  ∀ (cx cy : Int) (r : Nat),
    (∀ x y, inSet (circleOutline cx cy r) x y = true → inSet (circleFilled cx cy r) x y = true) ∧
    (1 ≤ r → inSet (circleFilled cx cy r) cx cy = true ∧ inSet (circleOutline cx cy r) cx cy = false) ∧
    (r = 0 → octantPairs r = [(0, 0)] ∧ ∀ x y, (inSet (circleOutline cx cy r) x y = true ↔ x = cx ∧ y = cy) ∧
      (inSet (circleFilled cx cy r) x y = true ↔ x = cx ∧ y = cy))

/-- R150: every row y … y1 of a nonempty box holds an outline pixel, every outline pixel lies in the box, and the
outline lies in the filled set. -/
def Obligations.BoxOutlineMeetsEveryRow : Prop :=
  ∀ (x y : Int) (w h radius : Nat), 1 ≤ w → 1 ≤ h →
    (∀ row, y ≤ row → row ≤ y + h - 1 → ∃ u, (u, row) ∈ boxOutlinePixels x y w h radius) ∧
    (∀ u row, (u, row) ∈ boxOutlinePixels x y w h radius → x ≤ u ∧ u ≤ x + w - 1 ∧ y ≤ row ∧ row ≤ y + h - 1) ∧
    (∀ u row, inSet (boxOutline x y w h radius) u row = true → inSet (boxFilled x y w h radius) u row = true)

/-- R152: for w ≥ 1 and h ≥ 1 and an effective radius of 0, the outline has the pixels of the four LINE_POLAR draws
along its edges. -/
def Obligations.SquareBoxIsFourPolarLines : Prop :=
  ∀ (x y : Int) (w h radius : Nat), 1 ≤ w → 1 ≤ h → effectiveRadius w h radius = 0 →
    let x1 := x + w - 1
    let y1 := y + h - 1
    let polarLine := fun (ox oy angle : Int) (n : Nat) =>
      linePixels ox oy (polarEndpoint ox oy angle n).1 (polarEndpoint ox oy angle n).2
    ∀ a b, inSet (boxOutline x y w h radius) a b = true ↔
      ((a, b) ∈ polarLine x y 0 (w - 1) ∨ (a, b) ∈ polarLine x1 y 270 (h - 1) ∨
        (a, b) ∈ polarLine x1 y1 180 (w - 1) ∨ (a, b) ∈ polarLine x y1 90 (h - 1))

/-! ### Reset -/

/-- R41, R205, R206: the reset input puts every register at its reset value and the engine in IDLE, abandons a command
in flight, and leaves no bit of a plane and no byte of PackBuf with a value. That the parameters are data of the state
and stay across the reset is the model's choice (log 4, log 18). -/
def Obligations.ResetLeavesResetValues : Prop :=
  ∀ s : State, ∃ t : State, hostAct .reset s = .next t ∧
    t.status = { busy := false, done := false, err := false, errCode := .none } ∧
    t.bmW.toNat = min 140 s.params.maxW ∧ t.bmH.toNat = min 32 s.params.maxH ∧
    t.args = { arg0 := 0, arg1 := 0, arg2 := 0, arg3 := 0, arg4 := 0 } ∧ t.packLen = 0 ∧
    t.params = s.params ∧
    (∀ p a, cellAt (planeOf t p) a = none) ∧ (∀ j, readPackByte t j = none)

/-- R41: the state the machine starts in has the default parameters and the same values. -/
def Obligations.StartsInResetState : Prop :=
  State.reset.params.maxW = 256 ∧ State.reset.params.maxH = 32 ∧ State.reset.bmW = 140#16 ∧ State.reset.bmH = 32#16 ∧
  statusWord State.reset.status = 0#32 ∧ State.reset.packLen = 0#16 ∧ State.reset.args = Args.atReset ∧
  (∀ p x y, readPixel State.reset p x y = none) ∧ (∀ j, readPackByte State.reset j = none)

/-! ### Invariants and whole-machine rules -/

/-- The invariant holds at reset, for every legal value of the parameters. -/
def Obligations.InvHoldsAtReset : Prop :=
  StateInv State.reset = true ∧ ∀ p : Params, p.wellFormed = true → StateInv (State.resetWith p) = true

/-- Every step keeps the invariant: legal parameters, canonical memories of existing bits and bytes (R35, R37), BUSY
implies not DONE (R26), ERRCODE 0 exactly when ERR 0 (R24), a legal command with dimensions in range in flight (R91),
PACK_LEN within PackBuf (R32). That a memory is a list in canonical form is the model's choice (log 7). -/
def Obligations.InvKeptByEveryStep : Prop :=
  ∀ s t : State, StateInv s = true → step s = .next t → StateInv t = true

/-- R90, R176: under the invariant a step never stops for a reason of the block's own: it stops only on a host access
that does not exist or on a read of an UNSPECIFIED bit or byte. -/
def Obligations.StepsStopOnlyForTheHost : Prop :=
  ∀ s : State, StateInv s = true → safeStep s = true

/-- R90, R185: once accepted, a command completes at the engine's next move, whatever its operands, provided that the
bits and bytes it reads hold values; BUSY is then 0 and DONE 1. That the engine moves next when no order is named (log 2)
and that no command hangs (log 14) are the model's choices. -/
def Obligations.AcceptedCommandCompletes : Prop :=
  ∀ (s : State) (i : Instr), StateInv s = true → s.status.busy = true →
    (s.turns = [] ∨ ∃ rest, s.turns = .engine :: rest) → decode s.latched.cmd = .ok i → ReadsSpecified s i →
    ∃ t, step s = .next t ∧ t.status = completedStatus s.status

/-- R25, R26: BUSY rises only when the host writes a legal word to CMD, and falls only by a completion, which sets
DONE, or by reset, which clears it. -/
def Obligations.BusyHasTwoWritersAndReset : Prop :=
  ∀ s t : State, step s = .next t →
    (s.status.busy = false → t.status.busy = true →
      ∃ v i rest, s.host = .write s.params.base 4 v :: rest ∧ decode v = .ok i ∧ t.latched.cmd = v ∧
        t.status.done = false) ∧
    (s.status.busy = true → t.status.busy = false →
      (∃ i, decode s.latched.cmd = .ok i ∧ t.status = completedStatus s.status ∧ t.host = s.host) ∨
      (∃ rest, s.host = .reset :: rest ∧ t.status = Status.atReset))

/-- R38, R92: L is written only by the acceptance of a command, which makes BUSY rise, and by reset, which leaves it
unspecified: that the model writes it then is its own choice (log 5). -/
def Obligations.LatchWrittenOnlyByAcceptance : Prop :=
  ∀ s t : State, step s = .next t → t.latched ≠ s.latched →
    (s.status.busy = false ∧ t.status.busy = true ∧ t.latched.w = s.bmW ∧ t.latched.h = s.bmH ∧
      t.latched.args = s.args) ∨
    (∃ rest, s.host = .reset :: rest)

/-- R60, R190, R211: while BUSY = 1 no host action but reset changes the command in flight, the planes, PackBuf,
PACK_LEN, BUSY or DONE's being 0. -/
def Obligations.HostCannotDisturbCommandInFlight : Prop :=
  ∀ (s t : State) (a : HostAction), s.status.busy = true → s.status.done = false → a ≠ .reset →
    hostAct a s = .next t →
    t.latched = s.latched ∧ t.planeA = s.planeA ∧ t.planeB = s.planeB ∧ t.packBuf = s.packBuf ∧
    t.packLen = s.packLen ∧ t.status.busy = true ∧ t.status.done = false ∧ t.params = s.params

/-- R38, R92, R211: a completion reads only L, the planes and PackBuf: with other values in BM_W, BM_H, the ARG
registers, PACK_LEN and ERR it does the same to the planes and to PackBuf, or stops the same way. -/
def Obligations.EngineReadsOnlyLatchedOperands : Prop :=
  ∀ (i : Instr) (s : State) (w h n : Half) (args : Args) (e : Bool) (c : ErrCode),
    match exec i s, exec i { s with bmW := w, bmH := h, args := args, packLen := n,
                                    status := { s.status with err := e, errCode := c } } with
    | .next t, .next t' => t'.planeA = t.planeA ∧ t'.planeB = t.planeB ∧ t'.packBuf = t.packBuf ∧
        t'.bmW = w ∧ t'.bmH = h ∧ t'.args = args ∧ t'.status.err = e ∧ t'.status.errCode = c
    | .fault f, .fault f' => f' = f
    | _, _ => False

/-- R98: what a completion writes beyond STATUS, for every command, and that it writes nothing else. NOP writes nothing;
CLEAR writes plane P; LINE, LINE_POLAR, CIRCLE and BOX write bits of plane P inside the active area, each only to 1;
COMBINE writes bits of plane P inside the active area; PACK writes the first W·G bytes of PackBuf and PACK_LEN; UNPACK
writes columns 0 … W-1 of rows 0 … 8G-1 of plane P and PACK_LEN. -/
def Obligations.CompletionFrame : Prop :=
  ∀ (i : Instr) (s t : State), memoriesOk s = true → exec i s = .next t →
    let W := s.latched.w.toNat
    let G := (s.latched.h.toNat + 7) / 8
    (t.params = s.params ∧ t.bmW = s.bmW ∧ t.bmH = s.bmH ∧ t.args = s.args ∧ t.latched = s.latched ∧
      t.status = completedStatus s.status ∧ t.host = s.host ∧ t.turns = s.turns ∧ t.observed = s.observed) ∧
    (((∀ p, i ≠ .pack p) → t.packBuf = s.packBuf) ∧
      ∀ j, W * G ≤ j → readPackByte t j = readPackByte s j) ∧
    ((∀ p, i ≠ .pack p ∧ i ≠ .unpack p) → t.packLen = s.packLen) ∧
    ((i = .nop ∨ ∃ p, i = .pack p) → t.planeA = s.planeA ∧ t.planeB = s.planeB) ∧
    (∀ p, (i = .clear p ∨ i = .line p ∨ i = .linePolar p ∨ (∃ f, i = .circle p f) ∨ (∃ f, i = .box p f) ∨
      i = .combineNormal p ∨ i = .combineOr p ∨ i = .combineAnd p ∨ i = .combineXor p ∨ i = .unpack p) →
      planeOf t p.other = planeOf s p.other) ∧
    (∀ p, (i = .line p ∨ i = .linePolar p ∨ (∃ f, i = .circle p f) ∨ ∃ f, i = .box p f) →
      ∀ a, cellAt (planeOf t p) a = some 1#8 ∨ cellAt (planeOf t p) a = cellAt (planeOf s p) a) ∧
    (∀ p, (i = .line p ∨ i = .linePolar p ∨ (∃ f, i = .circle p f) ∨ (∃ f, i = .box p f) ∨
      i = .combineNormal p ∨ i = .combineOr p ∨ i = .combineAnd p ∨ i = .combineXor p) →
      ∀ x y, x < s.params.maxW → ¬ InArea s x y → readPixel t p x y = readPixel s p x y) ∧
    (∀ p, i = .unpack p →
      ∀ x y, x < s.params.maxW → ¬ (x < W ∧ y < 8 * G) → readPixel t p x y = readPixel s p x y)

/-- R175: the completion of PACK or UNPACK writes W·ceil8(H) to PACK_LEN, no other command's changes it, and its value
never exceeds MAX_W·MAX_H / 8. -/
def Obligations.PackLenIsPackedLength : Prop :=
  ∀ (i : Instr) (s t : State), s.params.wellFormed = true → exec i s = .next t →
    ((∃ p, i = .pack p ∨ i = .unpack p) →
      t.packLen.toNat = s.latched.w.toNat * ((s.latched.h.toNat + 7) / 8) ∧
      t.packLen.toNat ≤ s.params.maxW * s.params.maxH / 8) ∧
    ((∀ p, i ≠ .pack p ∧ i ≠ .unpack p) → t.packLen = s.packLen)

/-- R165: a second COMBINE.XOR with the same destination completes too and restores plane P exactly, when the planes and
the latched dimensions are the same at both. -/
def Obligations.XorTwiceRestoresPlane : Prop :=
  ∀ (p : Plane) (s t t' : State), memoriesOk s = true → exec (.combineXor p) s = .next t →
    t'.params = s.params → t'.planeA = t.planeA → t'.planeB = t.planeB →
    t'.latched.w = s.latched.w → t'.latched.h = s.latched.h →
    ∃ u, exec (.combineXor p) t' = .next u ∧ planeOf u p = planeOf s p

/-- R174: after a PACK of plane P, an UNPACK into plane Q with the same latched dimensions and PackBuf unchanged in
between completes; Q has the active area of P, zeros in the padding rows, and its other bits as they were. -/
def Obligations.UnpackAfterPackRestoresArea : Prop :=
  ∀ (p q : Plane) (s t t' : State), memoriesOk s = true → exec (.pack p) s = .next t →
    t'.params = s.params → t'.packBuf = t.packBuf → memoryWf (planeOf t' q) = true →
    t'.latched.w = s.latched.w → t'.latched.h = s.latched.h →
    let W := s.latched.w.toNat
    let H := s.latched.h.toNat
    ∃ u, exec (.unpack q) t' = .next u ∧
      (∀ c r, c < W → r < H → readPixel u q c r = readPixel s p c r) ∧
      (∀ c r, c < W → H ≤ r → r < 8 * ((H + 7) / 8) → readPixel u q c r = some false) ∧
      (∀ c r, c < s.params.maxW → (W ≤ c ∨ 8 * ((H + 7) / 8) ≤ r) → readPixel u q c r = readPixel t' q c r)

/-- R174: after an UNPACK into plane P, a PACK of plane P with the same latched dimensions and the plane unchanged in
between completes; byte c·G + g of PackBuf is what UNPACK read there, with the bits of the padding rows 0. -/
def Obligations.PackAfterUnpackClearsPadding : Prop :=
  ∀ (p : Plane) (s t t' : State), memoriesOk s = true → exec (.unpack p) s = .next t →
    t'.params = s.params → planeOf t' p = planeOf t p → memoryWf t'.packBuf = true →
    t'.latched.w = s.latched.w → t'.latched.h = s.latched.h →
    let W := s.latched.w.toNat
    let H := s.latched.h.toNat
    let G := (H + 7) / 8
    ∃ u, exec (.pack p) t' = .next u ∧
      ∀ c g, c < W → g < G → ∃ v v' : Byte, readPackByte s (c * G + g) = some v ∧ readPackByte u (c * G + g) = some v' ∧
        ∀ k < 8, v'.getLsbD (7 - k) = (v.getLsbD (7 - k) && decide (8 * g + k < H))

/-! ### The host's polling loops and programs -/

/-- R86: `wait` reads STATUS once a move and goes on while BUSY = 1; for n ≥ 1 `waitn n` gives up with a timeout after n
such reads; neither changes the block. That each loop is a host action of its own, and that `waitn 0` gives up at once
without a read, are the model's reading (log 17). -/
def Obligations.PollingLoopsOnlyRead : Prop :=
  ∀ (s : State) (n : Nat),
    let seen := Observation.value (statusWord s.status) :: s.observed
    (s.status.busy = false → hostAct .wait s = .next { s with observed := seen }) ∧
    (s.status.busy = true → hostAct .wait s = .next { s with observed := seen, host := .wait :: s.host }) ∧
    (s.status.busy = false → hostAct (.waitn (n + 1)) s = .next { s with observed := seen }) ∧
    (s.status.busy = true → hostAct (.waitn (n + 2)) s = .next { s with observed := seen, host := .waitn (n + 1) :: s.host }) ∧
    (s.status.busy = true → hostAct (.waitn 1) s = .next { s with observed := .timeout :: seen }) ∧
    hostAct (.waitn 0) s = .next { s with observed := .timeout :: s.observed }

/-! ### The shapes, pixel by pixel -/

/-- R112, R114: every pixel of the sequence of LinePixels. With M and m the greater and the lesser of |x1 - x0| and
|y1 - y0|, its k-th pixel stands k steps along the major axis and k·m / M steps, rounded to the nearest with halves
rounded up, along the other; the x axis is the major one when the two are equal, and for M = 0 the sequence is the one
pixel. Where k·m / M is halfway between two integers the step is taken at once, nearer the starting end, as R114's
segment and its reverse show. -/
def Obligations.LinePixelsAreNearestToSegment : Prop :=
  (∀ x0 y0 x1 y1 : Int,
    let dx := (x1 - x0).natAbs
    let dy := (y1 - y0).natAbs
    let M := max dx dy
    let m := min dx dy
    linePixels x0 y0 x1 y1 = (List.range (M + 1)).map (fun (k : Nat) =>
      let minor : Nat := (2 * k * m + M) / (2 * M)
      if dy ≤ dx then (x0 + (x1 - x0).sign * (k : Int), y0 + (y1 - y0).sign * (minor : Int))
      else (x0 + (x1 - x0).sign * (minor : Int), y0 + (y1 - y0).sign * (k : Int)))) ∧
  linePixels 0 0 4 2 = [(0, 0), (1, 1), (2, 1), (3, 2), (4, 2)] ∧
  linePixels 4 2 0 0 = [(4, 2), (3, 1), (2, 1), (1, 0), (0, 0)]

/-- R131: every pair of OctantPairs. The list has a running 0, 1, 2, …, and for r ≥ 1 it holds the pair (a, b) exactly
when 0 ≤ a ≤ b and a² + b² - b < r² ≤ a² + b² + b: b is the row that the decision variable chooses for a, and the list
goes on until the first a that exceeds it. For r = 0 it is the pair (0, 0) alone. -/
def Obligations.OctantPairsAreNearestToCircle : Prop :=
  octantPairs 0 = [(0, 0)] ∧
  ∀ r : Nat,
    (∃ n : Nat, (octantPairs r).map (fun ab => ab.1) = (List.range n).map (fun (k : Nat) => (k : Int))) ∧
    (1 ≤ r → ∀ a b : Int, (a, b) ∈ octantPairs r ↔
      0 ≤ a ∧ a ≤ b ∧ a * a + b * b - b < (r : Int) * r ∧ (r : Int) * r ≤ a * a + b * b + b)

/-! ### The packed image and the host -/

/-- R176: PackBuf has room for the packed image of every accepted PACK; its bytes beyond N are kept, and a UNPACK does
the same whatever they hold. After the PACK the host reads bytes 0 … N-1 from words 0 … ceil(N / 4) - 1, the last word
giving earlier contents beyond N, which must hold values (I2). That those words are all backed is the model's reading
(log 20). -/
def Obligations.HostReadsPackedImage : Prop :=
  ∀ (p : Plane) (s : State), s.params.wellFormed = true → memoryWf s.packBuf = true →
    let N := s.latched.w.toNat * ((s.latched.h.toNat + 7) / 8)
    (∀ t, exec (.pack p) s = .next t →
      N ≤ s.params.maxW * s.params.maxH / 8 ∧
      (∀ j, N ≤ j → readPackByte t j = readPackByte s j) ∧
      (∀ k, 4 * k < N → (∀ i < 4, N ≤ 4 * k + i → readPackByte s (4 * k + i) ≠ none) →
        ∃ v : Word,
          hostAct (.read (s.params.base + 0x3000 + 4 * k) 4) t = .next { t with observed := .value v :: t.observed } ∧
          ∀ i < 4, readPackByte t (4 * k + i) = some (v.extractLsb' (8 * i) 8))) ∧
    (∀ (t : State) (m : Memory), exec (.unpack p) s = .next t → (∀ j < N, cellAt m j = readPackByte s j) →
      exec (.unpack p) { s with packBuf := m } = .next { t with packBuf := m })
end

