-- ==== Sys2Proof/Laws/Memory.lean ====
section
/-! SUPPORT. The laws of a memory: a read after a write, canonical form kept by every operation, keys in range, cells
that are bits, and the extensionality of canonical memories. -/

namespace Sys2Proof.Machine

/-! ### Read after write -/

theorem cellAt_writeCell (m : Memory) (a b : Nat) (v : Byte) (hm : memoryWf m = true) :
    cellAt (writeCell m a v) b = if b = a then some v else cellAt m b := by
  induction m with
  | nil => simp [writeCell, cellAt]
  | cons c rest ih =>
    obtain ⟨k, w⟩ := c
    have hrest : memoryWf rest = true := by
      cases rest with
      | nil => rfl
      | cons d rest => simp only [memoryWf, Bool.and_eq_true] at hm; exact hm.2
    unfold writeCell
    by_cases hak : a = k
    · subst hak
      simp only [if_true, cellAt]
      split_ifs <;> rfl
    · by_cases hlt : a < k
      · simp only [if_neg hak, if_pos hlt, cellAt]
        split_ifs <;> first | rfl | omega
      · simp only [if_neg hak, if_neg hlt, cellAt, ih hrest]
        split_ifs <;> first | rfl | omega

/-! ### The canonical form -/

theorem memoryWf_tail {c : Host.Cell} {m : Memory} (h : memoryWf (c :: m) = true) : memoryWf m = true := by
  cases m with
  | nil => rfl
  | cons d rest => simp only [memoryWf, Bool.and_eq_true] at h; exact h.2

theorem memoryWf_head_lt {c : Host.Cell} {m : Memory} (h : memoryWf (c :: m) = true) : ∀ d ∈ m, c.1 < d.1 := by
  induction m generalizing c with
  | nil => intro d hd; cases hd
  | cons e rest ih =>
    simp only [memoryWf, Bool.and_eq_true, decide_eq_true_eq] at h
    intro d hd
    rcases List.mem_cons.mp hd with rfl | hd
    · exact h.1
    · exact lt_trans h.1 (ih h.2 d hd)

theorem memoryWf_cons {c : Host.Cell} {m : Memory} :
    memoryWf (c :: m) = true ↔ (∀ d ∈ m, c.1 < d.1) ∧ memoryWf m = true := by
  refine ⟨fun h => ⟨memoryWf_head_lt h, memoryWf_tail h⟩, fun ⟨h, hm⟩ => ?_⟩
  cases m with
  | nil => rfl
  | cons d rest =>
    simp only [memoryWf, Bool.and_eq_true, decide_eq_true_eq]
    exact ⟨h d List.mem_cons_self, hm⟩

theorem mem_writeCell {m : Memory} {a : Nat} {v : Byte} {d : Host.Cell} (h : d ∈ writeCell m a v) :
    d = (a, v) ∨ d ∈ m := by
  induction m with
  | nil => simpa [writeCell] using h
  | cons c rest ih =>
    obtain ⟨k, w⟩ := c
    unfold writeCell at h
    split_ifs at h
    · rcases List.mem_cons.mp h with h | h
      · exact .inl h
      · exact .inr (List.mem_cons_of_mem _ h)
    · rcases List.mem_cons.mp h with h | h
      · exact .inl h
      · exact .inr h
    · rcases List.mem_cons.mp h with h | h
      · exact .inr (h ▸ List.mem_cons_self)
      · exact (ih h).imp id (List.mem_cons_of_mem _)

theorem memoryWf_writeCell (m : Memory) (a : Nat) (v : Byte) (hm : memoryWf m = true) :
    memoryWf (writeCell m a v) = true := by
  induction m with
  | nil => rfl
  | cons c rest ih =>
    obtain ⟨k, w⟩ := c
    obtain ⟨hk, hr⟩ := memoryWf_cons.mp hm
    unfold writeCell
    split_ifs with h1 h2
    · exact memoryWf_cons.mpr ⟨by simpa [h1] using hk, hr⟩
    · refine memoryWf_cons.mpr ⟨fun d hd => ?_, hm⟩
      rcases List.mem_cons.mp hd with rfl | hd
      · exact h2
      · exact lt_trans h2 (hk d hd)
    · refine memoryWf_cons.mpr ⟨fun d hd => ?_, ih hr⟩
      rcases mem_writeCell hd with rfl | hd
      · simp only; omega
      · exact hk d hd

theorem memoryWf_writeEach (m : Memory) (keys : List Nat) (val : Nat → Byte) (hm : memoryWf m = true) :
    memoryWf (writeEach m keys val) = true := by
  induction keys generalizing m with
  | nil => exact hm
  | cons a keys ih => exact ih _ (memoryWf_writeCell m a _ hm)

/-- What `writeEach` does: the keys of the list read as `val` names them, every other key as before. -/
theorem cellAt_writeEach (m : Memory) (keys : List Nat) (val : Nat → Byte) (b : Nat) (hm : memoryWf m = true) :
    cellAt (writeEach m keys val) b = if b ∈ keys then some (val b) else cellAt m b := by
  induction keys generalizing m with
  | nil => simp [writeEach]
  | cons a keys ih =>
    have h := ih (writeCell m a (val a)) (memoryWf_writeCell m a _ hm)
    simp only [writeEach, List.foldl_cons] at h ⊢
    rw [h, cellAt_writeCell m a b _ hm]
    by_cases hb : b ∈ keys
    · simp [hb]
    · by_cases hba : b = a
      · subst hba; simp
      · simp [hb, hba]

/-! ### Keys in range, cells that are bits -/

theorem keysBelow_iff {n : Nat} {m : Memory} : keysBelow n m = true ↔ ∀ c ∈ m, c.1 < n := by
  simp [keysBelow]

theorem cellsAreBits_iff {m : Memory} : cellsAreBits m = true ↔ ∀ c ∈ m, c.2 = 0#8 ∨ c.2 = 1#8 := by
  simp [cellsAreBits]

theorem mem_writeEach {m : Memory} {keys : List Nat} {val : Nat → Byte} {d : Host.Cell}
    (h : d ∈ writeEach m keys val) : (d.1 ∈ keys ∧ d.2 = val d.1) ∨ d ∈ m := by
  induction keys generalizing m with
  | nil => exact .inr h
  | cons a keys ih =>
    rcases ih (m := writeCell m a (val a)) h with h | h
    · exact .inl ⟨List.mem_cons_of_mem _ h.1, h.2⟩
    · rcases mem_writeCell h with rfl | h
      · exact .inl ⟨List.mem_cons_self, rfl⟩
      · exact .inr h

theorem keysBelow_writeEach {n : Nat} {m : Memory} {keys : List Nat} {val : Nat → Byte}
    (hm : keysBelow n m = true) (hk : ∀ a ∈ keys, a < n) : keysBelow n (writeEach m keys val) = true :=
  keysBelow_iff.mpr fun _ hc => (mem_writeEach hc).elim (fun h => hk _ h.1) (keysBelow_iff.mp hm _)

theorem cellsAreBits_writeEach {m : Memory} {keys : List Nat} {val : Nat → Byte}
    (hm : cellsAreBits m = true) (hv : ∀ a ∈ keys, val a = 0#8 ∨ val a = 1#8) :
    cellsAreBits (writeEach m keys val) = true :=
  cellsAreBits_iff.mpr fun c hc =>
    (mem_writeEach hc).elim (fun h => h.2 ▸ hv c.1 h.1) (cellsAreBits_iff.mp hm c)

theorem bitCell_zero_or_one (b : Bool) : bitCell b = 0#8 ∨ bitCell b = 1#8 := by cases b <;> decide

@[simp] theorem bitCell_getLsbD (b : Bool) : (bitCell b).getLsbD 0 = b := by cases b <;> decide

/-! ### A filled memory -/

theorem memoryWf_of_pairwise {m : Memory} (h : m.Pairwise (fun c d => c.1 < d.1)) : memoryWf m = true := by
  induction m with
  | nil => rfl
  | cons c rest ih =>
    obtain ⟨h1, h2⟩ := List.pairwise_cons.mp h
    exact memoryWf_cons.mpr ⟨h1, ih h2⟩

theorem memoryWf_filled (n : Nat) (v : Byte) : memoryWf (filled n v) = true :=
  memoryWf_of_pairwise (by simpa [filled, List.pairwise_map] using List.pairwise_lt_range)

theorem keysBelow_filled (n : Nat) (v : Byte) : keysBelow n (filled n v) = true := by
  simp [keysBelow_iff, filled]

/-! ### Extensionality -/

theorem cellAt_eq_some_of_mem {m : Memory} {a : Nat} {v : Byte} (hm : memoryWf m = true) (h : (a, v) ∈ m) :
    cellAt m a = some v := by
  induction m with
  | nil => cases h
  | cons c rest ih =>
    obtain ⟨k, w⟩ := c
    obtain ⟨hk, hr⟩ := memoryWf_cons.mp hm
    rcases List.mem_cons.mp h with h | h
    · cases h; simp [cellAt]
    · have hlt : k < a := hk _ h
      simp only [cellAt, if_neg (by omega : ¬a = k), if_neg (by omega : ¬a < k)]
      exact ih hr h

theorem mem_of_cellAt_eq_some {m : Memory} {a : Nat} {v : Byte} (h : cellAt m a = some v) : (a, v) ∈ m := by
  induction m with
  | nil => simp [cellAt] at h
  | cons c rest ih =>
    obtain ⟨k, w⟩ := c
    unfold cellAt at h
    split_ifs at h with h1
    · cases h; subst h1; exact List.mem_cons_self
    · exact List.mem_cons_of_mem _ (ih h)

theorem cellAt_filled (n a : Nat) (v : Byte) : cellAt (filled n v) a = if a < n then some v else none := by
  split_ifs with h
  · exact cellAt_eq_some_of_mem (memoryWf_filled n v) (by simp [filled, h])
  · by_contra hne
    obtain ⟨w, hw⟩ := Option.ne_none_iff_exists'.mp hne
    have := mem_of_cellAt_eq_some hw
    simp [filled] at this
    omega

/-- Two canonical memories that read alike are the same list. -/
theorem memory_ext {m n : Memory} (hm : memoryWf m = true) (hn : memoryWf n = true)
    (h : ∀ a, cellAt m a = cellAt n a) : m = n := by
  induction m generalizing n with
  | nil =>
    cases n with
    | nil => rfl
    | cons d rest =>
      have := h d.1
      rw [cellAt_eq_some_of_mem hn List.mem_cons_self] at this
      simp [cellAt] at this
  | cons c rest ih =>
    obtain ⟨k, w⟩ := c
    have hkw : (k, w) ∈ n := mem_of_cellAt_eq_some ((h k) ▸ cellAt_eq_some_of_mem hm List.mem_cons_self)
    cases n with
    | nil => cases hkw
    | cons d rest' =>
      obtain ⟨j, u⟩ := d
      have hju : (j, u) ∈ (k, w) :: rest :=
        mem_of_cellAt_eq_some ((h j).symm ▸ cellAt_eq_some_of_mem hn List.mem_cons_self)
      obtain ⟨hmk, hmr⟩ := memoryWf_cons.mp hm
      obtain ⟨hnk, hnr⟩ := memoryWf_cons.mp hn
      have hjk : j = k ∧ u = w := by
        rcases List.mem_cons.mp hkw with e | hkw
        · cases e; exact ⟨rfl, rfl⟩
        · rcases List.mem_cons.mp hju with e | hju
          · cases e; exact ⟨rfl, rfl⟩
          · have h1 := hnk _ hkw; have h2 := hmk _ hju; simp only at h1 h2; omega
      obtain ⟨rfl, rfl⟩ := hjk
      have hrest : rest = rest' := by
        refine ih hmr hnr fun a => ?_
        have ha := h a
        simp only [cellAt] at ha
        split_ifs at ha with h1 h2
        · subst h1
          have e1 : cellAt rest a = none := by
            by_contra hne
            obtain ⟨x, hx⟩ := Option.ne_none_iff_exists'.mp hne
            exact absurd (hmk _ (mem_of_cellAt_eq_some hx)) (lt_irrefl _)
          have e2 : cellAt rest' a = none := by
            by_contra hne
            obtain ⟨x, hx⟩ := Option.ne_none_iff_exists'.mp hne
            exact absurd (hnk _ (mem_of_cellAt_eq_some hx)) (lt_irrefl _)
          rw [e1, e2]
        · have e1 : cellAt rest a = none := by
            by_contra hne
            obtain ⟨x, hx⟩ := Option.ne_none_iff_exists'.mp hne
            have := hmk _ (mem_of_cellAt_eq_some hx); simp only at this; omega
          have e2 : cellAt rest' a = none := by
            by_contra hne
            obtain ⟨x, hx⟩ := Option.ne_none_iff_exists'.mp hne
            have := hnk _ (mem_of_cellAt_eq_some hx); simp only at this; omega
          rw [e1, e2]
        · exact ha
      rw [hrest]

end Sys2Proof.Machine
end

