-- ==== Sys2Proof/Laws/State.lean ====
section
/-! SUPPORT. One lemma per field per named update of State, each true by rfl, so that no proof unfolds a record update;
and what replacing a plane does to each plane. -/

namespace Sys2Proof.Machine

/-! ### raiseCmdError -/

@[simp] theorem raiseCmdError_params (c : ErrCode) (s : State) : (raiseCmdError c s).params = s.params := rfl
@[simp] theorem raiseCmdError_status (c : ErrCode) (s : State) : (raiseCmdError c s).status = statusRaise c s.status := rfl
@[simp] theorem raiseCmdError_bmW (c : ErrCode) (s : State) : (raiseCmdError c s).bmW = s.bmW := rfl
@[simp] theorem raiseCmdError_bmH (c : ErrCode) (s : State) : (raiseCmdError c s).bmH = s.bmH := rfl
@[simp] theorem raiseCmdError_args (c : ErrCode) (s : State) : (raiseCmdError c s).args = s.args := rfl
@[simp] theorem raiseCmdError_packLen (c : ErrCode) (s : State) : (raiseCmdError c s).packLen = s.packLen := rfl
@[simp] theorem raiseCmdError_planeA (c : ErrCode) (s : State) : (raiseCmdError c s).planeA = s.planeA := rfl
@[simp] theorem raiseCmdError_planeB (c : ErrCode) (s : State) : (raiseCmdError c s).planeB = s.planeB := rfl
@[simp] theorem raiseCmdError_packBuf (c : ErrCode) (s : State) : (raiseCmdError c s).packBuf = s.packBuf := rfl
@[simp] theorem raiseCmdError_latched (c : ErrCode) (s : State) : (raiseCmdError c s).latched = s.latched := rfl
@[simp] theorem raiseCmdError_host (c : ErrCode) (s : State) : (raiseCmdError c s).host = s.host := rfl
@[simp] theorem raiseCmdError_turns (c : ErrCode) (s : State) : (raiseCmdError c s).turns = s.turns := rfl
@[simp] theorem raiseCmdError_observed (c : ErrCode) (s : State) : (raiseCmdError c s).observed = s.observed := rfl

/-! ### acknowledge -/

@[simp] theorem acknowledge_params (v : Word) (s : State) : (acknowledge v s).params = s.params := rfl
@[simp] theorem acknowledge_status (v : Word) (s : State) : (acknowledge v s).status = statusAcknowledge v s.status := rfl
@[simp] theorem acknowledge_bmW (v : Word) (s : State) : (acknowledge v s).bmW = s.bmW := rfl
@[simp] theorem acknowledge_bmH (v : Word) (s : State) : (acknowledge v s).bmH = s.bmH := rfl
@[simp] theorem acknowledge_args (v : Word) (s : State) : (acknowledge v s).args = s.args := rfl
@[simp] theorem acknowledge_packLen (v : Word) (s : State) : (acknowledge v s).packLen = s.packLen := rfl
@[simp] theorem acknowledge_planeA (v : Word) (s : State) : (acknowledge v s).planeA = s.planeA := rfl
@[simp] theorem acknowledge_planeB (v : Word) (s : State) : (acknowledge v s).planeB = s.planeB := rfl
@[simp] theorem acknowledge_packBuf (v : Word) (s : State) : (acknowledge v s).packBuf = s.packBuf := rfl
@[simp] theorem acknowledge_latched (v : Word) (s : State) : (acknowledge v s).latched = s.latched := rfl
@[simp] theorem acknowledge_host (v : Word) (s : State) : (acknowledge v s).host = s.host := rfl
@[simp] theorem acknowledge_turns (v : Word) (s : State) : (acknowledge v s).turns = s.turns := rfl
@[simp] theorem acknowledge_observed (v : Word) (s : State) : (acknowledge v s).observed = s.observed := rfl

/-! ### accept -/

@[simp] theorem accept_params (v : Word) (s : State) : (accept v s).params = s.params := rfl
@[simp] theorem accept_status (v : Word) (s : State) : (accept v s).status = statusAccept s.status := rfl
@[simp] theorem accept_bmW (v : Word) (s : State) : (accept v s).bmW = s.bmW := rfl
@[simp] theorem accept_bmH (v : Word) (s : State) : (accept v s).bmH = s.bmH := rfl
@[simp] theorem accept_args (v : Word) (s : State) : (accept v s).args = s.args := rfl
@[simp] theorem accept_packLen (v : Word) (s : State) : (accept v s).packLen = s.packLen := rfl
@[simp] theorem accept_planeA (v : Word) (s : State) : (accept v s).planeA = s.planeA := rfl
@[simp] theorem accept_planeB (v : Word) (s : State) : (accept v s).planeB = s.planeB := rfl
@[simp] theorem accept_packBuf (v : Word) (s : State) : (accept v s).packBuf = s.packBuf := rfl
@[simp] theorem accept_latched (v : Word) (s : State) : (accept v s).latched = { cmd := v, w := s.bmW, h := s.bmH, args := s.args } := rfl
@[simp] theorem accept_host (v : Word) (s : State) : (accept v s).host = s.host := rfl
@[simp] theorem accept_turns (v : Word) (s : State) : (accept v s).turns = s.turns := rfl
@[simp] theorem accept_observed (v : Word) (s : State) : (accept v s).observed = s.observed := rfl

/-! ### setPackLen -/

@[simp] theorem setPackLen_params (s : State) : (setPackLen s).params = s.params := rfl
@[simp] theorem setPackLen_status (s : State) : (setPackLen s).status = s.status := rfl
@[simp] theorem setPackLen_bmW (s : State) : (setPackLen s).bmW = s.bmW := rfl
@[simp] theorem setPackLen_bmH (s : State) : (setPackLen s).bmH = s.bmH := rfl
@[simp] theorem setPackLen_args (s : State) : (setPackLen s).args = s.args := rfl
@[simp] theorem setPackLen_packLen (s : State) : (setPackLen s).packLen = BitVec.ofNat 16 (packedLength s.latched) := rfl
@[simp] theorem setPackLen_planeA (s : State) : (setPackLen s).planeA = s.planeA := rfl
@[simp] theorem setPackLen_planeB (s : State) : (setPackLen s).planeB = s.planeB := rfl
@[simp] theorem setPackLen_packBuf (s : State) : (setPackLen s).packBuf = s.packBuf := rfl
@[simp] theorem setPackLen_latched (s : State) : (setPackLen s).latched = s.latched := rfl
@[simp] theorem setPackLen_host (s : State) : (setPackLen s).host = s.host := rfl
@[simp] theorem setPackLen_turns (s : State) : (setPackLen s).turns = s.turns := rfl
@[simp] theorem setPackLen_observed (s : State) : (setPackLen s).observed = s.observed := rfl

/-! ### observe -/

@[simp] theorem observe_params (o : Observation) (s : State) : (observe o s).params = s.params := rfl
@[simp] theorem observe_status (o : Observation) (s : State) : (observe o s).status = s.status := rfl
@[simp] theorem observe_bmW (o : Observation) (s : State) : (observe o s).bmW = s.bmW := rfl
@[simp] theorem observe_bmH (o : Observation) (s : State) : (observe o s).bmH = s.bmH := rfl
@[simp] theorem observe_args (o : Observation) (s : State) : (observe o s).args = s.args := rfl
@[simp] theorem observe_packLen (o : Observation) (s : State) : (observe o s).packLen = s.packLen := rfl
@[simp] theorem observe_planeA (o : Observation) (s : State) : (observe o s).planeA = s.planeA := rfl
@[simp] theorem observe_planeB (o : Observation) (s : State) : (observe o s).planeB = s.planeB := rfl
@[simp] theorem observe_packBuf (o : Observation) (s : State) : (observe o s).packBuf = s.packBuf := rfl
@[simp] theorem observe_latched (o : Observation) (s : State) : (observe o s).latched = s.latched := rfl
@[simp] theorem observe_host (o : Observation) (s : State) : (observe o s).host = s.host := rfl
@[simp] theorem observe_turns (o : Observation) (s : State) : (observe o s).turns = s.turns := rfl
@[simp] theorem observe_observed (o : Observation) (s : State) : (observe o s).observed = o :: s.observed := rfl

/-! ### resetBlock -/

@[simp] theorem resetBlock_params (s : State) : (resetBlock s).params = s.params := rfl
@[simp] theorem resetBlock_status (s : State) : (resetBlock s).status = Status.atReset := rfl
@[simp] theorem resetBlock_bmW (s : State) : (resetBlock s).bmW = BitVec.ofNat 16 (min 140 s.params.maxW) := rfl
@[simp] theorem resetBlock_bmH (s : State) : (resetBlock s).bmH = BitVec.ofNat 16 (min 32 s.params.maxH) := rfl
@[simp] theorem resetBlock_args (s : State) : (resetBlock s).args = Args.atReset := rfl
@[simp] theorem resetBlock_packLen (s : State) : (resetBlock s).packLen = 0 := rfl
@[simp] theorem resetBlock_planeA (s : State) : (resetBlock s).planeA = [] := rfl
@[simp] theorem resetBlock_planeB (s : State) : (resetBlock s).planeB = [] := rfl
@[simp] theorem resetBlock_packBuf (s : State) : (resetBlock s).packBuf = [] := rfl
@[simp] theorem resetBlock_latched (s : State) : (resetBlock s).latched = Latch.atReset := rfl
@[simp] theorem resetBlock_host (s : State) : (resetBlock s).host = s.host := rfl
@[simp] theorem resetBlock_turns (s : State) : (resetBlock s).turns = s.turns := rfl
@[simp] theorem resetBlock_observed (s : State) : (resetBlock s).observed = s.observed := rfl

/-! ### setPlane -/

@[simp] theorem setPlane_params (s : State) (p : Plane) (m : Memory) : (setPlane s p m).params = s.params := by cases p <;> rfl
@[simp] theorem setPlane_status (s : State) (p : Plane) (m : Memory) : (setPlane s p m).status = s.status := by cases p <;> rfl
@[simp] theorem setPlane_bmW (s : State) (p : Plane) (m : Memory) : (setPlane s p m).bmW = s.bmW := by cases p <;> rfl
@[simp] theorem setPlane_bmH (s : State) (p : Plane) (m : Memory) : (setPlane s p m).bmH = s.bmH := by cases p <;> rfl
@[simp] theorem setPlane_args (s : State) (p : Plane) (m : Memory) : (setPlane s p m).args = s.args := by cases p <;> rfl
@[simp] theorem setPlane_packLen (s : State) (p : Plane) (m : Memory) : (setPlane s p m).packLen = s.packLen := by cases p <;> rfl
@[simp] theorem setPlane_packBuf (s : State) (p : Plane) (m : Memory) : (setPlane s p m).packBuf = s.packBuf := by cases p <;> rfl
@[simp] theorem setPlane_latched (s : State) (p : Plane) (m : Memory) : (setPlane s p m).latched = s.latched := by cases p <;> rfl
@[simp] theorem setPlane_host (s : State) (p : Plane) (m : Memory) : (setPlane s p m).host = s.host := by cases p <;> rfl
@[simp] theorem setPlane_turns (s : State) (p : Plane) (m : Memory) : (setPlane s p m).turns = s.turns := by cases p <;> rfl
@[simp] theorem setPlane_observed (s : State) (p : Plane) (m : Memory) : (setPlane s p m).observed = s.observed := by cases p <;> rfl

@[simp] theorem planeOf_setPlane_self (s : State) (p : Plane) (m : Memory) : planeOf (setPlane s p m) p = m := by
  cases p <;> rfl

@[simp] theorem planeOf_setPlane_other (s : State) (p : Plane) (m : Memory) :
    planeOf (setPlane s p m) p.other = planeOf s p.other := by cases p <;> rfl

theorem planeOf_setPlane (s : State) (p q : Plane) (m : Memory) :
    planeOf (setPlane s p m) q = if q = p then m else planeOf s q := by cases p <;> cases q <;> rfl

@[simp] theorem other_ne (p : Plane) : p.other ≠ p := by cases p <;> decide

@[simp] theorem other_other (p : Plane) : p.other.other = p := by cases p <;> rfl

/-! ### A new status -/

@[simp] theorem planeOf_with_status (s : State) (st : Status) (p : Plane) :
    planeOf { s with status := st } p = planeOf s p := by cases p <;> rfl

@[simp] theorem planeOf_with_packLen (s : State) (n : Half) (p : Plane) :
    planeOf { s with packLen := n } p = planeOf s p := by cases p <;> rfl

@[simp] theorem planeOf_with_packBuf (s : State) (m : Memory) (p : Plane) :
    planeOf { s with packBuf := m } p = planeOf s p := by cases p <;> rfl

@[simp] theorem planeOf_with_host (s : State) (h : List HostAction) (p : Plane) :
    planeOf { s with host := h } p = planeOf s p := by cases p <;> rfl

@[simp] theorem planeOf_with_turns (s : State) (t : List Agent) (p : Plane) :
    planeOf { s with turns := t } p = planeOf s p := by cases p <;> rfl

@[simp] theorem planeOf_setPackLen (s : State) (p : Plane) : planeOf (setPackLen s) p = planeOf s p := by
  cases p <;> rfl

@[simp] theorem planeOf_accept (v : Word) (s : State) (p : Plane) : planeOf (accept v s) p = planeOf s p := by
  cases p <;> rfl

@[simp] theorem planeOf_raiseCmdError (c : ErrCode) (s : State) (p : Plane) :
    planeOf (raiseCmdError c s) p = planeOf s p := by cases p <;> rfl

end Sys2Proof.Machine
end

