-- ==== Sys2Proof/Laws/Raster.lean ====
section
/-! SUPPORT. Which keys Plot writes, that pixel keys of different pixels differ, and what Plot does to every key. -/

namespace Sys2Proof.Machine

/-! ### Pixel keys -/

theorem keyX_pixelKey {p : Params} {x y : Nat} (hx : x < p.maxW) : keyX p (pixelKey p x y) = x := by
  simp [keyX, pixelKey, Nat.mod_eq_of_lt hx]

theorem keyY_pixelKey {p : Params} {x y : Nat} (hx : x < p.maxW) : keyY p (pixelKey p x y) = y := by
  have : 0 < p.maxW := by omega
  simp only [keyY, pixelKey]
  rw [Nat.add_comm, Nat.add_mul_div_right _ _ this, Nat.div_eq_of_lt hx, Nat.zero_add]

theorem pixelKey_injective {p : Params} {x y x' y' : Nat} (hx : x < p.maxW) (hx' : x' < p.maxW)
    (h : pixelKey p x y = pixelKey p x' y') : x = x' ∧ y = y' :=
  ⟨by rw [← keyX_pixelKey (y := y) hx, h, keyX_pixelKey hx'], by rw [← keyY_pixelKey (y := y) hx, h, keyY_pixelKey hx']⟩

theorem pixelKey_lt_planeSize {p : Params} {x y : Nat} (hx : x < p.maxW) (hy : y < p.maxH) :
    pixelKey p x y < planeSize p := by
  have h : (y + 1) * p.maxW ≤ p.maxH * p.maxW := Nat.mul_le_mul_right _ hy
  simp only [pixelKey, planeSize, Nat.mul_comm p.maxW p.maxH]
  rw [Nat.add_mul] at h
  omega

theorem mem_gridPixels {w h x y : Nat} : (x, y) ∈ gridPixels w h ↔ x < w ∧ y < h := by
  simp [gridPixels, and_comm]

theorem mem_gridKeys {p : Params} {w h a : Nat} : a ∈ gridKeys p w h ↔ ∃ x y, x < w ∧ y < h ∧ a = pixelKey p x y := by
  constructor
  · intro ha
    obtain ⟨⟨x, y⟩, hxy, rfl⟩ := List.mem_map.mp ha
    obtain ⟨hx, hy⟩ := mem_gridPixels.mp hxy
    exact ⟨x, y, hx, hy, rfl⟩
  · rintro ⟨x, y, hx, hy, rfl⟩
    exact List.mem_map.mpr ⟨(x, y), mem_gridPixels.mpr ⟨hx, hy⟩, rfl⟩

/-! ### Clipping -/

theorem mem_clipSpan {w h : Nat} {sp : Span} {x y : Nat} :
    (x, y) ∈ clipSpan w h sp ↔ x < w ∧ y < h ∧ inSpan sp x y = true := by
  unfold clipSpan
  split_ifs with hrow
  · simp only [List.mem_map, List.mem_range'_1, Prod.mk.injEq, inSpan, Bool.and_eq_true, decide_eq_true_eq]
    constructor
    · rintro ⟨a, ha, rfl, rfl⟩; omega
    · rintro ⟨hx, hy, ⟨hr, hlo⟩, hhi⟩; exact ⟨x, by omega, rfl, by omega⟩
  · simp only [List.not_mem_nil, false_iff, inSpan, Bool.and_eq_true, decide_eq_true_eq]
    rintro ⟨hx, hy, ⟨hr, hlo⟩, hhi⟩; omega

theorem mem_clipSet {w h : Nat} {ps : PixelSet} {x y : Nat} :
    (x, y) ∈ clipSet w h ps ↔ x < w ∧ y < h ∧ inSet ps x y = true := by
  simp only [clipSet, List.mem_flatMap, inSet, List.any_eq_true]
  constructor
  · rintro ⟨sp, hsp, h⟩; obtain ⟨hx, hy, hi⟩ := mem_clipSpan.mp h; exact ⟨hx, hy, sp, hsp, hi⟩
  · rintro ⟨hx, hy, sp, hsp, hi⟩; exact ⟨sp, hsp, mem_clipSpan.mpr ⟨hx, hy, hi⟩⟩

/-- The keys Plot writes: the pixels of the set inside the active area (R93). -/
theorem mem_plotKeys {s : State} {ps : PixelSet} {a : Nat} :
    a ∈ plotKeys s ps ↔
      ∃ x y, x < areaW s.latched ∧ y < areaH s.latched ∧ inSet ps x y = true ∧ a = pixelKey s.params x y := by
  constructor
  · intro ha
    obtain ⟨⟨x, y⟩, hxy, rfl⟩ := List.mem_map.mp ha
    obtain ⟨hx, hy, hi⟩ := mem_clipSet.mp hxy
    exact ⟨x, y, hx, hy, hi, rfl⟩
  · rintro ⟨x, y, hx, hy, hi, rfl⟩
    exact List.mem_map.mpr ⟨(x, y), mem_clipSet.mpr ⟨hx, hy, hi⟩, rfl⟩

/-! ### Membership of the shapes -/

theorem inSpan_iff {sp : Span} {x y : Int} : inSpan sp x y = true ↔ y = sp.row ∧ sp.lo ≤ x ∧ x ≤ sp.hi := by
  simp [inSpan, and_assoc]

theorem inSet_iff {ps : PixelSet} {x y : Int} :
    inSet ps x y = true ↔ ∃ sp ∈ ps, y = sp.row ∧ sp.lo ≤ x ∧ x ≤ sp.hi := by
  simp [inSet, List.any_eq_true, inSpan_iff]

theorem inSet_append {ps qs : PixelSet} {x y : Int} : inSet (ps ++ qs) x y = (inSet ps x y || inSet qs x y) := by
  simp [inSet]

theorem inSet_pixelSet {ps : List Pixel} {x y : Int} : inSet (pixelSet ps) x y = true ↔ (x, y) ∈ ps := by
  simp only [inSet_iff, pixelSet, List.mem_map]
  constructor
  · rintro ⟨sp, ⟨⟨a, b⟩, hab, rfl⟩, hy, h1, h2⟩
    simp only [pixelSpan] at hy h1 h2
    obtain rfl : x = a := by omega
    exact hy ▸ hab
  · intro h; exact ⟨_, ⟨_, h, rfl⟩, rfl, le_refl _, le_refl _⟩

/-! ### Plot -/

/-- What Plot does to every key of its plane (R93). -/
theorem cellAt_plottedPlane (p : Plane) (ps : PixelSet) (s : State) (a : Nat) (hm : memoryWf (planeOf s p) = true) :
    cellAt (plottedPlane p ps s) a = if a ∈ plotKeys s ps then some 1#8 else cellAt (planeOf s p) a := by
  rw [plottedPlane, cellAt_writeEach _ _ _ _ hm]; rfl

/-- Two sets with the same pixels inside the active area plot alike, canonical memory for canonical memory (R93). -/
theorem plot_congr (p : Plane) {ps qs : PixelSet} (s : State) (hm : memoryWf (planeOf s p) = true)
    (h : ∀ x y : Nat, x < areaW s.latched → y < areaH s.latched → inSet ps x y = inSet qs x y) :
    plot p ps s = plot p qs s := by
  have hkeys : ∀ a, a ∈ plotKeys s ps ↔ a ∈ plotKeys s qs := fun a => by
    simp only [mem_plotKeys]
    constructor
    · rintro ⟨x, y, hx, hy, hi, ha⟩; exact ⟨x, y, hx, hy, h x y hx hy ▸ hi, ha⟩
    · rintro ⟨x, y, hx, hy, hi, ha⟩; exact ⟨x, y, hx, hy, (h x y hx hy).symm ▸ hi, ha⟩
  rw [plot, plot]
  congr 1
  refine memory_ext (memoryWf_writeEach _ _ _ hm) (memoryWf_writeEach _ _ _ hm) fun a => ?_
  rw [cellAt_plottedPlane _ _ _ _ hm, cellAt_plottedPlane _ _ _ _ hm]
  simp only [hkeys a]

end Sys2Proof.Machine
end

