-- ==== Sys2Proof/Laws/Box.lean ====
section
/-! SUPPORT. The filled rows of a box: which pixels they hold, and that filling the rows of the active area alone plots
what filling every row plots. -/

namespace Sys2Proof.Machine

theorem mem_boxRows {y row : Int} {h : Nat} : row ∈ boxRows y h ↔ y ≤ row ∧ row < y + h := by
  simp only [boxRows, List.mem_map, List.mem_range]
  constructor
  · rintro ⟨k, hk, rfl⟩; omega
  · rintro ⟨h1, h2⟩; exact ⟨(row - y).toNat, by omega, by omega⟩

theorem rowSpan_row {o : List Pixel} {row : Int} {sp : Span} (h : rowSpan o row = some sp) : sp.row = row := by
  unfold rowSpan at h
  split at h
  · cases h
  · cases h; rfl

theorem foldl_min_le {us : List Int} {u : Int} : us.foldl min u ≤ u ∧ ∀ v ∈ us, us.foldl min u ≤ v := by
  induction us generalizing u with
  | nil => simp
  | cons w us ih =>
    obtain ⟨h1, h2⟩ := ih (u := min u w)
    refine ⟨le_trans h1 (min_le_left _ _), fun v hv => ?_⟩
    rcases List.mem_cons.mp hv with rfl | hv
    · exact le_trans h1 (min_le_right _ _)
    · exact h2 v hv

theorem foldl_max_ge {us : List Int} {u : Int} : u ≤ us.foldl max u ∧ ∀ v ∈ us, v ≤ us.foldl max u := by
  induction us generalizing u with
  | nil => simp
  | cons w us ih =>
    obtain ⟨h1, h2⟩ := ih (u := max u w)
    refine ⟨le_trans (le_max_left _ _) h1, fun v hv => ?_⟩
    rcases List.mem_cons.mp hv with rfl | hv
    · exact le_trans (le_max_right _ _) h1
    · exact h2 v hv

theorem foldl_min_mem {us : List Int} {u : Int} : us.foldl min u = u ∨ us.foldl min u ∈ us := by
  induction us generalizing u with
  | nil => simp
  | cons w us ih =>
    rcases ih (u := min u w) with h | h
    · rcases min_choice u w with e | e
      · exact .inl (by simpa [e] using h)
      · exact .inr (by rw [List.foldl_cons, h, e]; exact List.mem_cons_self)
    · exact .inr (List.mem_cons_of_mem _ h)

theorem foldl_max_mem {us : List Int} {u : Int} : us.foldl max u = u ∨ us.foldl max u ∈ us := by
  induction us generalizing u with
  | nil => simp
  | cons w us ih =>
    rcases ih (u := max u w) with h | h
    · rcases max_choice u w with e | e
      · exact .inl (by simpa [e] using h)
      · exact .inr (by rw [List.foldl_cons, h, e]; exact List.mem_cons_self)
    · exact .inr (List.mem_cons_of_mem _ h)

/-- The span of a row runs from the least to the greatest column of the outline in it (R150). -/
theorem rowSpan_eq_some {o : List Pixel} {row : Int} {sp : Span} (h : rowSpan o row = some sp) :
    (sp.lo, row) ∈ o ∧ (sp.hi, row) ∈ o ∧ ∀ u, (u, row) ∈ o → sp.lo ≤ u ∧ u ≤ sp.hi := by
  unfold rowSpan at h
  have key : ∀ u, u ∈ (o.filter (fun p => decide (p.2 = row))).map (fun p => p.1) ↔ (u, row) ∈ o := by
    intro u
    simp only [List.mem_map, List.mem_filter, decide_eq_true_eq]
    constructor
    · rintro ⟨⟨a, b⟩, ⟨h1, h2⟩, rfl⟩; simp only at h2; exact h2 ▸ h1
    · intro hu; exact ⟨(u, row), ⟨hu, rfl⟩, rfl⟩
  split at h
  · cases h
  · rename_i u us heq
    rw [heq] at key
    cases h
    refine ⟨(key _).mp ?_, (key _).mp ?_, fun v hv => ?_⟩
    · rcases foldl_min_mem (us := us) (u := u) with e | e
      · simp [e]
      · exact List.mem_cons_of_mem _ e
    · rcases foldl_max_mem (us := us) (u := u) with e | e
      · simp [e]
      · exact List.mem_cons_of_mem _ e
    · rcases List.mem_cons.mp ((key v).mpr hv) with rfl | hv
      · exact ⟨foldl_min_le.1, foldl_max_ge.1⟩
      · exact ⟨foldl_min_le.2 _ hv, foldl_max_ge.2 _ hv⟩

theorem rowSpan_isSome {o : List Pixel} {row u : Int} (h : (u, row) ∈ o) : ∃ sp, rowSpan o row = some sp := by
  unfold rowSpan
  split
  · rename_i heq
    have : u ∈ (o.filter (fun p => decide (p.2 = row))).map (fun p => p.1) :=
      List.mem_map.mpr ⟨(u, row), List.mem_filter.mpr ⟨h, by simp⟩, rfl⟩
    rw [heq] at this; cases this
  · exact ⟨_, rfl⟩

/-- R150: a pixel is filled when its row is one of the rows and it lies between two outline pixels of that row. -/
theorem inSet_fillRows {o : List Pixel} {rows : List Int} {x y : Int} :
    inSet (fillRows o rows) x y = true ↔ y ∈ rows ∧ ∃ u v, (u, y) ∈ o ∧ (v, y) ∈ o ∧ u ≤ x ∧ x ≤ v := by
  simp only [inSet_iff, fillRows, List.mem_filterMap]
  constructor
  · rintro ⟨sp, ⟨row, hrow, hs⟩, hy, h1, h2⟩
    have hr := rowSpan_row hs
    obtain ⟨ha, hb, -⟩ := rowSpan_eq_some hs
    obtain rfl : y = row := by omega
    exact ⟨hrow, _, _, ha, hb, h1, h2⟩
  · rintro ⟨hy, u, v, hu, hv, h1, h2⟩
    obtain ⟨sp, hs⟩ := rowSpan_isSome hu
    obtain ⟨-, -, hall⟩ := rowSpan_eq_some hs
    exact ⟨sp, ⟨y, hy, hs⟩, (rowSpan_row hs).symm, le_trans (hall u hu).1 h1, le_trans h2 (hall v hv).2⟩

/-- Inside the active area's rows, the restricted filling and BoxFilled have the same pixels. -/
theorem inSet_boxFilledInRows {rows : Nat} {x y : Int} {w h radius : Nat} {a b : Nat} (hb : b < rows) :
    inSet (boxFilledInRows rows x y w h radius) a b = inSet (boxFilled x y w h radius) a b := by
  unfold boxFilledInRows boxFilled
  split_ifs with hwh
  · rfl
  · rw [Bool.eq_iff_iff, inSet_fillRows, inSet_fillRows]
    simp only [List.mem_filter, Bool.and_eq_true, decide_eq_true_eq]
    constructor
    · rintro ⟨⟨h1, -⟩, h2⟩; exact ⟨h1, h2⟩
    · rintro ⟨h1, h2⟩; exact ⟨⟨h1, by omega, by omega⟩, h2⟩

/-- Plotting the rows of the active area alone is plotting BoxFilled (R93, R150, R153). -/
theorem plot_boxFilledInRows (p : Plane) (s : State) (x y : Int) (w h radius : Nat)
    (hm : memoryWf (planeOf s p) = true) :
    plot p (boxFilledInRows (areaH s.latched) x y w h radius) s = plot p (boxFilled x y w h radius) s :=
  plot_congr p s hm fun _ _ _ hb => inSet_boxFilledInRows hb

end Sys2Proof.Machine
end

