-- ==== Sys2Proof/Laws/Words.lean ====
section
/-! SUPPORT. Bit and byte facts of the word helpers. -/

namespace Sys2Proof.Machine

theorem getLsbD_bitsLE (n : Nat) (f : Nat → Bool) (i : Nat) : (bitsLE n f).getLsbD i = (decide (i < n) && f i) := by
  induction n generalizing f i with
  | zero => simp
  | succ n ih =>
    rw [bitsLE, BitVec.getLsbD_concat]
    cases i with
    | zero => simp
    | succ i => simp [ih]

theorem bitsLE_congr {n : Nat} {f g : Nat → Bool} (h : ∀ i < n, f i = g i) : bitsLE n f = bitsLE n g := by
  apply BitVec.eq_of_getLsbD_eq
  intro i hi
  rw [getLsbD_bitsLE, getLsbD_bitsLE, h i hi]

/-- Reading back the bits of a word gives the word. -/
theorem bitsLE_getLsbD {n : Nat} (v : BitVec n) : bitsLE n v.getLsbD = v := by
  apply BitVec.eq_of_getLsbD_eq
  intro i hi
  rw [getLsbD_bitsLE, decide_eq_true hi, Bool.true_and]

theorem wordOfBytes_byteOfWord (v : Word) :
    wordOfBytes (byteOfWord v 0) (byteOfWord v 1) (byteOfWord v 2) (byteOfWord v 3) = v := by
  apply BitVec.eq_of_getLsbD_eq
  intro i hi
  simp only [wordOfBytes, byteOfWord, BitVec.getLsbD_append, BitVec.getLsbD_extractLsb']
  by_cases h0 : i < 8
  · simp [h0]
  · by_cases h1 : i < 16
    · simp [h0, show i - 8 < 8 by omega, show 8 + (i - 8) = i by omega]
    · by_cases h2 : i < 24
      · simp [h0, show ¬ i - 8 < 8 by omega, show i - 8 - 8 < 8 by omega, show 16 + (i - 8 - 8) = i by omega]
      · simp [h0, show ¬ i - 8 < 8 by omega, show ¬ i - 8 - 8 < 8 by omega, show i - 8 - 8 - 8 < 8 by omega,
          show 24 + (i - 8 - 8 - 8) = i by omega]

/-- Each byte lane of a word made of four bytes is its byte (R55). -/
theorem byteOfWord_wordOfBytes (b0 b1 b2 b3 : Byte) :
    byteOfWord (wordOfBytes b0 b1 b2 b3) 0 = b0 ∧ byteOfWord (wordOfBytes b0 b1 b2 b3) 1 = b1 ∧
      byteOfWord (wordOfBytes b0 b1 b2 b3) 2 = b2 ∧ byteOfWord (wordOfBytes b0 b1 b2 b3) 3 = b3 := by
  refine ⟨?_, ?_, ?_, ?_⟩ <;>
    · ext j hj
      simp only [byteOfWord, wordOfBytes, BitVec.getElem_extractLsb', BitVec.getLsbD_append]
      split_ifs <;> first | omega | (rw [BitVec.getLsbD_eq_getElem (by omega)]; congr 1; omega)

end Sys2Proof.Machine
end

