-- ==== Sys2Proof/Laws/Bus.lean ====
section
/-! SUPPORT. The host's accesses: the address decode of an access that exists, what each region's read and write is, and
the one case analysis of a host action. -/

namespace Sys2Proof.Machine

open Host (Outcome)

/-! ### Parameters -/

/-- What legal parameters are, as arithmetic (R7). -/
theorem params_facts {p : Params} (h : p.wellFormed = true) :
    p.maxW % 32 = 0 ∧ 32 ≤ p.maxW ∧ p.maxW ≤ 1024 ∧ p.maxH % 8 = 0 ∧ 8 ≤ p.maxH ∧ p.maxH ≤ 1024 ∧
      p.maxW * p.maxH ≤ 32768 ∧ p.base % 0x4000 = 0 := by
  simp only [Params.wellFormed, Params.widthLegal, Params.heightLegal, Params.sizeLegal, Params.baseLegal,
    Bool.and_eq_true, beq_iff_eq, decide_eq_true_eq] at h
  tauto

/-- The planes' words and PackBuf's words and bytes fill whole windows (R7, R52): MAX_W = 32·RW and MAX_H = 8·n. -/
theorem params_shape {p : Params} (h : p.wellFormed = true) :
    ∃ rw n, 1 ≤ rw ∧ 1 ≤ n ∧ p.maxW = 32 * rw ∧ p.maxH = 8 * n ∧ rw * n ≤ 128 ∧ planeSize p = 256 * (rw * n) ∧
      packBytes p = 32 * (rw * n) ∧ planeWords p = 8 * (rw * n) ∧ packWords p = 8 * (rw * n) := by
  obtain ⟨h1, h2, -, h4, h5, -, h7, -⟩ := params_facts h
  refine ⟨p.maxW / 32, p.maxH / 8, by omega, by omega, by omega, by omega, ?_⟩
  have hw : p.maxW = 32 * (p.maxW / 32) := by omega
  have hh : p.maxH = 8 * (p.maxH / 8) := by omega
  have hm : p.maxW * p.maxH = 256 * (p.maxW / 32 * (p.maxH / 8)) := by
    conv_lhs => rw [hw, hh]
    ring
  rw [hm] at h7
  simp only [planeSize, packBytes, planeWords, packWords, hm]
  refine ⟨by omega, trivial, by omega, by omega, by omega⟩

/-! ### STATUS -/

theorem statusRaise_eq (c : ErrCode) (st : Status) : statusRaise c st = rejectedStatus c st := by
  obtain ⟨b, d, e, x⟩ := st
  cases e <;> rfl

theorem statusComplete_eq (st : Status) : statusComplete st = completedStatus st := rfl

theorem raiseCmdError_eq (c : ErrCode) (s : State) :
    raiseCmdError c s = { s with status := rejectedStatus c s.status } := by
  rw [raiseCmdError, statusRaise_eq]

/-- STATUS as the host reads it, bit by bit (R24). -/
theorem statusWord_bits (st : Status) :
    (statusWord st).getLsbD 0 = st.busy ∧ (statusWord st).getLsbD 1 = st.done ∧ (statusWord st).getLsbD 2 = st.err ∧
      (statusWord st).getLsbD 3 = false ∧ (statusWord st).extractLsb' 4 4 = errCodeBits st.errCode ∧
      (statusWord st).extractLsb' 8 24 = 0#24 := by
  obtain ⟨b, d, e, c⟩ := st
  cases b <;> cases d <;> cases e <;> cases c <;> decide

/-! ### The address decode -/

theorem busOffset_ok (p : Params) {off : Nat} (h : off < 0x4000) (h4 : off % 4 = 0) :
    busOffset p (p.base + off) 4 = .ok off := by
  unfold busOffset
  rw [if_neg (by omega), if_neg (by omega), if_neg (by omega), Nat.add_sub_cancel_left]

/-- The address decode answers an offset only for an access that exists (R50, R51). -/
theorem busOffset_eq_ok {p : Params} {addr size off : Nat} (h : busOffset p addr size = .ok off) :
    addr = p.base + off ∧ off < 0x4000 ∧ off % 4 = 0 ∧ size = 4 := by
  unfold busOffset at h
  split_ifs at h with h1 h2 h3
  cases h
  omega

theorem hostAct_write (s : State) {off : Nat} (v : Word) (h : off < 0x4000) (h4 : off % 4 = 0) :
    hostAct (.write (s.params.base + off) 4 v) s = .next (writeOffset off v s) := by
  simp only [hostAct, hostWrite, busOffset_ok _ h h4]

theorem hostAct_read (s : State) {off : Nat} (h : off < 0x4000) (h4 : off % 4 = 0) :
    hostAct (.read (s.params.base + off) 4) s = deliver (readOffset off s) := by
  simp only [hostAct, hostRead, busOffset_ok _ h h4]

/-! ### Regions -/

/-- The offset of window word k of plane p (R53). -/
def planeWindow (p : Plane) (k : Nat) : Nat := (match p with | .a => 0x1000 | .b => 0x2000) + 4 * k

theorem planeWindow_facts (p : Plane) {k : Nat} (hk : k < 1024) :
    0x1000 ≤ planeWindow p k ∧ planeWindow p k < 0x3000 ∧ planeWindow p k % 4 = 0 := by
  cases p <;> simp only [planeWindow] <;> omega

theorem readWindow_plane (p : Plane) {k : Nat} (s : State) (hk : k < 1024) :
    readWindow (planeWindow p k) s = readPlaneWord p k s := by
  cases p
  · have : windowIndex (planeWindow .a k) = k := by simp only [windowIndex, planeWindow]; omega
    rw [readWindow, if_pos (by simp only [planeWindow]; omega), this]
  · have : windowIndex (planeWindow .b k) = k := by simp only [windowIndex, planeWindow]; omega
    rw [readWindow, if_neg (by simp only [planeWindow]; omega), if_pos (by simp only [planeWindow]; omega), this]

theorem writeWindow_plane (p : Plane) {k : Nat} (v : Word) (s : State) (hk : k < 1024) :
    writeWindow (planeWindow p k) v s = writePlaneWord p k v s := by
  cases p
  · have : windowIndex (planeWindow .a k) = k := by simp only [windowIndex, planeWindow]; omega
    rw [writeWindow, if_pos (by simp only [planeWindow]; omega), this]
  · have : windowIndex (planeWindow .b k) = k := by simp only [windowIndex, planeWindow]; omega
    rw [writeWindow, if_neg (by simp only [planeWindow]; omega), if_pos (by simp only [planeWindow]; omega), this]

theorem readWindow_pack {k : Nat} (s : State) (hk : k < 1024) : readWindow (0x3000 + 4 * k) s = readPackWord k s := by
  have : windowIndex (0x3000 + 4 * k) = k := by simp only [windowIndex]; omega
  rw [readWindow, if_neg (by omega), if_neg (by omega), this]

theorem writeWindow_pack {k : Nat} (v : Word) (s : State) (hk : k < 1024) :
    writeWindow (0x3000 + 4 * k) v s = writePackWord k v s := by
  have : windowIndex (0x3000 + 4 * k) = k := by simp only [windowIndex]; omega
  rw [writeWindow, if_neg (by omega), if_neg (by omega), this]

/-- Every window offset is a plane-window word or a PACKBUF-window word (R52). -/
theorem window_cases {off : Nat} (h1 : 0x1000 ≤ off) (h2 : off < 0x4000) (h4 : off % 4 = 0) :
    ∃ k < 1024, (∃ p, off = planeWindow p k) ∨ off = 0x3000 + 4 * k := by
  refine ⟨off % 0x1000 / 4, by omega, ?_⟩
  by_cases ha : off < 0x2000
  · exact .inl ⟨.a, by simp only [planeWindow]; omega⟩
  · by_cases hb : off < 0x3000
    · exact .inl ⟨.b, by simp only [planeWindow]; omega⟩
    · exact .inr (by omega)

theorem readOffset_window {off : Nat} {s : State} (h1 : 0x1000 ≤ off) (hb : s.status.busy = false) :
    readOffset off s = pureRead s (readWindow off s) := by
  rw [readOffset, if_neg (by omega), hb]; rfl

theorem writeOffset_window {off : Nat} {s : State} (v : Word) (h1 : 0x1000 ≤ off) (hb : s.status.busy = false) :
    writeOffset off v s = writeWindow off v s := by
  rw [writeOffset, if_neg (by omega), hb]; rfl

/-! ### Pixels through keys -/

theorem readPixel_eq_some {s : State} {p : Plane} {x y : Nat} {b : Bool} :
    readPixel s p x y = some b ↔
      pixelKnown (planeOf s p) (pixelKey s.params x y) = true ∧ pixelBit (planeOf s p) (pixelKey s.params x y) = b := by
  unfold readPixel pixelKnown pixelBit
  cases cellAt (planeOf s p) (pixelKey s.params x y) <;> simp

theorem readPixel_eq_none {s : State} {p : Plane} {x y : Nat} :
    readPixel s p x y = none ↔ pixelKnown (planeOf s p) (pixelKey s.params x y) = false := by
  unfold readPixel pixelKnown
  cases cellAt (planeOf s p) (pixelKey s.params x y) <;> simp

/-- The 32 columns of a backed plane word lie in its row, and the row exists (R53). -/
theorem window_pixel_exists {p : Params} {k b : Nat} (h : p.wellFormed = true) (hk : k < planeWords p) (hb : b < 32) :
    32 * (k % (p.maxW / 32)) + b < p.maxW ∧ k / (p.maxW / 32) < p.maxH ∧
      (32 * (k % (p.maxW / 32)) + b) % 32 = b := by
  obtain ⟨rw, n, h1, h2, hW, hH, -, -, -, hPW, -⟩ := params_shape h
  have hdiv : p.maxW / 32 = rw := by omega
  rw [hdiv]
  have hmod : k % rw < rw := Nat.mod_lt _ (by omega)
  refine ⟨by omega, ?_, by omega⟩
  rw [hH, Nat.div_lt_iff_lt_mul (by omega)]
  calc k < 8 * (rw * n) := by omega
    _ = 8 * n * rw := by ring

/-- A host read of a backed plane word whose 32 pixels are the bits of w (R53). -/
theorem readPlaneWord_known {p : Plane} {k : Nat} {s : State} {w : Word} (hk : k < planeWords s.params)
    (h : ∀ b < 32, readPixel s p (32 * (k % (s.params.maxW / 32)) + b) (k / (s.params.maxW / 32)) = some (w.getLsbD b)) :
    readPlaneWord p k s = .ok w := by
  unfold readPlaneWord
  rw [if_pos hk, if_pos]
  · congr 1
    rw [← bitsLE_getLsbD w]
    exact bitsLE_congr fun i hi => (readPixel_eq_some.mp (h i hi)).2
  · rw [List.all_eq_true]
    exact fun b hb => (readPixel_eq_some.mp (h b (List.mem_range.mp hb))).1

theorem readPlaneWord_unknown {p : Plane} {k b : Nat} {s : State} (hk : k < planeWords s.params) (hb : b < 32)
    (h : readPixel s p (32 * (k % (s.params.maxW / 32)) + b) (k / (s.params.maxW / 32)) = none) :
    readPlaneWord p k s = .error .unspecifiedPlaneWord := by
  unfold readPlaneWord
  rw [if_pos hk, if_neg]
  rw [List.all_eq_true]
  intro hall
  have h1 := hall b (List.mem_range.mpr hb)
  rw [windowKey, readPixel_eq_none.mp h] at h1
  cases h1

/-- A host write of a backed plane word, key by key (R53). -/
theorem cellAt_writePlaneWord {p : Plane} {k : Nat} {v : Word} {s : State} (hs : s.params.wellFormed = true)
    (hm : memoryWf (planeOf s p) = true) (hk : k < planeWords s.params) :
    ∃ m, writePlaneWord p k v s = setPlane s p m ∧ memoryWf m = true ∧
      (∀ b < 32, cellAt m (windowKey s.params k b) = some (bitCell (v.getLsbD b))) ∧
      (∀ a, (∀ b < 32, a ≠ windowKey s.params k b) → cellAt m a = cellAt (planeOf s p) a) := by
  refine ⟨_, by rw [writePlaneWord, if_pos hk], memoryWf_writeEach _ _ _ hm, fun b hb => ?_, fun a ha => ?_⟩
  · obtain ⟨h1, -, h3⟩ := window_pixel_exists hs hk hb
    rw [cellAt_writeEach _ _ _ _ hm, if_pos (List.mem_map.mpr ⟨b, List.mem_range.mpr hb, rfl⟩), windowKey,
      keyX_pixelKey h1, h3]
  · rw [cellAt_writeEach _ _ _ _ hm, if_neg]
    intro hmem
    obtain ⟨b, hb, rfl⟩ := List.mem_map.mp hmem
    exact ha b (List.mem_range.mp hb) rfl

/-- A host write of a backed PACKBUF word, byte by byte (R55). -/
theorem cellAt_writePackWord {k : Nat} {v : Word} {s : State} (hm : memoryWf s.packBuf = true)
    (hk : k < packWords s.params) :
    ∃ m, writePackWord k v s = { s with packBuf := m } ∧ memoryWf m = true ∧
      (∀ i < 4, cellAt m (4 * k + i) = some (byteOfWord v i)) ∧
      (∀ j, (∀ i < 4, j ≠ 4 * k + i) → cellAt m j = cellAt s.packBuf j) := by
  refine ⟨_, by rw [writePackWord, if_pos hk], memoryWf_writeEach _ _ _ hm, fun i hi => ?_, fun j hj => ?_⟩
  · rw [cellAt_writeEach _ _ _ _ hm, if_pos, show (4 * k + i) % 4 = i by omega]
    have : i = 0 ∨ i = 1 ∨ i = 2 ∨ i = 3 := by omega
    rcases this with rfl | rfl | rfl | rfl <;> simp
  · rw [cellAt_writeEach _ _ _ _ hm, if_neg]
    simp only [List.mem_cons, List.not_mem_nil, or_false, not_or]
    exact ⟨hj 0 (by omega), hj 1 (by omega), hj 2 (by omega), hj 3 (by omega)⟩

end Sys2Proof.Machine
end

