-- ==== Sys2Proof/Laws/Circle.lean ====
section
/-! SUPPORT. Octant pairs (R131): their range, and that their coordinates leave no gap. -/

namespace Sys2Proof.Machine

theorem octantLoop_bounds {n : Nat} {a b d x y : Int} (h : (x, y) ∈ octantLoop n a b d) :
    a ≤ x ∧ x ≤ y ∧ y ≤ b := by
  induction n generalizing a b d with
  | zero => cases h
  | succ n ih =>
    unfold octantLoop at h
    split_ifs at h with h1 h2
    · rcases List.mem_cons.mp h with h | h
      · cases h; omega
      · have := ih h; omega
    · rcases List.mem_cons.mp h with h | h
      · cases h; omega
      · have := ih h; omega
    · cases h

/-- Every octant pair (a, b) of r has 0 ≤ a ≤ b ≤ r (R131). -/
theorem octantPairs_bounds {r : Nat} {x y : Int} (h : (x, y) ∈ octantPairs r) : 0 ≤ x ∧ x ≤ y ∧ y ≤ r :=
  octantLoop_bounds h

/-- The first octant pair is (0, r) (R131). -/
theorem zero_r_mem_octantPairs (r : Nat) : ((0 : Int), (r : Int)) ∈ octantPairs r := by
  unfold octantPairs octantLoop
  rw [if_pos (by omega)]
  exact List.mem_cons_self

/-- From (a, b) on, with fuel to spare, every value between a and b is a coordinate of some pair (R131). -/
theorem octantLoop_covers {n : Nat} {a b d v : Int} (hn : b - a < n) (h1 : a ≤ v) (h2 : v ≤ b) :
    ∃ x y, (x, y) ∈ octantLoop n a b d ∧ (x = v ∨ y = v) := by
  induction n generalizing a b d with
  | zero => omega
  | succ n ih =>
    unfold octantLoop
    rw [if_pos (by omega)]
    by_cases ha : v = a
    · exact ⟨a, b, List.mem_cons_self, .inl ha.symm⟩
    by_cases hb : v = b
    · exact ⟨a, b, List.mem_cons_self, .inr hb.symm⟩
    split_ifs
    · obtain ⟨x, y, h, hv⟩ := ih (a := a + 1) (b := b) (d := d + 2 * a + 3) (by omega) (by omega) (by omega)
      exact ⟨x, y, List.mem_cons_of_mem _ h, hv⟩
    · obtain ⟨x, y, h, hv⟩ := ih (a := a + 1) (b := b - 1) (d := d + 2 * (a - b) + 5) (by omega) (by omega) (by omega)
      exact ⟨x, y, List.mem_cons_of_mem _ h, hv⟩

/-- Every value 0 … r is a coordinate of some octant pair of r (R131). -/
theorem octantPairs_covers {r : Nat} {v : Int} (h1 : 0 ≤ v) (h2 : v ≤ r) :
    ∃ x y, (x, y) ∈ octantPairs r ∧ (x = v ∨ y = v) := by
  refine octantLoop_covers ?_ h1 h2
  push_cast
  omega

end Sys2Proof.Machine
end

