-- ==== Sys2Proof/Laws/Decode.lean ====
section
/-! SUPPORT. The fields of a word and the word of fields undo each other (R71), and what the decoder's refusal means. -/

namespace Sys2Proof

theorem wordOfFields_fieldsOfWord (v : Word) : wordOfFields (fieldsOfWord v) = v := by
  apply BitVec.eq_of_getLsbD_eq
  intro i hi
  simp only [wordOfFields, fieldsOfWord, BitVec.getLsbD_append, BitVec.getLsbD_extractLsb']
  by_cases h0 : i < 8
  · simp [h0]
  · by_cases h1 : i < 9
    · obtain rfl : i = 8 := by omega
      simp
    · by_cases h2 : i < 10
      · obtain rfl : i = 9 := by omega
        simp
      · by_cases h3 : i < 12
        · simp [h0, show ¬ i - 8 < 1 by omega, show ¬ i - 8 - 1 < 1 by omega, show i - 8 - 1 - 1 < 2 by omega,
            show 10 + (i - 8 - 1 - 1) = i by omega]
        · simp [h0, show ¬ i - 8 < 1 by omega, show ¬ i - 8 - 1 < 1 by omega, show ¬ i - 8 - 1 - 1 < 2 by omega,
            show 12 + (i - 8 - 1 - 1 - 2) = i by omega]
          omega

theorem fieldsOfWord_wordOfFields (c : CmdFields) : fieldsOfWord (wordOfFields c) = c := by
  obtain ⟨o, p, f, m, r⟩ := c
  simp only [fieldsOfWord, wordOfFields, CmdFields.mk.injEq]
  refine ⟨?_, ?_, ?_, ?_, ?_⟩ <;>
    · apply BitVec.eq_of_getLsbD_eq
      intro i hi
      simp only [BitVec.getLsbD_extractLsb', BitVec.getLsbD_append, hi, decide_true, Bool.true_and]
      repeat rw [if_neg (by omega)]
      try rw [if_pos (by omega)]
      congr 1
      omega

/-- The decoder refuses a word exactly when no row of the opcode map matches it (R84). -/
theorem decode_refuses_iff (v : Word) :
    (∀ row ∈ opcodeTable, v &&& row.mask ≠ row.pattern) ↔ ∀ i, decode v ≠ .ok i := by
  unfold decode
  constructor
  · intro h i
    rw [List.find?_eq_none.mpr (by simpa using h)]
    exact nofun
  · intro h row hr hm
    cases hf : opcodeTable.find? (fun row => v &&& row.mask == row.pattern) with
    | none => exact List.find?_eq_none.mp hf row hr (by simpa using hm)
    | some r => exact h _ (by rw [hf])

/-- A word is the part that a mask keeps and the part that it drops. -/
theorem word_eq_masked_or (v m : Word) : v = (v &&& m) ||| (v &&& ~~~m) := by
  ext i hi
  simp only [BitVec.getElem_or, BitVec.getElem_and, BitVec.getElem_not]
  cases v[i] <;> cases m[i] <;> rfl

end Sys2Proof
end

