-- ==== Sys2Proof/Laws/Line.lean ====
section
/-! SUPPORT. The sequence of LinePixels (R112) in closed form: along the major axis it advances by one pixel at every
step, along the other by one pixel or none, and it ends at its end point. -/

namespace Sys2Proof.Machine

/-- R112's loop treats the two axes alike: swapping them and negating the error term swaps every pixel. -/
theorem lineLoop_swap (g : Segment) (n : Nat) (x y err : Int) :
    lineLoop { x1 := g.y1, y1 := g.x1, dx := -g.dy, dy := -g.dx, sx := g.sy, sy := g.sx } n y x (-err) =
      (lineLoop g n x y err).map Prod.swap := by
  induction n generalizing x y err with
  | zero => rfl
  | succ n ih =>
    unfold lineLoop
    by_cases hend : x = g.x1 ∧ y = g.y1
    · rw [if_pos hend, if_pos hend.symm]; rfl
    · rw [if_neg hend, if_neg (fun h => hend h.symm), List.map_cons]
      have hx : decide (2 * -err ≤ -g.dy) = decide (2 * err ≥ g.dy) := decide_eq_decide.mpr (by omega)
      have hy : decide (2 * -err ≥ -g.dx) = decide (2 * err ≤ g.dx) := decide_eq_decide.mpr (by omega)
      simp only [hx, hy, ← ih]
      congr 2
      split_ifs <;> omega

theorem linePixels_swap (x0 y0 x1 y1 : Int) : linePixels y0 x0 y1 x1 = (linePixels x0 y0 x1 y1).map Prod.swap := by
  unfold linePixels
  have h := lineLoop_swap (segmentOf x0 y0 x1 y1) (max (x1 - x0).natAbs (y1 - y0).natAbs + 1) x0 y0
    ((segmentOf x0 y0 x1 y1).dx + (segmentOf x0 y0 x1 y1).dy)
  rw [← h, Nat.max_comm]
  simp only [segmentOf]
  congr 2 <;> ring

/-- The loop on an x-major segment, from its i-th pixel, j rows along: `d` and `e` are |x1 - x0| and |y1 - y0|. -/
theorem lineLoop_xMajor {g : Segment} {d e : Nat} (hd : g.dx = d) (he : g.dy = -(e : Int)) (hed : e ≤ d) (hpos : 0 < d)
    (hsx : g.sx = 1 ∨ g.sx = -1) {x0 y0 : Int} (hx1 : g.x1 = x0 + g.sx * d) (hy1 : g.y1 = y0 + g.sy * e)
    (n i j : Nat) (err : Int) (hn : i + n = d) (herr : err = (d - e : Int) + j * d - i * e)
    (hlo : -(e : Int) ≤ 2 * err) (hhi : 2 * err ≤ 3 * d - 2 * e) :
    ∃ f : Nat → Nat, f 0 = j ∧ f n = e ∧ (∀ k < n, f (k + 1) = f k ∨ f (k + 1) = f k + 1) ∧
      lineLoop g (n + 1) (x0 + g.sx * i) (y0 + g.sy * j) err =
        (List.range (n + 1)).map (fun k => (x0 + g.sx * ((i + k : Nat) : Int), y0 + g.sy * (f k : Int))) := by
  induction n generalizing i j err with
  | zero =>
    obtain rfl : i = d := by omega
    have h1 : err = ((j : Int) + 1 - e) * i - e := by rw [herr]; ring
    have hj : j = e := by
      rcases lt_trichotomy j e with h | h | h
      · have : ((j : Int) + 1 - e) * i ≤ 0 := mul_nonpos_of_nonpos_of_nonneg (by omega) (by omega)
        omega
      · exact h
      · have : 2 * (i : Int) ≤ ((j : Int) + 1 - e) * i := mul_le_mul_of_nonneg_right (by omega) (by omega)
        omega
    refine ⟨fun _ => e, hj.symm, rfl, fun k hk => absurd hk (by omega), ?_⟩
    unfold lineLoop
    rw [if_pos ⟨hx1.symm, by rw [hy1, hj]⟩, hj]
    rfl
  | succ n ih =>
    have hne : ¬ (x0 + g.sx * (i : Int) = g.x1 ∧ y0 + g.sy * (j : Int) = g.y1) := by
      rintro ⟨h, -⟩
      rw [hx1] at h
      rcases hsx with hs | hs <;> rw [hs] at h <;> omega
    unfold lineLoop
    rw [if_neg hne]
    have hX : decide (2 * err ≥ g.dy) = true := decide_eq_true (by rw [he]; omega)
    simp only [hX, if_true]
    by_cases hY : 2 * err ≤ g.dx
    · have hY' : 2 * err ≤ (d : Int) := hd ▸ hY
      obtain ⟨f, f0, fn, fstep, hf⟩ := ih (i + 1) (j + 1) (err - e + d) (by omega)
        (by rw [herr]; push_cast; ring) (by omega) (by omega)
      refine ⟨fun k => if k = 0 then j else f (k - 1), rfl, by simpa using fn, ?_, ?_⟩
      · intro k hk
        rcases k with - | k
        · right; simpa using f0
        · simpa using fstep k (by omega)
      · rw [List.range_succ_eq_map, List.map_cons, List.map_map]
        congr 1
        simp only [hd, hY', decide_true, if_true, he]
        have e1 : x0 + g.sx * (i : Int) + g.sx = x0 + g.sx * ((i + 1 : Nat) : Int) := by push_cast; ring
        have e2 : y0 + g.sy * (j : Int) + g.sy = y0 + g.sy * ((j + 1 : Nat) : Int) := by push_cast; ring
        rw [e1, e2, show err + -(e : Int) + d = err - e + d by ring, hf]
        refine List.map_congr_left fun k _ => ?_
        simp only [Function.comp, Nat.succ_ne_zero, if_false, Nat.succ_sub_one, Prod.mk.injEq, and_true]
        rw [show i + 1 + k = i + k.succ by omega]
    · have hY' : ¬ 2 * err ≤ (d : Int) := hd ▸ hY
      obtain ⟨f, f0, fn, fstep, hf⟩ := ih (i + 1) j (err - e) (by omega)
        (by rw [herr]; push_cast; ring) (by omega) (by omega)
      refine ⟨fun k => if k = 0 then j else f (k - 1), rfl, by simpa using fn, ?_, ?_⟩
      · intro k hk
        rcases k with - | k
        · left; simpa using f0
        · simpa using fstep k (by omega)
      · rw [List.range_succ_eq_map, List.map_cons, List.map_map]
        congr 1
        simp only [hY, decide_false, Bool.false_eq_true, if_false, he, add_zero]
        have e1 : x0 + g.sx * (i : Int) + g.sx = x0 + g.sx * ((i + 1 : Nat) : Int) := by push_cast; ring
        rw [e1, show err + -(e : Int) = err - e by ring, hf]
        refine List.map_congr_left fun k _ => ?_
        simp only [Function.comp, Nat.succ_ne_zero, if_false, Nat.succ_sub_one, Prod.mk.injEq, and_true]
        rw [show i + 1 + k = i + k.succ by omega]

/-- The step sign of R112 takes the first coordinate to the last one in |x1 - x0| steps. -/
theorem stepSign_mul (x0 x1 : Int) :
    x1 = x0 + (if x0 < x1 then 1 else -1) * ((x1 - x0).natAbs : Int) := by
  split_ifs <;> omega

/-- LinePixels of an x-major segment, column by column: f k is how many rows lie between the first pixel and the k-th. -/
theorem linePixels_xMajor {x0 y0 x1 y1 : Int} (h : (y1 - y0).natAbs ≤ (x1 - x0).natAbs) :
    ∃ f : Nat → Nat, f 0 = 0 ∧ f (x1 - x0).natAbs = (y1 - y0).natAbs ∧
      (∀ k < (x1 - x0).natAbs, f (k + 1) = f k ∨ f (k + 1) = f k + 1) ∧
      linePixels x0 y0 x1 y1 = (List.range ((x1 - x0).natAbs + 1)).map
        (fun (k : Nat) => (x0 + (if x0 < x1 then 1 else -1) * (k : Int), y0 + (if y0 < y1 then 1 else -1) * (f k : Int))) := by
  rcases Nat.eq_zero_or_pos (x1 - x0).natAbs with h0 | hpos
  · obtain rfl : x1 = x0 := by omega
    obtain rfl : y1 = y0 := by omega
    refine ⟨fun _ => 0, rfl, by simp, fun k hk => absurd hk (by simp), ?_⟩
    simp [linePixels, segmentOf, lineLoop]
  · obtain ⟨f, f0, fn, fstep, hf⟩ := lineLoop_xMajor (g := segmentOf x0 y0 x1 y1) (x0 := x0) (y0 := y0) rfl rfl h hpos
      (by simp only [segmentOf]; split_ifs <;> simp) (stepSign_mul x0 x1) (stepSign_mul y0 y1)
      (x1 - x0).natAbs 0 0 (((x1 - x0).natAbs : Int) - (y1 - y0).natAbs) (by omega) (by push_cast; ring) (by omega)
      (by omega)
    refine ⟨f, f0, fn, fstep, ?_⟩
    rw [linePixels, Nat.max_eq_left h]
    simp only [Nat.cast_zero, mul_zero, add_zero, zero_add] at hf
    exact hf

/-- LinePixels of a y-major segment, row by row. -/
theorem linePixels_yMajor {x0 y0 x1 y1 : Int} (h : (x1 - x0).natAbs ≤ (y1 - y0).natAbs) :
    ∃ f : Nat → Nat, f 0 = 0 ∧ f (y1 - y0).natAbs = (x1 - x0).natAbs ∧
      (∀ k < (y1 - y0).natAbs, f (k + 1) = f k ∨ f (k + 1) = f k + 1) ∧
      linePixels x0 y0 x1 y1 = (List.range ((y1 - y0).natAbs + 1)).map
        (fun (k : Nat) => (x0 + (if x0 < x1 then 1 else -1) * (f k : Int), y0 + (if y0 < y1 then 1 else -1) * (k : Int))) := by
  obtain ⟨f, f0, fn, fstep, hf⟩ := linePixels_xMajor h
  refine ⟨f, f0, fn, fstep, ?_⟩
  rw [linePixels_swap, hf, List.map_map]
  rfl

/-- A horizontal segment is the run of its columns (R113). -/
theorem mem_linePixels_horizontal {x0 x1 y a b : Int} :
    (a, b) ∈ linePixels x0 y x1 y ↔ b = y ∧ min x0 x1 ≤ a ∧ a ≤ max x0 x1 := by
  obtain ⟨f, f0, fn, fstep, hf⟩ := linePixels_xMajor (x0 := x0) (y0 := y) (x1 := x1) (y1 := y) (by simp)
  have hz : ∀ k, k ≤ (x1 - x0).natAbs → f k = 0 := by
    have mono : ∀ m k, k + m ≤ (x1 - x0).natAbs → f k ≤ f (k + m) := by
      intro m
      induction m with
      | zero => intro k _; exact le_refl _
      | succ m ih =>
        intro k hk
        have h1 := ih k (by omega)
        have h2 := fstep (k + m) (by omega)
        rw [show k + (m + 1) = k + m + 1 by omega]
        omega
    intro k hk
    have h1 := mono ((x1 - x0).natAbs - k) k (by omega)
    rw [show k + ((x1 - x0).natAbs - k) = (x1 - x0).natAbs by omega, fn] at h1
    simpa using h1
  rw [hf]
  simp only [List.mem_map, List.mem_range, Prod.mk.injEq]
  constructor
  · rintro ⟨k, hk, rfl, rfl⟩
    rw [hz k (by omega)]
    split_ifs <;> omega
  · rintro ⟨rfl, h1, h2⟩
    refine ⟨(a - x0).natAbs, by omega, ?_, ?_⟩
    · split_ifs <;> omega
    · rw [hz _ (by omega)]; simp

/-- A vertical segment is the run of its rows (R113). -/
theorem mem_linePixels_vertical {x y0 y1 a b : Int} :
    (a, b) ∈ linePixels x y0 x y1 ↔ a = x ∧ min y0 y1 ≤ b ∧ b ≤ max y0 y1 := by
  rw [linePixels_swap, List.mem_map, ← mem_linePixels_horizontal (x0 := y0) (x1 := y1) (y := x) (a := b) (b := a)]
  constructor
  · rintro ⟨⟨c, d⟩, h, he⟩
    cases he
    exact h
  · exact fun h => ⟨(b, a), h, rfl⟩

end Sys2Proof.Machine
end

