-- ==== Sys2Proof/Laws/Meaning.lean ====
section
/-! SUPPORT. Each meaning's one spec lemma: where it completes and with which state, where it stops, and, for all of
them at once, the shape of the next state. -/

namespace Sys2Proof.Machine

open Host (Outcome)

/-! ### The active area -/

theorem dimensionsOk_iff {p : Params} {w h : Half} :
    dimensionsOk p w h = true ↔ 1 ≤ w.toNat ∧ w.toNat ≤ p.maxW ∧ 1 ≤ h.toNat ∧ h.toNat ≤ p.maxH := by
  simp only [dimensionsOk, Bool.and_eq_true, decide_eq_true_eq, and_assoc]

/-- What the latched active area is when it lies in the planes (R80). -/
theorem areaOk_facts {s : State} (h : areaOk s = true) :
    1 ≤ areaW s.latched ∧ areaW s.latched ≤ s.params.maxW ∧ 1 ≤ areaH s.latched ∧ areaH s.latched ≤ s.params.maxH :=
  dimensionsOk_iff.mp h

theorem withActiveArea_of_ok {s : State} {k : Outcome State Fault Refusal} (h : areaOk s = true) :
    withActiveArea s k = k := if_pos h

/-- A completion over the active area that answers a next state had its area in the planes, and is what it guards. -/
theorem withActiveArea_eq_next {s t : State} {k : Outcome State Fault Refusal} (h : withActiveArea s k = .next t) :
    areaOk s = true ∧ k = .next t := by
  unfold withActiveArea at h
  split_ifs at h with ha
  exact ⟨ha, h⟩

theorem areaKnown_iff {m : Memory} {s : State} :
    areaKnown m s = true ↔ ∀ x y, InArea s x y → pixelKnown m (pixelKey s.params x y) = true := by
  simp only [areaKnown, areaKeys, List.all_eq_true]
  constructor
  · exact fun h x y hxy => h _ (mem_gridKeys.mpr ⟨x, y, hxy.1, hxy.2, rfl⟩)
  · intro h a ha
    obtain ⟨x, y, hx, hy, rfl⟩ := mem_gridKeys.mp ha
    exact h x y ⟨hx, hy⟩

/-- Every pixel of the active area of plane p holds a value, said through readPixel. -/
theorem areaKnown_planeOf {s : State} {p : Plane} :
    areaKnown (planeOf s p) s = true ↔ ∀ x y, InArea s x y → ∃ b, readPixel s p x y = some b := by
  rw [areaKnown_iff]
  refine forall_congr' fun x => forall_congr' fun y => imp_congr_right fun _ => ?_
  exact ⟨fun h => ⟨_, readPixel_eq_some.mpr ⟨h, rfl⟩⟩, fun ⟨_, h⟩ => (readPixel_eq_some.mp h).1⟩

theorem areaKnown_false {s : State} {p : Plane} {x y : Nat} (hxy : InArea s x y) (h : readPixel s p x y = none) :
    areaKnown (planeOf s p) s = false := by
  rw [Bool.eq_false_iff]
  intro hk
  obtain ⟨b, hb⟩ := areaKnown_planeOf.mp hk x y hxy
  rw [h] at hb
  cases hb

/-- An active area that reads as known holds values, in the terms of statements. -/
theorem areaSpecified_of_areaKnown {s : State} {p : Plane} (h : areaKnown (planeOf s p) s = true) : AreaSpecified s p :=
  fun x y hxy => Option.ne_none_iff_exists'.mpr (areaKnown_planeOf.mp h x y hxy)

theorem packedKnown_iff {s : State} :
    packedKnown s = true ↔ ∀ j, j < packedLength s.latched → ∃ v, readPackByte s j = some v := by
  simp only [packedKnown, List.all_eq_true, List.mem_range, Option.isSome_iff_exists]

/-! ### The memories that the meanings write, cell by cell -/

theorem cellAt_plottedPlane_set {p : Plane} {ps : PixelSet} {s : State} {x y : Nat}
    (hm : memoryWf (planeOf s p) = true) (hxy : InArea s x y) (h : inSet ps x y = true) :
    cellAt (plottedPlane p ps s) (pixelKey s.params x y) = some 1#8 := by
  rw [cellAt_plottedPlane _ _ _ _ hm, if_pos (mem_plotKeys.mpr ⟨x, y, hxy.1, hxy.2, h, rfl⟩)]

theorem cellAt_plottedPlane_kept {p : Plane} {ps : PixelSet} {s : State} {a : Nat}
    (hm : memoryWf (planeOf s p) = true)
    (h : ∀ x y : Nat, InArea s x y → inSet ps x y = true → a ≠ pixelKey s.params x y) :
    cellAt (plottedPlane p ps s) a = cellAt (planeOf s p) a := by
  rw [cellAt_plottedPlane _ _ _ _ hm, if_neg]
  intro hmem
  obtain ⟨x, y, hx, hy, hi, ha⟩ := mem_plotKeys.mp hmem
  exact h x y ⟨hx, hy⟩ hi ha

theorem cellAt_combinedPlane_active {mode : CombineMode} {p : Plane} {s : State} {x y : Nat}
    (hm : memoryWf (planeOf s p) = true) (hxy : InArea s x y) :
    cellAt (combinedPlane mode p s) (pixelKey s.params x y) =
      some (bitCell (combineOp mode (pixelBit (planeOf s p) (pixelKey s.params x y))
        (pixelBit (planeOf s p.other) (pixelKey s.params x y)))) := by
  have hmem : pixelKey s.params x y ∈ areaKeys s := mem_gridKeys.mpr ⟨x, y, hxy.1, hxy.2, rfl⟩
  rw [combinedPlane, cellAt_writeEach _ _ _ _ hm, if_pos hmem]

theorem cellAt_combinedPlane_kept {mode : CombineMode} {p : Plane} {s : State} {a : Nat}
    (hm : memoryWf (planeOf s p) = true) (h : ∀ x y, InArea s x y → a ≠ pixelKey s.params x y) :
    cellAt (combinedPlane mode p s) a = cellAt (planeOf s p) a := by
  rw [combinedPlane, cellAt_writeEach _ _ _ _ hm, if_neg]
  intro hmem
  obtain ⟨x, y, hx, hy, ha⟩ := mem_gridKeys.mp hmem
  exact h x y ⟨hx, hy⟩ ha

/-- Column c's group g has its own byte index below N, from which c and g come back (R171). -/
theorem group_index {c g w n : Nat} (hc : c < w) (hg : g < n) :
    c * n + g < w * n ∧ (c * n + g) / n = c ∧ (c * n + g) % n = g := by
  refine ⟨?_, ?_, ?_⟩
  · calc c * n + g < c * n + n := by omega
      _ = (c + 1) * n := by ring
      _ ≤ w * n := Nat.mul_le_mul_right _ hc
  · rw [Nat.add_comm, Nat.add_mul_div_right _ _ (by omega), Nat.div_eq_of_lt hg, Nat.zero_add]
  · rw [Nat.add_comm, Nat.add_mul_mod_self_right, Nat.mod_eq_of_lt hg]

theorem cellAt_packedBuffer_group {p : Plane} {s : State} {c g : Nat} (hm : memoryWf s.packBuf = true)
    (hc : c < areaW s.latched) (hg : g < areaG s.latched) :
    cellAt (packedBuffer p s) (c * areaG s.latched + g) =
      some (packGroup s.params (planeOf s p) (areaH s.latched) c g) := by
  obtain ⟨h1, h2, h3⟩ := group_index hc hg
  have hmem : c * areaG s.latched + g ∈ List.range (packedLength s.latched) := List.mem_range.mpr h1
  rw [packedBuffer, cellAt_writeEach _ _ _ _ hm, if_pos hmem, h2, h3]

theorem cellAt_packedBuffer_kept {p : Plane} {s : State} {j : Nat} (hm : memoryWf s.packBuf = true)
    (h : packedLength s.latched ≤ j) : cellAt (packedBuffer p s) j = cellAt s.packBuf j := by
  rw [packedBuffer, cellAt_writeEach _ _ _ _ hm, if_neg (by rw [List.mem_range]; omega)]

/-- Bit 7-k of a packed group is the pixel of its row k, and 0 from row H on (R171, R172). -/
theorem getLsbD_packGroup {p : Params} {m : Memory} {h c g k : Nat} (hk : k < 8) :
    (packGroup p m h c g).getLsbD (7 - k) = (decide (8 * g + k < h) && pixelBit m (pixelKey p c (8 * g + k))) := by
  rw [packGroup, getLsbD_bitsLE, show 7 - (7 - k) = k by omega, decide_eq_true (by omega : 7 - k < 8), Bool.true_and]

theorem cellAt_unpackedPlane_written {p : Plane} {s : State} {c r : Nat} (hm : memoryWf (planeOf s p) = true)
    (ha : areaOk s = true) (hc : c < areaW s.latched) (hr : r < 8 * areaG s.latched) :
    cellAt (unpackedPlane p s) (pixelKey s.params c r) =
      some (bitCell (unpackedBit s.packBuf (areaG s.latched) c r)) := by
  have hW := (areaOk_facts ha).2.1
  have hmem : pixelKey s.params c r ∈ gridKeys s.params (areaW s.latched) (8 * areaG s.latched) :=
    mem_gridKeys.mpr ⟨c, r, hc, hr, rfl⟩
  rw [unpackedPlane, cellAt_writeEach _ _ _ _ hm, if_pos hmem, keyX_pixelKey (by omega), keyY_pixelKey (by omega)]

theorem cellAt_unpackedPlane_kept {p : Plane} {s : State} {a : Nat} (hm : memoryWf (planeOf s p) = true)
    (h : ∀ c r, c < areaW s.latched → r < 8 * areaG s.latched → a ≠ pixelKey s.params c r) :
    cellAt (unpackedPlane p s) a = cellAt (planeOf s p) a := by
  rw [unpackedPlane, cellAt_writeEach _ _ _ _ hm, if_neg]
  intro hmem
  obtain ⟨x, y, hx, hy, ha⟩ := mem_gridKeys.mp hmem
  exact h x y hx hy ha

/-! ### Where each meaning completes -/

theorem finish_eq (s : State) : finish s = .next { s with status := completedStatus s.status } := rfl

theorem draw_eq {p : Plane} {ps : PixelSet} {s : State} (h : areaOk s = true) :
    draw p ps s = .next { setPlane s p (plottedPlane p ps s) with status := completedStatus s.status } := by
  rw [draw, withActiveArea_of_ok h, finish_eq, plot, setPlane_status]

theorem combineActive_eq {mode : CombineMode} {p : Plane} {s : State} (h : areaOk s = true)
    (hsrc : areaKnown (planeOf s p.other) s = true)
    (hdst : combineReadsDst mode = true → areaKnown (planeOf s p) s = true) :
    combineActive mode p s =
      .next { setPlane s p (combinedPlane mode p s) with status := completedStatus s.status } := by
  rw [combineActive, withActiveArea_of_ok h, hsrc, if_neg (by decide), if_neg, finish_eq, setPlane_status]
  rintro ⟨hr, hk⟩
  rw [hdst hr] at hk
  cases hk

theorem execPack_eq {p : Plane} {s : State} (h : areaOk s = true) (hk : areaKnown (planeOf s p) s = true) :
    execPack p s = .next { s with
      packBuf := packedBuffer p s, packLen := BitVec.ofNat 16 (packedLength s.latched),
      status := completedStatus s.status } := by
  rw [execPack, withActiveArea_of_ok h, hk, if_neg (by decide)]
  rfl

theorem execUnpack_eq {p : Plane} {s : State} (h : areaOk s = true) (hk : packedKnown s = true) :
    execUnpack p s = .next { setPlane s p (unpackedPlane p s) with
      packLen := BitVec.ofNat 16 (packedLength s.latched), status := completedStatus s.status } := by
  rw [execUnpack, withActiveArea_of_ok h, hk, if_neg (by decide), finish_eq]
  simp only [setPlane_status, setPackLen, setPlane_latched]

/-! ### What a completion that answers a next state did -/

theorem draw_eq_next {p : Plane} {ps : PixelSet} {s t : State} (h : draw p ps s = .next t) :
    areaOk s = true ∧ t = { setPlane s p (plottedPlane p ps s) with status := completedStatus s.status } := by
  have ha := (withActiveArea_eq_next h).1
  rw [draw_eq ha] at h
  exact ⟨ha, (Outcome.next.inj h).symm⟩

theorem combineActive_eq_next {mode : CombineMode} {p : Plane} {s t : State} (h : combineActive mode p s = .next t) :
    areaOk s = true ∧ areaKnown (planeOf s p.other) s = true ∧
      (combineReadsDst mode = true → areaKnown (planeOf s p) s = true) ∧
      t = { setPlane s p (combinedPlane mode p s) with status := completedStatus s.status } := by
  obtain ⟨ha, hk⟩ := withActiveArea_eq_next h
  split_ifs at hk with h1 h2
  rw [finish_eq, setPlane_status] at hk
  refine ⟨ha, by simpa using h1, fun hr => ?_, (Outcome.next.inj hk).symm⟩
  by_contra hc
  exact h2 ⟨hr, by simpa using hc⟩

theorem execPack_eq_next {p : Plane} {s t : State} (h : execPack p s = .next t) :
    areaOk s = true ∧ areaKnown (planeOf s p) s = true ∧
      t = { s with
        packBuf := packedBuffer p s, packLen := BitVec.ofNat 16 (packedLength s.latched),
        status := completedStatus s.status } := by
  obtain ⟨ha, hk⟩ := withActiveArea_eq_next h
  split_ifs at hk with h1
  have h1' : areaKnown (planeOf s p) s = true := by simpa using h1
  rw [execPack_eq ha h1'] at h
  exact ⟨ha, h1', (Outcome.next.inj h).symm⟩

theorem execUnpack_eq_next {p : Plane} {s t : State} (h : execUnpack p s = .next t) :
    areaOk s = true ∧ packedKnown s = true ∧
      t = { setPlane s p (unpackedPlane p s) with
        packLen := BitVec.ofNat 16 (packedLength s.latched), status := completedStatus s.status } := by
  obtain ⟨ha, hk⟩ := withActiveArea_eq_next h
  split_ifs at hk with h1
  have h1' : packedKnown s = true := by simpa using h1
  rw [execUnpack_eq ha h1'] at h
  exact ⟨ha, h1', (Outcome.next.inj h).symm⟩

/-- Each drawing command is one `draw` (R97). -/
theorem exec_line (p : Plane) (s : State) :
    exec (.line p) s = draw p (pixelSet (linePixels (lineOperands s.latched).x0 (lineOperands s.latched).y0
      (lineOperands s.latched).x1 (lineOperands s.latched).y1)) s := rfl

theorem exec_linePolar (p : Plane) (s : State) :
    exec (.linePolar p) s = draw p (pixelSet (linePixels (polarOperands s.latched).x (polarOperands s.latched).y
      (polarEndpoint (polarOperands s.latched).x (polarOperands s.latched).y (polarOperands s.latched).angle
        (polarOperands s.latched).length).1
      (polarEndpoint (polarOperands s.latched).x (polarOperands s.latched).y (polarOperands s.latched).angle
        (polarOperands s.latched).length).2)) s := rfl

theorem exec_circle (p : Plane) (f : Bool) (s : State) :
    ∃ ps, exec (.circle p f) s = draw p ps s := ⟨_, rfl⟩

theorem exec_box (p : Plane) (f : Bool) (s : State) : ∃ ps, exec (.box p f) s = draw p ps s := ⟨_, rfl⟩

/-- The shape of every completion's next state: one plane replaced, or PackBuf replaced, or nothing; PACK_LEN as it
was or the packed length; STATUS completed; and nothing else (R98). -/
theorem exec_eq_next {i : Instr} {s t : State} (h : exec i s = .next t) :
    (i = .nop ∧ t = { s with status := completedStatus s.status }) ∨
    (∃ p, i = .clear p ∧
      t = { setPlane s p (filled (planeSize s.params) (bitCell false)) with status := completedStatus s.status }) ∨
    (∃ p ps, (i = .line p ∨ i = .linePolar p ∨ (∃ f, i = .circle p f) ∨ (∃ f, i = .box p f)) ∧ areaOk s = true ∧
      t = { setPlane s p (plottedPlane p ps s) with status := completedStatus s.status }) ∨
    (∃ p mode, ((i = .combineNormal p ∧ mode = .normal) ∨ (i = .combineOr p ∧ mode = .or) ∨
        (i = .combineAnd p ∧ mode = .and) ∨ (i = .combineXor p ∧ mode = .xor)) ∧ areaOk s = true ∧
      areaKnown (planeOf s p.other) s = true ∧ (combineReadsDst mode = true → areaKnown (planeOf s p) s = true) ∧
      t = { setPlane s p (combinedPlane mode p s) with status := completedStatus s.status }) ∨
    (∃ p, i = .pack p ∧ areaOk s = true ∧ areaKnown (planeOf s p) s = true ∧
      t = { s with
        packBuf := packedBuffer p s, packLen := BitVec.ofNat 16 (packedLength s.latched),
        status := completedStatus s.status }) ∨
    (∃ p, i = .unpack p ∧ areaOk s = true ∧ packedKnown s = true ∧
      t = { setPlane s p (unpackedPlane p s) with
        packLen := BitVec.ofNat 16 (packedLength s.latched), status := completedStatus s.status }) := by
  have drawn : ∀ p ps, exec i s = draw p ps s → areaOk s = true ∧
      t = { setPlane s p (plottedPlane p ps s) with status := completedStatus s.status } :=
    fun p ps e => draw_eq_next (e ▸ h)
  have combined : ∀ p mode, exec i s = combineActive mode p s → _ := fun p mode e => combineActive_eq_next (e ▸ h)
  cases i with
  | nop => exact .inl ⟨rfl, (Outcome.next.inj h).symm⟩
  | clear p =>
    refine .inr (.inl ⟨p, rfl, ?_⟩)
    have h' : finish _ = Outcome.next t := h
    rw [finish_eq, setPlane_status] at h'
    exact (Outcome.next.inj h').symm
  | line p => exact .inr (.inr (.inl ⟨p, _, .inl rfl, drawn p _ rfl⟩))
  | linePolar p => exact .inr (.inr (.inl ⟨p, _, .inr (.inl rfl), drawn p _ rfl⟩))
  | circle p f => exact .inr (.inr (.inl ⟨p, _, .inr (.inr (.inl ⟨f, rfl⟩)), drawn p _ rfl⟩))
  | box p f => exact .inr (.inr (.inl ⟨p, _, .inr (.inr (.inr ⟨f, rfl⟩)), drawn p _ rfl⟩))
  | combineNormal p => exact .inr (.inr (.inr (.inl ⟨p, .normal, .inl ⟨rfl, rfl⟩, combined p _ rfl⟩)))
  | combineOr p => exact .inr (.inr (.inr (.inl ⟨p, .or, .inr (.inl ⟨rfl, rfl⟩), combined p _ rfl⟩)))
  | combineAnd p => exact .inr (.inr (.inr (.inl ⟨p, .and, .inr (.inr (.inl ⟨rfl, rfl⟩)), combined p _ rfl⟩)))
  | combineXor p => exact .inr (.inr (.inr (.inl ⟨p, .xor, .inr (.inr (.inr ⟨rfl, rfl⟩)), combined p _ rfl⟩)))
  | pack p => exact .inr (.inr (.inr (.inr (.inl ⟨p, rfl, execPack_eq_next h⟩))))
  | unpack p => exact .inr (.inr (.inr (.inr (.inr ⟨p, rfl, execUnpack_eq_next h⟩))))

end Sys2Proof.Machine
end

