-- ==== Sys2Proof/Laws/PerInstr.lean ====
section
/-! SUPPORT. One statement about every command as syntax: its word carries exactly its fields, and they are legal, so
every command is well formed. -/

namespace Sys2Proof.Laws.Encoding

/-- The word of a command carries the command's fields (R71), and these are legal (R72, R76, R77): the command is well
formed. -/
def Statement (i : Instr) : Prop := fieldsOfWord (encode i) = fieldsOfInstr i ∧ instrWellFormed i = true

theorem nop : Statement .nop := ⟨fieldsOfWord_wordOfFields _, rfl⟩

theorem clear (p : Plane) : Statement (.clear p) := ⟨fieldsOfWord_wordOfFields _, by cases p <;> rfl⟩

theorem line (p : Plane) : Statement (.line p) := ⟨fieldsOfWord_wordOfFields _, by cases p <;> rfl⟩

theorem linePolar (p : Plane) : Statement (.linePolar p) := ⟨fieldsOfWord_wordOfFields _, by cases p <;> rfl⟩

theorem circle (p : Plane) (filled : Bool) : Statement (.circle p filled) :=
  ⟨fieldsOfWord_wordOfFields _, by cases p <;> cases filled <;> rfl⟩

theorem box (p : Plane) (filled : Bool) : Statement (.box p filled) :=
  ⟨fieldsOfWord_wordOfFields _, by cases p <;> cases filled <;> rfl⟩

theorem combineNormal (p : Plane) : Statement (.combineNormal p) := ⟨fieldsOfWord_wordOfFields _, by cases p <;> rfl⟩

theorem combineOr (p : Plane) : Statement (.combineOr p) := ⟨fieldsOfWord_wordOfFields _, by cases p <;> rfl⟩

theorem combineAnd (p : Plane) : Statement (.combineAnd p) := ⟨fieldsOfWord_wordOfFields _, by cases p <;> rfl⟩

theorem combineXor (p : Plane) : Statement (.combineXor p) := ⟨fieldsOfWord_wordOfFields _, by cases p <;> rfl⟩

theorem pack (p : Plane) : Statement (.pack p) := ⟨fieldsOfWord_wordOfFields _, by cases p <;> rfl⟩

theorem unpack (p : Plane) : Statement (.unpack p) := ⟨fieldsOfWord_wordOfFields _, by cases p <;> rfl⟩

end Sys2Proof.Laws.Encoding
end

