-- ==== Sys2Proof/Laws/Step.lean ====
section
/-! SUPPORT. Everything that a host write, a host read, a host action and a step can do when they answer a next state:
one case analysis per function, which later proofs cite instead of unfolding it. -/

namespace Sys2Proof.Machine

open Host (Outcome)

/-- Everything a write to CMD does (R91): it is accepted, or it raises an error. -/
theorem issue_cases (v : Word) (s : State) :
    (s.status.busy = false ∧ (∃ i, decode v = .ok i ∧ (usesWH i = true → dimensionsOk s.params s.bmW s.bmH = true)) ∧
      issue v s = accept v s) ∨
    (∃ c, c ≠ .none ∧ issue v s = { s with status := rejectedStatus c s.status }) := by
  by_cases hb : s.status.busy = true
  · exact .inr ⟨.cmdWhileBusy, nofun, by rw [issue, if_pos hb, raiseCmdError_eq]⟩
  rw [issue, if_neg hb]
  cases hd : decode v with
  | error e => exact .inr ⟨.illegalCmd, nofun, raiseCmdError_eq _ _⟩
  | ok i =>
    by_cases hw : (usesWH i && !dimensionsOk s.params s.bmW s.bmH) = true
    · exact .inr ⟨.invalidArg, nofun, by simp only [hw, if_true, raiseCmdError_eq]⟩
    · refine .inl ⟨by simpa using hb, ⟨i, rfl, fun hu => by simpa [hu] using hw⟩, ?_⟩
      simp only [hw, Bool.false_eq_true, if_false]

/-- Everything a register write does (R22): it issues, acknowledges, writes operand and dimension registers (or writes
nothing). -/
theorem writeRegister_cases {off : Nat} {v : Word} {s t : State} (h : writeRegister off v s = t) :
    (off = 0 ∧ t = issue v s) ∨ t = acknowledge v s ∨ ∃ w h args, t = { s with bmW := w, bmH := h, args := args } := by
  unfold writeRegister at h
  split_ifs at h with h0 h1
  · exact .inl ⟨h0, h.symm⟩
  · exact .inr (.inl h.symm)
  all_goals exact .inr (.inr ⟨_, _, _, h.symm⟩)

/-- Everything a host write at an offset does (R51): it issues an accepted command, raises an error, acknowledges,
writes operand and dimension registers (or nothing), or writes a window word while BUSY = 0. -/
theorem writeOffset_cases (off : Nat) (v : Word) (s : State) :
    (off = 0 ∧ s.status.busy = false ∧
      (∃ i, decode v = .ok i ∧ (usesWH i = true → dimensionsOk s.params s.bmW s.bmH = true)) ∧
      writeOffset off v s = accept v s) ∨
    (∃ c, c ≠ .none ∧ writeOffset off v s = { s with status := rejectedStatus c s.status }) ∨
    writeOffset off v s = acknowledge v s ∨
    (∃ w h args, writeOffset off v s = { s with bmW := w, bmH := h, args := args }) ∨
    (s.status.busy = false ∧ ((∃ p k, writeOffset off v s = writePlaneWord p k v s) ∨
      ∃ k, writeOffset off v s = writePackWord k v s)) := by
  by_cases hreg : off < 0x1000
  · rw [writeOffset, if_pos hreg]
    rcases writeRegister_cases (rfl : writeRegister off v s = _) with ⟨h0, h⟩ | h | h
    · rw [h]
      exact (issue_cases v s).elim (fun ⟨h1, h2, h3⟩ => .inl ⟨h0, h1, h2, h3⟩) fun h' => .inr (.inl h')
    · exact .inr (.inr (.inl h))
    · exact .inr (.inr (.inr (.inl h)))
  by_cases hbusy : s.status.busy = true
  · exact .inr (.inl ⟨.busyAccess, nofun, by rw [writeOffset, if_neg hreg, if_pos hbusy, raiseCmdError_eq]⟩)
  · refine .inr (.inr (.inr (.inr ⟨by simpa using hbusy, ?_⟩)))
    rw [writeOffset, if_neg hreg, if_neg hbusy, writeWindow]
    split_ifs
    · exact .inl ⟨.a, _, rfl⟩
    · exact .inl ⟨.b, _, rfl⟩
    · exact .inr ⟨_, rfl⟩

/-- Everything a host read at an offset does to the block: nothing, or, at a window word while BUSY = 1, BUSY_ACCESS
(R59, R60). -/
theorem readOffset_cases {off : Nat} {s t : State} {v : Word} (h : readOffset off s = .ok (v, t)) :
    t = s ∨ (s.status.busy = true ∧ t = { s with status := rejectedStatus .busyAccess s.status }) := by
  unfold readOffset at h
  split_ifs at h with h1 h2
  · cases h; exact .inl rfl
  · cases h; exact .inr ⟨h2, raiseCmdError_eq _ _⟩
  · cases hw : readWindow off s with
    | ok w => rw [hw] at h; cases h; exact .inl rfl
    | error f => rw [hw] at h; cases h

/-- Everything a host action that answers a next state does. -/
theorem hostAct_cases {a : HostAction} {s t : State} (h : hostAct a s = .next t) :
    (∃ addr v off, a = .write addr 4 v ∧ addr = s.params.base + off ∧ t = writeOffset off v s) ∨
    (∃ c o, c ≠ .none ∧ t = { s with status := rejectedStatus c s.status, observed := o }) ∨
    (∃ o acts, t = { s with observed := o, host := acts }) ∨
    (a = .reset ∧ t = resetBlock s) := by
  cases a with
  | read addr size =>
    simp only [hostAct, hostRead] at h
    cases hb : busOffset s.params addr size with
    | error r => rw [hb] at h; cases h
    | ok off =>
      rw [hb] at h
      simp only [deliver] at h
      cases hr : readOffset off s with
      | error f => rw [hr] at h; cases h
      | ok vt =>
        obtain ⟨v, u⟩ := vt
        rw [hr] at h
        cases h
        rcases readOffset_cases hr with rfl | ⟨-, rfl⟩
        · exact .inr (.inr (.inl ⟨_, _, rfl⟩))
        · exact .inr (.inl ⟨.busyAccess, _, nofun, rfl⟩)
  | write addr size v =>
    simp only [hostAct, hostWrite] at h
    cases hb : busOffset s.params addr size with
    | error r => rw [hb] at h; cases h
    | ok off =>
      rw [hb] at h
      obtain ⟨h1, -, -, rfl⟩ := busOffset_eq_ok hb
      exact .inl ⟨addr, v, off, rfl, h1, (Outcome.next.inj h).symm⟩
  | wait =>
    simp only [hostAct, hostWait] at h
    refine .inr (.inr (.inl ?_))
    split_ifs at h <;> exact ⟨_, _, (Outcome.next.inj h).symm⟩
  | waitn n =>
    simp only [hostAct, hostWaitn] at h
    refine .inr (.inr (.inl ?_))
    split_ifs at h <;> exact ⟨_, _, (Outcome.next.inj h).symm⟩
  | reset => exact .inr (.inr (.inr ⟨rfl, (Outcome.next.inj h).symm⟩))

/-- Everything a step that answers a next state does: the latched command's completion, the host's oldest action, or
nothing but the use of one named turn (R18). -/
theorem step_cases {s t : State} (h : step s = .next t) :
    (∃ i rest, s.status.busy = true ∧ decode s.latched.cmd = .ok i ∧ exec i { s with turns := rest } = .next t) ∨
    (∃ a acts rest, s.host = a :: acts ∧ hostAct a { s with turns := rest, host := acts } = .next t) ∨
    (∃ rest, t = { s with turns := rest }) := by
  have engine : ∀ rest, engineTurn { s with turns := rest } = .next t →
      (∃ i rest, s.status.busy = true ∧ decode s.latched.cmd = .ok i ∧ exec i { s with turns := rest } = .next t) ∨
      (∃ rest, t = { s with turns := rest }) := by
    intro rest he
    unfold engineTurn at he
    split_ifs at he with hb
    · cases hd : decode s.latched.cmd with
      | ok i => rw [hd] at he; exact .inl ⟨i, rest, hb, rfl, he⟩
      | error e => rw [hd] at he; cases he
    · exact .inr ⟨rest, (Outcome.next.inj he).symm⟩
  have host : ∀ rest, hostTurn { s with turns := rest } = .next t →
      (∃ a acts rest, s.host = a :: acts ∧ hostAct a { s with turns := rest, host := acts } = .next t) ∨
      (∃ rest, t = { s with turns := rest }) := by
    intro rest hh
    unfold hostTurn at hh
    cases hl : s.host with
    | nil =>
      simp only [hl] at hh
      exact .inr ⟨rest, by rw [← Outcome.next.inj hh]⟩
    | cons a acts =>
      simp only [hl] at hh
      exact .inl ⟨a, acts, rest, rfl, hh⟩
  unfold step at h
  cases ht : s.turns with
  | nil =>
    have hs : s = { s with turns := [] } := by cases s; cases ht; rfl
    simp only [ht] at h
    split_ifs at h
    · rw [hs] at h
      exact (engine [] h).elim .inl fun h' => .inr (.inr h')
    · rw [hs] at h
      exact .inr (host [] h)
  | cons g rest =>
    cases g with
    | engine =>
      simp only [ht] at h
      exact (engine rest h).elim .inl fun h' => .inr (.inr h')
    | host =>
      simp only [ht] at h
      exact .inr (host rest h)

end Sys2Proof.Machine
end

