-- ==== Sys2Proof/Laws/Storage.lean ====
section
/-! SUPPORT. Every memory operation keeps the canonical form, writes only storage that exists, and writes bits into the
planes. -/

namespace Sys2Proof.Machine

theorem storageOk_iff {n : Nat} {m : Memory} : storageOk n m = true ↔ memoryWf m = true ∧ keysBelow n m = true := by
  simp only [storageOk, Bool.and_eq_true]

/-- What memoriesOk says, plane by plane. -/
theorem memoriesOk_iff {s : State} :
    memoriesOk s = true ↔
      (∀ p, storageOk (planeSize s.params) (planeOf s p) = true ∧ cellsAreBits (planeOf s p) = true) ∧
      storageOk (packBytes s.params) s.packBuf = true := by
  simp only [memoriesOk, Bool.and_eq_true, and_assoc]
  constructor
  · rintro ⟨h1, h2, h3, h4, h5⟩
    exact ⟨fun p => by cases p; exacts [⟨h1, h2⟩, ⟨h3, h4⟩], h5⟩
  · rintro ⟨h, h5⟩
    exact ⟨(h .a).1, (h .a).2, (h .b).1, (h .b).2, h5⟩

/-- Canonical memories: what the statements about one command ask of its target. -/
theorem memoryWf_of_memoriesOk {s : State} (h : memoriesOk s = true) :
    (∀ p, memoryWf (planeOf s p) = true) ∧ memoryWf s.packBuf = true :=
  ⟨fun p => (storageOk_iff.mp ((memoriesOk_iff.mp h).1 p).1).1, (storageOk_iff.mp (memoriesOk_iff.mp h).2).1⟩

/-- A state with the same parameters and memories has them as sound. -/
theorem memoriesOk_congr {s t : State} (hp : t.params = s.params) (ha : t.planeA = s.planeA) (hb : t.planeB = s.planeB)
    (hk : t.packBuf = s.packBuf) : memoriesOk t = memoriesOk s := by
  simp only [memoriesOk, hp, ha, hb, hk]

theorem storageOk_writeEach {n : Nat} {m : Memory} {keys : List Nat} {val : Nat → Byte} (hm : storageOk n m = true)
    (hk : ∀ a ∈ keys, a < n) : storageOk n (writeEach m keys val) = true :=
  storageOk_iff.mpr ⟨memoryWf_writeEach _ _ _ (storageOk_iff.mp hm).1, keysBelow_writeEach (storageOk_iff.mp hm).2 hk⟩

theorem memoriesOk_setPlane {s : State} {p : Plane} {m : Memory} (h : memoriesOk s = true)
    (hm : storageOk (planeSize s.params) m = true) (hb : cellsAreBits m = true) : memoriesOk (setPlane s p m) = true := by
  obtain ⟨h1, h2⟩ := memoriesOk_iff.mp h
  have ha := h1 .a
  have hb' := h1 .b
  cases p <;> simp_all [memoriesOk, setPlane, planeOf]

/-- CLEAR's plane (R96). -/
theorem storageOk_filled (n : Nat) (b : Bool) :
    storageOk n (filled n (bitCell b)) = true ∧ cellsAreBits (filled n (bitCell b)) = true := by
  refine ⟨storageOk_iff.mpr ⟨memoryWf_filled _ _, keysBelow_filled _ _⟩, cellsAreBits_iff.mpr fun c hc => ?_⟩
  obtain ⟨a, -, rfl⟩ := List.mem_map.mp hc
  exact bitCell_zero_or_one b

theorem areaKeys_exist {s : State} (ha : areaOk s = true) {a : Nat} (h : a ∈ areaKeys s) : a < planeSize s.params := by
  obtain ⟨x, y, hx, hy, rfl⟩ := mem_gridKeys.mp h
  obtain ⟨-, h1, -, h2⟩ := areaOk_facts ha
  exact pixelKey_lt_planeSize (by omega) (by omega)

/-- Plot's plane (R93). -/
theorem storageOk_plottedPlane {p : Plane} {ps : PixelSet} {s : State} (h : memoriesOk s = true) (ha : areaOk s = true) :
    storageOk (planeSize s.params) (plottedPlane p ps s) = true ∧ cellsAreBits (plottedPlane p ps s) = true := by
  obtain ⟨h1, h2⟩ := (memoriesOk_iff.mp h).1 p
  refine ⟨storageOk_writeEach h1 fun a hk => ?_, cellsAreBits_writeEach h2 fun _ _ => bitCell_zero_or_one true⟩
  obtain ⟨x, y, hx, hy, -, rfl⟩ := mem_plotKeys.mp hk
  obtain ⟨-, hw, -, hh⟩ := areaOk_facts ha
  exact pixelKey_lt_planeSize (by omega) (by omega)

/-- COMBINE's plane (R160). -/
theorem storageOk_combinedPlane {mode : CombineMode} {p : Plane} {s : State} (h : memoriesOk s = true)
    (ha : areaOk s = true) :
    storageOk (planeSize s.params) (combinedPlane mode p s) = true ∧ cellsAreBits (combinedPlane mode p s) = true := by
  obtain ⟨h1, h2⟩ := (memoriesOk_iff.mp h).1 p
  exact ⟨storageOk_writeEach h1 fun a hk => areaKeys_exist ha hk,
    cellsAreBits_writeEach h2 fun _ _ => bitCell_zero_or_one _⟩

/-- 8·G rows exist: MAX_H is a multiple of 8 (R7, R173). -/
theorem paddedRows_exist {s : State} (hp : s.params.wellFormed = true) (ha : areaOk s = true) :
    8 * areaG s.latched ≤ s.params.maxH := by
  obtain ⟨-, -, -, hh⟩ := areaOk_facts ha
  obtain ⟨-, -, -, h8, -⟩ := params_facts hp
  simp only [areaG, ceil8]
  omega

/-- N never exceeds PACKBUF_BYTES (R170). -/
theorem packedLength_le {s : State} (hp : s.params.wellFormed = true) (ha : areaOk s = true) :
    packedLength s.latched ≤ packBytes s.params := by
  obtain ⟨-, hw, -, -⟩ := areaOk_facts ha
  have hg := paddedRows_exist hp ha
  rw [packBytes, Nat.le_div_iff_mul_le (by decide), packedLength]
  calc areaW s.latched * areaG s.latched * 8 = areaW s.latched * (8 * areaG s.latched) := by ring
    _ ≤ s.params.maxW * s.params.maxH := Nat.mul_le_mul hw hg

/-- UNPACK's plane (R173). -/
theorem storageOk_unpackedPlane {p : Plane} {s : State} (hp : s.params.wellFormed = true) (h : memoriesOk s = true)
    (ha : areaOk s = true) :
    storageOk (planeSize s.params) (unpackedPlane p s) = true ∧ cellsAreBits (unpackedPlane p s) = true := by
  obtain ⟨h1, h2⟩ := (memoriesOk_iff.mp h).1 p
  refine ⟨storageOk_writeEach h1 fun a hk => ?_, cellsAreBits_writeEach h2 fun _ _ => bitCell_zero_or_one _⟩
  obtain ⟨x, y, hx, hy, rfl⟩ := mem_gridKeys.mp hk
  obtain ⟨-, hw, -, -⟩ := areaOk_facts ha
  have := paddedRows_exist hp ha
  exact pixelKey_lt_planeSize (by omega) (by omega)

/-- PACK's buffer (R172). -/
theorem storageOk_packedBuffer {p : Plane} {s : State} (hp : s.params.wellFormed = true) (h : memoriesOk s = true)
    (ha : areaOk s = true) : storageOk (packBytes s.params) (packedBuffer p s) = true := by
  refine storageOk_writeEach (memoriesOk_iff.mp h).2 fun a hk => ?_
  have h1 : a < packedLength s.latched := List.mem_range.mp hk
  have := packedLength_le hp ha
  omega

/-- A host write of a plane word (R53). -/
theorem memoriesOk_writePlaneWord {p : Plane} {k : Nat} {v : Word} {s : State} (hp : s.params.wellFormed = true)
    (h : memoriesOk s = true) : memoriesOk (writePlaneWord p k v s) = true := by
  unfold writePlaneWord
  split_ifs with hk
  · obtain ⟨h1, h2⟩ := (memoriesOk_iff.mp h).1 p
    refine memoriesOk_setPlane h (storageOk_writeEach h1 fun a hm => ?_)
      (cellsAreBits_writeEach h2 fun _ _ => bitCell_zero_or_one _)
    obtain ⟨b, hb, rfl⟩ := List.mem_map.mp hm
    obtain ⟨hx, hy, -⟩ := window_pixel_exists hp hk (List.mem_range.mp hb)
    exact pixelKey_lt_planeSize hx hy
  · exact h

/-- A host write of a PACKBUF word (R55). -/
theorem memoriesOk_writePackWord {k : Nat} {v : Word} {s : State} (hp : s.params.wellFormed = true)
    (h : memoriesOk s = true) : memoriesOk (writePackWord k v s) = true := by
  unfold writePackWord
  split_ifs with hk
  · obtain ⟨h1, h2⟩ := memoriesOk_iff.mp h
    refine memoriesOk_iff.mpr ⟨h1, storageOk_writeEach h2 fun a hm => ?_⟩
    obtain ⟨rw, n, -, -, -, -, -, -, hb, -, hw⟩ := params_shape hp
    simp only [List.mem_cons, List.not_mem_nil, or_false] at hm
    show a < packBytes s.params
    omega
  · exact h

/-- Every completion that answers a next state keeps the memories sound. -/
theorem memoriesOk_exec {i : Instr} {s t : State} (hp : s.params.wellFormed = true) (h : memoriesOk s = true)
    (he : exec i s = .next t) : memoriesOk t = true := by
  rcases exec_eq_next he with ⟨-, rfl⟩ | ⟨p, -, rfl⟩ | ⟨p, ps, -, ha, rfl⟩ | ⟨p, mode, -, ha, -, -, rfl⟩ |
    ⟨p, -, ha, -, rfl⟩ | ⟨p, -, ha, -, rfl⟩
  · exact h
  · exact memoriesOk_setPlane h (storageOk_filled _ _).1 (storageOk_filled _ _).2
  · exact memoriesOk_setPlane h (storageOk_plottedPlane h ha).1 (storageOk_plottedPlane h ha).2
  · exact memoriesOk_setPlane h (storageOk_combinedPlane h ha).1 (storageOk_combinedPlane h ha).2
  · exact memoriesOk_iff.mpr ⟨(memoriesOk_iff.mp h).1, storageOk_packedBuffer hp h ha⟩
  · exact memoriesOk_setPlane h (storageOk_unpackedPlane hp h ha).1 (storageOk_unpackedPlane hp h ha).2

end Sys2Proof.Machine
end

