-- ==== Sys2Proof/Laws/Trig.lean ====
section
/-! SUPPORT. Why the integer table of Machine/Polar.lean gives R116's exact endpoint: every entry is the real sine to
within 10^-17, and at every angle but 30 degrees a fraction with an odd denominator keeps the product of a length below
65536 away from every half-integer by more than that difference can bridge. -/

namespace Sys2Proof.Machine

open Complex

/-! ### The table is the sine to within 10^-17 -/

/-- The table's point of the circle of radius trigUnit at t degrees. -/
noncomputable def tablePoint (t : Nat) : ℂ := ⟨(sinQuarter (90 - t) : ℝ), (sinQuarter t : ℝ)⟩

/-- The point of the unit circle at t degrees. -/
noncomputable def circlePoint (t : Nat) : ℂ := exp (((t : ℝ) * (Real.pi / 180) : ℝ) * I)

theorem norm_circlePoint (t : Nat) : ‖circlePoint t‖ = 1 := norm_exp_ofReal_mul_I _

theorem circlePoint_succ (t : Nat) : circlePoint (t + 1) = circlePoint t * circlePoint 1 := by
  rw [circlePoint, circlePoint, circlePoint, ← exp_add]
  congr 1
  push_cast
  ring

/-- Turning the circle by x moves it by no more than |x|. -/
theorem norm_exp_sub_exp_le (x y : ℝ) : ‖exp (x * I) - exp (y * I)‖ ≤ |x - y| := by
  have h : exp (x * I) - exp (y * I) = exp (y * I) * (exp (I * ((x - y : ℝ) : ℂ)) - 1) := by
    rw [mul_sub, ← exp_add, mul_one]
    congr 2
    push_cast
    ring
  rw [h, norm_mul, norm_exp_ofReal_mul_I, one_mul]
  exact Real.norm_exp_I_mul_ofReal_sub_one_le

/-- One degree, rounded at the 20th decimal of pi. -/
noncomputable def oneDegree : ℝ := 3.14159265358979323846 / 180

theorem oneDegree_close : |oneDegree - Real.pi / 180| ≤ 1e-22 := by
  have h1 := Real.pi_gt_d20
  have h2 := Real.pi_lt_d20
  rw [oneDegree, abs_le]
  constructor <;> linarith

/-- The first ten terms of the exponential series at x·i. -/
theorem exp_series (x : ℝ) :
    ∑ m ∈ Finset.range 10, ((x : ℂ) * I) ^ m / (m.factorial : ℂ) =
      ⟨1 - x ^ 2 / 2 + x ^ 4 / 24 - x ^ 6 / 720 + x ^ 8 / 40320,
        x - x ^ 3 / 6 + x ^ 5 / 120 - x ^ 7 / 5040 + x ^ 9 / 362880⟩ := by
  have i2 : I ^ 2 = -1 := I_sq
  have i3 : I ^ 3 = -I := by rw [pow_succ, i2]; ring
  have i4 : I ^ 4 = 1 := by rw [pow_succ, i3]; simp
  have i5 : I ^ 5 = I := by rw [pow_succ, i4]; ring
  have i6 : I ^ 6 = -1 := by rw [pow_succ, i5]; simp
  have i7 : I ^ 7 = -I := by rw [pow_succ, i6]; ring
  have i8 : I ^ 8 = 1 := by rw [pow_succ, i7]; simp
  have i9 : I ^ 9 = I := by rw [pow_succ, i8]; ring
  rw [mk_eq_add_mul_I]
  simp only [Finset.sum_range_succ, Finset.sum_range_zero, mul_pow, i2, i3, i4, i5, i6, i7, i8, i9, Nat.factorial]
  push_cast
  ring

theorem norm_le_abs_add_abs (z : ℂ) : ‖z‖ ≤ |z.re| + |z.im| := norm_le_abs_re_add_abs_im z

/-- The table's point at 1 degree is the circle's to within one unit of the table. -/
theorem tablePoint_one_close : ‖tablePoint 1 / (trigUnit : ℂ) - circlePoint 1‖ ≤ 1 / (trigUnit : ℝ) := by
  have h1 : ‖exp ((oneDegree : ℂ) * I) - circlePoint 1‖ ≤ 1e-22 := by
    refine le_trans (le_of_eq_of_le ?_ (norm_exp_sub_exp_le oneDegree (Real.pi / 180))) oneDegree_close
    rw [circlePoint, Nat.cast_one, one_mul]
  have h2 := exp_bound (x := (oneDegree : ℂ) * I) (n := 10)
    (by rw [norm_mul, norm_I, mul_one, norm_real, Real.norm_eq_abs, oneDegree, abs_of_pos] <;> norm_num) (by norm_num)
  rw [exp_series, norm_mul, norm_I, mul_one, norm_real, Real.norm_eq_abs,
    abs_of_pos (show 0 < oneDegree by rw [oneDegree]; norm_num)] at h2
  have h3 : oneDegree ^ 10 * (((10 : Nat).succ : ℝ) * (((10 : Nat).factorial : ℝ) * ((10 : Nat) : ℝ))⁻¹) ≤ 1e-22 := by
    rw [oneDegree]
    norm_num [Nat.factorial]
  have h4 : ‖tablePoint 1 / (trigUnit : ℂ) -
      ⟨1 - oneDegree ^ 2 / 2 + oneDegree ^ 4 / 24 - oneDegree ^ 6 / 720 + oneDegree ^ 8 / 40320,
        oneDegree - oneDegree ^ 3 / 6 + oneDegree ^ 5 / 120 - oneDegree ^ 7 / 5040 + oneDegree ^ 9 / 362880⟩‖ ≤ 5e-21 := by
    refine le_trans (norm_le_abs_add_abs _) ?_
    have e1 : sinQuarter (90 - 1) = 99984769515639123916 := by decide +kernel
    have e2 : sinQuarter 1 = 1745240643728351282 := by decide +kernel
    rw [sub_re, sub_im, div_natCast_re, div_natCast_im, tablePoint, e1, e2, trigUnit, oneDegree]
    refine le_trans (add_le_add (b := 3e-21) (d := 1e-21) ?_ ?_) (by norm_num)
    · rw [abs_le]; constructor <;> norm_num
    · rw [abs_le]; constructor <;> norm_num
  have hu : (1 : ℝ) / (trigUnit : ℝ) = 1e-20 := by rw [trigUnit]; norm_num
  rw [hu]
  calc ‖tablePoint 1 / (trigUnit : ℂ) - circlePoint 1‖
      ≤ ‖tablePoint 1 / (trigUnit : ℂ) - _‖ + ‖_ - circlePoint 1‖ := norm_sub_le_norm_sub_add_norm_sub _ _ _
    _ ≤ 5e-21 + (‖_ - exp ((oneDegree : ℂ) * I)‖ + ‖exp ((oneDegree : ℂ) * I) - circlePoint 1‖) :=
        add_le_add h4 (norm_sub_le_norm_sub_add_norm_sub _ _ _)
    _ ≤ 5e-21 + (1e-22 + 1e-22) := by
        rw [norm_sub_rev] at h2
        exact add_le_add le_rfl (add_le_add (h2.trans h3) h1)
    _ ≤ 1e-20 := by norm_num

/-- Turning the table's point by the table's one degree gives the table's next point, up to rounding. -/
theorem table_turns : ∀ t < 90,
    ((sinQuarter (90 - (t + 1)) * trigUnit : Int) -
        (sinQuarter (90 - t) * sinQuarter 89 - sinQuarter t * sinQuarter 1)).natAbs ≤ 2 * trigUnit ∧
      ((sinQuarter (t + 1) * trigUnit : Int) -
        (sinQuarter t * sinQuarter 89 + sinQuarter (90 - t) * sinQuarter 1)).natAbs ≤ 2 * trigUnit := by
  decide +kernel

/-- The table's point at t degrees is the circle's to within 6·t units of the table. -/
theorem tablePoint_close (t : Nat) (ht : t ≤ 90) : ‖tablePoint t - trigUnit * circlePoint t‖ ≤ 6 * t := by
  have hU : (0 : ℝ) < (trigUnit : ℝ) := by rw [trigUnit]; norm_num
  induction t with
  | zero =>
    have e : tablePoint 0 = trigUnit * circlePoint 0 := by
      have e1 : sinQuarter (90 - 0) = trigUnit := by decide +kernel
      have e2 : sinQuarter 0 = 0 := by decide +kernel
      rw [tablePoint, e1, e2, circlePoint]
      apply Complex.ext <;> simp
    rw [e, sub_self, norm_zero]
    simp
  | succ t ih =>
    have h := ih (by omega)
    have hround : ‖tablePoint (t + 1) - tablePoint t * (tablePoint 1 / (trigUnit : ℂ))‖ ≤ 4 := by
      obtain ⟨h1, h2⟩ := table_turns t (by omega)
      have key : ∀ a b : Int, (a - b).natAbs ≤ 2 * trigUnit → |(a : ℝ) / trigUnit - b / trigUnit| ≤ 2 := by
        intro a b hab
        rw [← sub_div, abs_div, abs_of_pos hU, div_le_iff₀ hU, ← Int.cast_sub, ← Int.cast_abs, Int.abs_eq_natAbs]
        exact_mod_cast hab
      have k1 := key _ _ h1
      have k2 := key _ _ h2
      refine le_trans (norm_le_abs_add_abs _) ?_
      have hne : (trigUnit : ℝ) ≠ 0 := hU.ne'
      refine le_trans (add_le_add (b := 2) (d := 2) (le_of_eq_of_le ?_ k1) (le_of_eq_of_le ?_ k2)) (by norm_num)
      · congr 1
        rw [sub_re, mul_re, div_natCast_re, div_natCast_im]
        simp only [tablePoint]
        push_cast
        rw [mul_div_cancel_right₀ _ hne]
        ring
      · congr 1
        rw [sub_im, mul_im, div_natCast_re, div_natCast_im]
        simp only [tablePoint]
        push_cast
        rw [mul_div_cancel_right₀ _ hne]
        ring
    have hsize : ‖tablePoint t‖ ≤ 2 * trigUnit := by
      have h1 : ‖tablePoint t‖ ≤ ‖tablePoint t - trigUnit * circlePoint t‖ + ‖(trigUnit : ℂ) * circlePoint t‖ := by
        simpa using norm_add_le (tablePoint t - trigUnit * circlePoint t) ((trigUnit : ℂ) * circlePoint t)
      rw [norm_mul, norm_circlePoint, mul_one, norm_natCast] at h1
      have h2 : (t : ℝ) ≤ 90 := by exact_mod_cast (by omega : t ≤ 90)
      have h3 : (540 : ℝ) ≤ trigUnit := by rw [trigUnit]; norm_num
      linarith
    have hsum : tablePoint (t + 1) - trigUnit * circlePoint (t + 1) =
        (tablePoint (t + 1) - tablePoint t * (tablePoint 1 / (trigUnit : ℂ))) +
          tablePoint t * (tablePoint 1 / (trigUnit : ℂ) - circlePoint 1) +
          (tablePoint t - trigUnit * circlePoint t) * circlePoint 1 := by
      rw [circlePoint_succ]
      ring
    rw [hsum]
    calc _ ≤ ‖tablePoint (t + 1) - tablePoint t * (tablePoint 1 / (trigUnit : ℂ))‖ +
            ‖tablePoint t * (tablePoint 1 / (trigUnit : ℂ) - circlePoint 1)‖ +
            ‖(tablePoint t - trigUnit * circlePoint t) * circlePoint 1‖ := norm_add₃_le
      _ ≤ 4 + 2 + 6 * t := by
          rw [norm_mul (_ - _ : ℂ), norm_circlePoint, mul_one, norm_mul (tablePoint t)]
          refine add_le_add (add_le_add hround ?_) h
          calc _ ≤ 2 * (trigUnit : ℝ) * (1 / (trigUnit : ℝ)) :=
                mul_le_mul hsize tablePoint_one_close (norm_nonneg _) (by linarith)
            _ = 2 := by rw [mul_one_div, mul_div_assoc, div_self hU.ne', mul_one]
      _ ≤ 6 * ((t + 1 : Nat) : ℝ) := by push_cast; linarith

/-- The table's entry at t degrees is the sine to within 1000 units of the 20th decimal. -/
theorem sinQuarter_close {t : Nat} (ht : t ≤ 90) :
    |(sinQuarter t : ℝ) / trigUnit - Real.sin (t * Real.pi / 180)| ≤ 1000 / (trigUnit : ℝ) := by
  have hU : (0 : ℝ) < (trigUnit : ℝ) := by rw [trigUnit]; norm_num
  have h1 := le_trans (abs_im_le_norm _) (tablePoint_close t ht)
  have h2 : (6 : ℝ) * t ≤ 1000 := by
    have : (t : ℝ) ≤ 90 := by exact_mod_cast ht
    linarith
  have e : (tablePoint t - trigUnit * circlePoint t).im = sinQuarter t - trigUnit * Real.sin (t * Real.pi / 180) := by
    rw [sub_im, circlePoint, exp_mul_I, mul_im, natCast_re, natCast_im, zero_mul, add_zero]
    rw [add_im, mul_I_im, ← ofReal_cos, ← ofReal_sin, ofReal_im, ofReal_re, zero_add, mul_div_assoc]
    rfl
  rw [e] at h1
  rw [le_div_iff₀ hU, ← abs_of_pos hU, ← abs_mul, abs_of_pos hU, sub_mul, div_mul_cancel₀ _ hU.ne', mul_comm (Real.sin _)]
  linarith

/-! ### No length below 65536 comes near a half-integer -/

/-- For each degree 0 … 90, a fraction p / q that is near the sine; q is odd but at 30 degrees. -/
def sineFractions : List (Nat × Nat) :=
  [(0, 1), (991, 56783), (3627, 103927), (20266, 387229), (9318, 133579), (5440, 62417), (7578, 72497), (3703, 30385), (3659, 26291), (9726, 62173), (18186, 104729), (17555, 92003), (26237, 126193)] ++
  [(9077, 40351), (8902, 36797), (70618, 272847), (22629, 82097), (1054, 3605), (23184, 75025), (33737, 103625), (1752844, 5124973), (24760, 69091), (40350, 107713), (53672, 137363), (79166, 194637), (9604, 22725)] ++
  [(50101, 114289), (1686409, 3714635), (43328, 92291), (35155, 72513), (1, 2), (60398, 117269), (31571, 59577), (57253, 105121), (272011, 486435), (28879, 50349), (4456, 7581), (195032, 324073), (18303, 29729)] ++
  [(45902, 72939), (25752, 40063), (63662, 97037), (25437, 38015), (150545, 220741), (129617, 186591), (33461, 47321), (66813, 92881), (50293, 68767), (49081, 66045), (71191, 94329), (4309, 5625), (174526, 224573)] ++
  [(50123, 63607), (62510, 78271), (98209, 121393), (47664, 58187), (15600, 18817), (51881, 61861), (52897, 62375), (65125, 75977), (35113, 40545), (24436, 27939), (3319, 3759), (97101, 108979), (124092, 138065)] ++
  [(4411, 4867), (80075, 87653), (33476, 36367), (36799, 39689), (240045, 257123), (99723, 106123), (81620, 86323), (54506, 57311), (803274, 839977), (324744, 337831), (129209, 133767), (81075, 83557), (624009, 640423)] ++
  [(12578, 12859), (113909, 116041), (102939, 104527), (1663120, 1683851), (50572, 51069), (14248, 14355), (145599, 146401), (101575, 101963), (105246, 105503), (38620, 38673), (11484, 11491), (446405, 446473), (1, 1)]

/-- The fractions do what is asked of them, at every degree but 30: checked on the table's integers. -/
theorem sineFractions_certify : ∀ t < 91, t ≠ 30 →
    (sineFractions.getD t (0, 0)).2 % 2 = 1 ∧
      2 * 65535 * (1000 * (sineFractions.getD t (0, 0)).2 +
        ((sinQuarter t * (sineFractions.getD t (0, 0)).2 : Int) - (sineFractions.getD t (0, 0)).1 * trigUnit).natAbs) <
        trigUnit := by
  decide +kernel

/-! ### Rounding -/

/-- roundQuotient n d is a nearest integer of n / d. -/
theorem roundQuotient_near (n d : Nat) (hd : 0 < d) : |(n : ℝ) / d - (roundQuotient n d : ℝ)| ≤ 1 / 2 := by
  have hd' : (0 : ℝ) < d := by exact_mod_cast hd
  have hn : (n : ℝ) = d * (n / d : Nat) + (n % d : Nat) := by exact_mod_cast (Nat.div_add_mod n d).symm
  have e : (n : ℝ) / d = (n / d : Nat) + (n % d : Nat) / (d : ℝ) := by rw [hn]; field_simp
  have hr0 : (0 : ℝ) ≤ ((n % d : Nat) : ℝ) / d := by positivity
  have hr1 : ((n % d : Nat) : ℝ) / d ≤ 1 := by
    rw [div_le_one hd']
    exact_mod_cast (Nat.mod_lt n hd).le
  have half : ∀ {a : Nat}, ((a : ℝ) / d ≤ 1 / 2 ↔ 2 * a ≤ d) ∧ (1 / 2 ≤ (a : ℝ) / d ↔ d ≤ 2 * a) := by
    intro a
    rw [div_le_iff₀ hd', le_div_iff₀ hd']
    constructor <;> constructor <;> intro h
    · have : (2 * a : ℝ) ≤ d := by linarith
      exact_mod_cast this
    · have : (2 * a : ℝ) ≤ d := by exact_mod_cast h
      linarith
    · have : (d : ℝ) ≤ 2 * a := by linarith
      exact_mod_cast this
    · have : (d : ℝ) ≤ 2 * a := by exact_mod_cast h
      linarith
  rw [e]
  unfold roundQuotient
  simp only
  split_ifs with h1 h2 h3
  · have := half.1.mpr h1.le
    rw [abs_le]
    constructor <;> linarith
  · have := half.2.mpr h2.le
    rw [abs_le]
    push_cast
    constructor <;> linarith
  · have := half.1.mpr (by omega : 2 * (n % d) ≤ d)
    rw [abs_le]
    constructor <;> linarith
  · have := half.2.mpr (by omega : d ≤ 2 * (n % d))
    rw [abs_le]
    push_cast
    constructor <;> linarith

/-- A number within 1 / (2q) of n·p / q, q odd, has the same nearest integers as any other such number, and none of them
is a tie. -/
theorem nearest_of_close {p q m : Nat} {v : Int} {x y : ℝ} (hq : q % 2 = 1)
    (hx : |x - m * p / q| < 1 / (2 * q)) (hy : |y - m * p / q| < 1 / (2 * q)) (hv : |y - v| ≤ 1 / 2) :
    |x - v| < 1 / 2 := by
  have hq0 : (0 : ℝ) < q := by exact_mod_cast (by omega : 0 < q)
  have cell : |(m * p / q : ℝ) - v| ≤ 1 / 2 - 1 / (2 * q) ∨ 1 / 2 + 1 / (2 * q) ≤ |(m * p / q : ℝ) - v| := by
    have e : (m * p / q : ℝ) - v = ((m * p - v * q : Int) : ℝ) / q := by
      push_cast
      field_simp
    have ea : |((m * p - v * q : Int) : ℝ)| = (((m * p - v * q : Int).natAbs : Nat) : ℝ) := by
      rw [← Int.cast_abs, Int.abs_eq_natAbs]
      rfl
    rw [e, abs_div, abs_of_pos hq0, ea]
    generalize (m * p - v * q : Int).natAbs = k
    have e1 : (1 / 2 - 1 / (2 * q) : ℝ) = (q - 1) / 2 / q := by field_simp
    have e2 : (1 / 2 + 1 / (2 * q) : ℝ) = (q + 1) / 2 / q := by field_simp
    rw [e1, e2, div_le_div_iff_of_pos_right hq0, div_le_div_iff_of_pos_right hq0]
    rcases Nat.lt_or_ge k ((q + 1) / 2) with h | h
    · left
      have : 2 * k + 1 ≤ q := by omega
      have : (2 * k + 1 : ℝ) ≤ q := by exact_mod_cast this
      linarith
    · right
      have : q + 1 ≤ 2 * k := by omega
      have : (q + 1 : ℝ) ≤ 2 * k := by exact_mod_cast this
      linarith
  have t1 : |(m * p / q : ℝ) - v| ≤ |y - m * p / q| + |y - v| := by
    rw [abs_sub_comm y]
    exact abs_sub_le _ _ _
  have t2 : |x - v| ≤ |x - m * p / q| + |(m * p / q : ℝ) - v| := abs_sub_le _ _ _
  rcases cell with h | h <;> linarith

/-- The table's rounding is round_he of the exact product of a length below 65536 and a sine of 0 to 90 degrees (R14,
R116). -/
theorem roundQuotient_sine {t n : Nat} (ht : t ≤ 90) (hn : n < 65536) (h30 : t ≠ 30) :
    |n * Real.sin (t * Real.pi / 180) - (roundQuotient (n * sinQuarter t) trigUnit : ℝ)| < 1 / 2 := by
  have hU : (0 : ℝ) < (trigUnit : ℝ) := by rw [trigUnit]; norm_num
  obtain ⟨hodd, hgap⟩ := sineFractions_certify t (by omega) h30
  generalize (sineFractions.getD t (0, 0)).1 = p at hgap
  generalize (sineFractions.getD t (0, 0)).2 = q at hodd hgap
  have hq0 : (0 : ℝ) < q := by exact_mod_cast (by omega : 0 < q)
  have hn' : (n : ℝ) ≤ 65535 := by exact_mod_cast (by omega : n ≤ 65535)
  have hn0 : (0 : ℝ) ≤ n := by positivity
  -- how far the table's entry is from p / q
  have hd : |(sinQuarter t : ℝ) / trigUnit - p / q| =
      (((sinQuarter t * q : Int) - p * trigUnit).natAbs : ℝ) / (q * trigUnit) := by
    have e : (sinQuarter t : ℝ) / trigUnit - p / q = (((sinQuarter t * q : Int) - p * trigUnit : Int) : ℝ) / (q * trigUnit) := by
      push_cast
      field_simp
    have ea : |(((sinQuarter t * q : Int) - p * trigUnit : Int) : ℝ)| = (((sinQuarter t * q : Int) - p * trigUnit).natAbs : ℝ) := by
      rw [← Int.cast_abs, Int.abs_eq_natAbs]
      rfl
    rw [e, abs_div, abs_of_pos (by positivity : (0 : ℝ) < q * trigUnit), ea]
  generalize ((sinQuarter t * q : Int) - p * trigUnit).natAbs = d at hd hgap
  have hgap' : (2 * 65535 * (1000 * q + d) : ℝ) < trigUnit := by exact_mod_cast hgap
  have hbound : 65535 * (1000 / (trigUnit : ℝ) + d / (q * trigUnit)) < 1 / (2 * q) := by
    have e : 65535 * (1000 / (trigUnit : ℝ) + d / (q * trigUnit)) = (2 * 65535 * (1000 * q + d)) / trigUnit * (1 / (2 * q)) := by
      field_simp
    rw [e]
    have : (2 * 65535 * (1000 * q + d) : ℝ) / trigUnit < 1 := by rwa [div_lt_one hU]
    exact mul_lt_of_lt_one_left (by positivity) this
  have scale : ∀ z : ℝ, |z - p / q| ≤ 1000 / (trigUnit : ℝ) + d / (q * trigUnit) → |n * z - n * p / q| < 1 / (2 * q) := by
    intro z hz
    rw [mul_div_assoc, ← mul_sub, abs_mul, abs_of_nonneg hn0]
    exact lt_of_le_of_lt (mul_le_mul hn' hz (abs_nonneg _) (by norm_num)) hbound
  have h0 : (0 : ℝ) ≤ 1000 / (trigUnit : ℝ) := by positivity
  refine nearest_of_close (y := ((n * sinQuarter t : Nat) : ℝ) / trigUnit) (v := roundQuotient (n * sinQuarter t) trigUnit)
    hodd (scale _ ?_) ?_ ?_
  · have h1 := abs_sub_le (Real.sin (t * Real.pi / 180)) ((sinQuarter t : ℝ) / trigUnit) (p / q : ℝ)
    have h2 := sinQuarter_close ht
    rw [hd] at h1
    rw [abs_sub_comm] at h2
    exact h1.trans (add_le_add h2 le_rfl)
  · rw [Nat.cast_mul, mul_div_assoc]
    exact scale _ (by rw [hd]; linarith)
  · exact_mod_cast roundQuotient_near _ _ (by decide)

end Sys2Proof.Machine
end

