-- ==== Sys2Proof/Tests/Slice0.lean ====
section
/-! SUPPORT. Tests, each with its expected result from the spec (V<n> is a vector of 95_test_vectors.md), and for every
statement of Certificates/Slice0/Obligations.lean that has hypotheses a witness that meets them together, clause by
clause at the ends of their ranges. -/

namespace Sys2Proof.Tests

/- One theorem after the other: kernel evaluations that wait for one another would each hold a thread of their own. -/
set_option Elab.async false

open Sys2Proof.Machine
open Host (Outcome)

/-! ### Small states -/

/-- The smallest planes of R7: 32 columns, 8 rows. -/
def tiny : Params := { maxW := 32, maxH := 8, base := 0 }

/-- A memory of a plane whose 8 × 8 area at the origin holds one bit throughout. -/
def area8 (b : Bool) : Memory := writeEach [] (gridKeys tiny 8 8) (fun _ => bitCell b)

/-- A block with the smallest planes, both all 0 in the 8 × 8 area, BM_W = BM_H = 8. -/
def blank : State := { State.resetWith tiny with bmW := 8, bmH := 8, planeA := area8 false, planeB := area8 false }

/-- A command of the given dimensions and operands, accepted in a state. -/
def started (i : Instr) (w h a0 a1 a2 a3 a4 : Int) (s : State) : State :=
  accept (encode i)
    { s with
      bmW := BitVec.ofInt 16 w, bmH := BitVec.ofInt 16 h,
      args := { arg0 := BitVec.ofInt 16 a0, arg1 := BitVec.ofInt 16 a1, arg2 := BitVec.ofInt 16 a2,
                arg3 := BitVec.ofInt 16 a3, arg4 := BitVec.ofInt 16 a4 } }

/-- The next state of an outcome, if it is one. -/
def nextOf : Outcome State Fault Refusal → Option State
  | .next t => some t
  | .fault _ => none
  | .refused _ => none

/-- The state after an outcome that is a next state. -/
def after (o : Outcome State Fault Refusal) : State := (nextOf o).getD State.reset

/-- The state after a command of the given dimensions and operands has completed. -/
def done (i : Instr) (w h a0 a1 a2 a3 a4 : Int) (s : State) : State :=
  after (step (started i w h a0 a1 a2 a3 a4 s))

/-- Columns 0 … 7 of the first n rows of a plane, a row as the low byte of its plane word. -/
def rows (n : Nat) (p : Plane) (s : State) : List Byte :=
  (List.range n).map (fun y => bitsLE 8 (fun x => pixelBit (planeOf s p) (pixelKey s.params x y)))

/-- Why an outcome is a fault, if it is one. -/
def faultOf : Outcome State Fault Refusal → Option Fault
  | .next _ => none
  | .fault f => some f
  | .refused _ => none

/-- Plane A is the border of V134, plane B the filled circle of V113. -/
def shapes : State :=
  done (.circle .b true) 8 8 3 3 2 0 0 (done (.box .a false) 8 8 0 0 8 8 0 blank)

/-- The reset state with the host to perform one action. -/
def asking (a : HostAction) (s : State) : State := { s with host := [a] }

/-- STATUS as the host would read it. -/
def statusOf (s : State) : Word := statusWord s.status

/-! ### Well-formedness: each check refuses something -/

theorem test_wf_opcode : CmdFields.wellFormed { opc := 9, p := 0, f := 0, m := 0, rsv := 0 } = false := by decide
theorem test_wf_reserved : CmdFields.wellFormed { opc := 1, p := 0, f := 0, m := 0, rsv := 1 } = false := by decide
theorem test_wf_plane : CmdFields.wellFormed { opc := 0, p := 1, f := 0, m := 0, rsv := 0 } = false := by decide
theorem test_wf_filled : CmdFields.wellFormed { opc := 2, p := 0, f := 1, m := 0, rsv := 0 } = false := by decide
theorem test_wf_mode : CmdFields.wellFormed { opc := 4, p := 0, f := 0, m := 1, rsv := 0 } = false := by decide
theorem test_wf_legal : CmdFields.wellFormed { opc := 6, p := 1, f := 0, m := 3, rsv := 0 } = true := by decide
theorem test_wf_width : Params.wellFormed { maxW := 48, maxH := 8, base := 0 } = false := by decide
theorem test_wf_height : Params.wellFormed { maxW := 32, maxH := 12, base := 0 } = false := by decide
theorem test_wf_size : Params.wellFormed { maxW := 1024, maxH := 40, base := 0 } = false := by decide
theorem test_wf_base : Params.wellFormed { maxW := 32, maxH := 8, base := 0x1000 } = false := by decide
theorem test_wf_params :
    Params.default.wellFormed = true ∧ tiny.wellFormed = true ∧
      Params.wellFormed { maxW := 1024, maxH := 32, base := 0x4000 } = true := by decide

/-! ### Decoding: one word per row of the opcode map, bit by bit (R71, R78, V30 to V41) -/

theorem test_decode_nop : decode 0b00000000000000000000000000000000#32 = .ok .nop := by decide
theorem test_decode_clear : decode 0b00000000000000000000000100000001#32 = .ok (.clear .b) := by decide
theorem test_decode_line : decode 0b00000000000000000000000100000010#32 = .ok (.line .b) := by decide
theorem test_decode_linePolar : decode 0b00000000000000000000000000000011#32 = .ok (.linePolar .a) := by decide
theorem test_decode_circle : decode 0b00000000000000000000001000000100#32 = .ok (.circle .a true) := by decide
theorem test_decode_box : decode 0b00000000000000000000001100000101#32 = .ok (.box .b true) := by decide
theorem test_decode_combineNormal : decode 0b00000000000000000000000000000110#32 = .ok (.combineNormal .a) := by decide
theorem test_decode_combineOr : decode 0b00000000000000000000010100000110#32 = .ok (.combineOr .b) := by decide
theorem test_decode_combineAnd : decode 0b00000000000000000000100100000110#32 = .ok (.combineAnd .b) := by decide
theorem test_decode_combineXor : decode 0b00000000000000000000110100000110#32 = .ok (.combineXor .b) := by decide
theorem test_decode_pack : decode 0b00000000000000000000000100000111#32 = .ok (.pack .b) := by decide
theorem test_decode_unpack : decode 0b00000000000000000000000000001000#32 = .ok (.unpack .a) := by decide

/-- V42 to V49: the illegal words, by the name of what makes them illegal. -/
theorem test_decode_illegal :
    [0x00000100#32, 0x00000202#32, 0x00000606#32, 0x00000C00#32, 0x00000404#32, 0x00000407#32, 0x00000009#32,
      0x000000FF#32, 0x00001004#32, 0x80000001#32].map decode =
    [.error .unusedFieldSet, .error .unusedFieldSet, .error .unusedFieldSet, .error .unusedFieldSet,
      .error .unusedFieldSet, .error .unusedFieldSet, .error .opcodeUnassigned, .error .opcodeUnassigned,
      .error .reservedBitSet, .error .reservedBitSet] := by decide

theorem test_decodeTableWord : decodeTableWord 32 0x00000506 = some (.combineOr .b) ∧ decodeTableWord 32 0x606 = none := by
  decide

/-! ### Registers, STATUS and windows -/

/-- V1 to V4: what the host reads after reset. -/
theorem test_reset_reads :
    readRegister 0x004 State.reset = 0x00000000#32 ∧ readRegister 0x008 State.reset = 0x0000008C#32 ∧
      readRegister 0x00C State.reset = 0x00000020#32 ∧ readRegister 0x020 State.reset = 0x00000000#32 ∧
      readRegister 0x024 State.reset = 0x00000000#32 ∧ readRegister 0x028 State.reset = 0x00200100#32 := by decide

/-- V7, V8. -/
theorem test_register_writes :
    readRegister 0x010 (writeRegister 0x010 0xFFFF8000#32 State.reset) = 0x00008000#32 ∧
      (lineOperands (accept 0 (writeRegister 0x010 0xFFFF8000#32 State.reset)).latched).x0 = -32768 ∧
      readRegister 0x008 (writeRegister 0x008 0x00010008#32 State.reset) = 0x00000008#32 := by decide

/-- V9 to V12: which pixel a bit of a plane word is, from its offset 0x1000 + 4k. -/
theorem test_plane_layout :
    windowKey Params.default (windowIndex 0x1208) 6 = pixelKey Params.default 70 16 ∧
      windowKey Params.default (windowIndex 0x13FC) 31 = pixelKey Params.default 255 31 ∧
      windowKey Params.default (windowIndex 0x2024) 1 = pixelKey Params.default 33 1 := by decide

/-- V14. -/
theorem test_pack_layout :
    readPackWord 0 { blank with packBuf := [(0, 0x81#8), (1, 0x00#8), (2, 0x10#8), (3, 0x80#8)] } = .ok 0x80100081#32 := by
  decide

/-- V6. -/
theorem test_unspecified_read : faultOf (step (asking (.read 0x1000 4) State.reset)) = some .unspecifiedPlaneWord := by
  decide +kernel

/-- V160 to V163, V173: rejected issues, the first error kept, and its acknowledgement. -/
theorem test_issue_errors :
    let s0 : State := { blank with bmW := 0 }
    statusOf (issue 0x00000002#32 s0) = 0x00000024#32 ∧
      statusOf (issue 0x00000009#32 (issue 0x00000002#32 s0)) = 0x00000024#32 ∧
      statusOf (acknowledge 0x00000006#32 (issue 0x00000002#32 s0)) = 0x00000000#32 ∧
      statusOf (issue 0x00001004#32 blank) = 0x00000014#32 ∧
      statusOf (issue 0x00000009#32 s0) = 0x00000014#32 := by decide +kernel

/-- V165, V167, V168, V169: while a command is in flight. -/
theorem test_busy_errors :
    let s0 := started .nop 8 8 0 0 0 0 0 blank
    statusOf s0 = 0x00000001#32 ∧ statusOf (issue 0x00000001#32 s0) = 0x00000035#32 ∧
      statusOf (writeOffset 0x1000 0xFFFFFFFF#32 s0) = 0x00000045#32 ∧
      statusOf (after (step (issue 0x00000001#32 s0))) = 0x00000036#32 ∧
      statusOf (acknowledge 0x00000004#32 (after (step (issue 0x00000001#32 s0)))) = 0x00000002#32 := by decide +kernel

/-! ### The shapes -/

/-- V50, V54: LinePixels depends on the direction. -/
theorem test_line_pixels :
    linePixels 0 0 5 2 = [(0, 0), (1, 0), (2, 1), (3, 1), (4, 2), (5, 2)] ∧
      linePixels 4 2 0 0 = [(4, 2), (3, 1), (2, 1), (1, 0), (0, 0)] := by decide

/-- V82, V84, V91, V92: ties go to even, and the longest endpoints are exact. -/
theorem test_polar_endpoint :
    polarEndpoint 10 10 150 3 = (7, 8) ∧ polarEndpoint 10 10 300 5 = (12, 14) ∧
      polarEndpoint 0 0 1 65535 = (65525, -1144) ∧ polarEndpoint (-32768) 0 180 65535 = (-98303, 0) := by decide

/-- V104, V105: octant pairs. -/
theorem test_octant_pairs :
    octantPairs 4 = [(0, 4), (1, 4), (2, 3), (3, 3)] ∧ octantPairs 5 = [(0, 5), (1, 5), (2, 5), (3, 4)] := by decide

/-! ### One step of each command -/

/-- V20. -/
theorem test_nop : statusOf (done .nop 8 8 0 0 0 0 0 blank) = 0x00000002#32 := by decide +kernel

/-- V24: the whole plane, not only the active area; V23: in a state with unspecified bits and BM_W = 0. -/
theorem test_clear :
    (done (.clear .a) 8 8 0 0 0 0 0 { blank with planeA := area8 true }).planeA = filled 256 0#8 ∧
      (done (.clear .b) 0 8 0 0 0 0 0 (State.resetWith tiny)).planeB = filled 256 0#8 := by decide +kernel

/-- V62: of the eight pixels, (0,1), (1,1), (2,2), (3,2) are in the 4 × 4 area. -/
theorem test_line :
    (done (.line .a) 4 4 (-3) (-1) 4 3 0 (State.resetWith tiny)).planeA =
      [(32, 1#8), (33, 1#8), (66, 1#8), (67, 1#8)] := by decide +kernel

/-- V72, moved to origin (7, 3): 180 degrees points left. -/
theorem test_linePolar :
    (done (.linePolar .b) 8 8 7 3 180 5 0 (State.resetWith tiny)).planeB =
      [(98, 1#8), (99, 1#8), (100, 1#8), (101, 1#8), (102, 1#8), (103, 1#8)] := by decide +kernel

/-- V112. -/
theorem test_circle :
    rows 8 .a (done (.circle .a false) 8 8 3 3 2 0 0 blank) =
      [0x00, 0x1C, 0x22, 0x22, 0x22, 0x1C, 0x00, 0x00] := by decide +kernel

/-- V113, V134. -/
theorem test_shapes :
    rows 8 .a shapes = [0xFF, 0x81, 0x81, 0x81, 0x81, 0x81, 0x81, 0xFF] ∧
      rows 8 .b shapes = [0x00, 0x1C, 0x3E, 0x3E, 0x3E, 0x1C, 0x00, 0x00] := by decide +kernel

/-- V132, V125: a clipped filled box, and rounded corners. -/
theorem test_box :
    rows 4 .a (done (.box .a true) 4 4 (-2) (-1) 6 4 0 blank) = [0xF, 0xF, 0xF, 0x0] ∧
      rows 6 .a (done (.box .a false) 8 8 0 0 6 6 2 blank) = [0x1E, 0x21, 0x21, 0x21, 0x21, 0x1E] := by
  decide +kernel

/-- V144. -/
theorem test_combineNormal :
    rows 8 .a (done (.combineNormal .a) 8 8 0 0 0 0 0 shapes) =
      [0x00, 0x1C, 0x3E, 0x3E, 0x3E, 0x1C, 0x00, 0x00] := by decide +kernel

/-- V142. -/
theorem test_combineOr :
    rows 8 .a (done (.combineOr .a) 8 8 0 0 0 0 0 shapes) =
      [0xFF, 0x9D, 0xBF, 0xBF, 0xBF, 0x9D, 0x81, 0xFF] := by decide +kernel

/-- V143. -/
theorem test_combineAnd :
    rows 8 .a (done (.combineAnd .a) 8 8 0 0 0 0 0 shapes) = [0, 0, 0, 0, 0, 0, 0, 0] := by decide +kernel

/-- V140. -/
theorem test_combineXor :
    rows 8 .a (done (.combineXor .a) 8 8 0 0 0 0 0 shapes) =
      [0xFF, 0x9D, 0xBF, 0xBF, 0xBF, 0x9D, 0x81, 0xFF] := by decide +kernel

/-- V148. -/
theorem test_combine_unspecified :
    faultOf (step (started (.combineNormal .a) 8 8 0 0 0 0 0 (State.resetWith tiny))) = some .unspecifiedSourcePixel := by
  decide +kernel

/-- V151, on 16 rows: pixels (0,0), (0,7), (1,3), (1,8), (2,9) of a 3 × 10 area. -/
theorem test_pack :
    let p : Params := { maxW := 32, maxH := 16, base := 0 }
    let plane := writeEach (writeEach [] (gridKeys p 3 10) (fun _ => 0#8)) [0, 224, 97, 257, 290] (fun _ => 1#8)
    let t := done (.pack .a) 3 10 0 0 0 0 0 { State.resetWith p with planeA := plane }
    t.packBuf = [(0, 0x81#8), (1, 0x00#8), (2, 0x10#8), (3, 0x80#8), (4, 0x00#8), (5, 0x40#8)] ∧ t.packLen = 6 := by
  decide +kernel

/-- V155 and V156: UNPACK writes the padding rows, PACK returns them as 0. -/
theorem test_unpack :
    let t := done (.unpack .a) 1 3 0 0 0 0 0 { blank with packBuf := [(0, 0xFF#8)] }
    rows 8 .a t = [1, 1, 1, 1, 1, 1, 1, 1] ∧ t.packLen = 1 ∧
      (done (.pack .a) 1 3 0 0 0 0 0 t).packBuf = [(0, 0xE0#8)] := by decide +kernel

/-- A placed word is what the next step runs, from reset (R90). -/
theorem test_withFetchWord :
    statusOf (State.reset.withFetchWord 32 0x0002) = 0x00000001#32 ∧
      (after (step (State.reset.withFetchWord 32 0x0002))).planeA = [(0, 1#8)] ∧
      statusOf (after (step (State.reset.withFetchWord 32 0x0002))) = 0x00000002#32 := by decide +kernel

/-- Program 1's statements 3 to 8, from the pseudo-instruction LINEP (R85, R86). -/
theorem test_expand :
    expand 0 (.linep .a 70 16 0 30) =
      [.write 0x010 4 0x00000046#32, .write 0x014 4 0x00000010#32, .write 0x018 4 0x00000000#32,
        .write 0x01C 4 0x0000001E#32, .write 0x000 4 0x00000003#32, .wait] := by decide

/-! ### Witnesses: concrete states and operands that meet the hypotheses of each statement -/

/-- An outcome that is a next state is the next state it is. -/
theorem next_of {o : Outcome State Fault Refusal} (h : (nextOf o).isSome = true) : o = .next (after o) := by
  cases o with
  | next t => rfl
  | fault f => cases h
  | refused r => cases h

/-- A command in flight, the engine named to move. -/
def inFlight : State := { started (.line .a) 8 8 0 0 7 7 0 blank with turns := [.engine] }

/-- Two words of each window hold values: the first and the last of the plane windows, and of PackBuf's. -/
def windowed : State :=
  { State.resetWith tiny with
    planeA := writeEach [] (List.range 32 ++ List.range' 224 32) (fun _ => 1#8)
    packBuf := writeEach [] (List.range 4 ++ List.range' 28 4) (fun _ => 0x5A#8) }

/-- O3: an illegal word issued while idle. -/
theorem test_witness_illegal :
    (∀ row ∈ opcodeTable, 0x00000100#32 &&& row.mask ≠ row.pattern) ∧ State.reset.status.busy = false := by decide

/-- A step runs the latched command: with the engine named, and with no move named. -/
theorem test_witness_step_engine :
    inFlight.status.busy = true ∧ decode inFlight.latched.cmd = .ok (.line .a) ∧ instrWellFormed (.line .a) = true ∧
      inFlight.turns = .engine :: [] ∧ ({ inFlight with turns := [] } : State).turns = [] := by decide +kernel

/-- A step performs the host's action: each of the five clauses. -/
theorem test_witness_step_host :
    ({ asking .wait inFlight with turns := [.host, .engine] } : State).turns = .host :: [.engine] ∧
      (asking .wait State.reset).host = .wait :: [] ∧ (asking .wait State.reset).turns = [] ∧
      (asking .wait State.reset).status.busy = false ∧ State.reset.host = [] ∧
      ({ State.reset with turns := [.engine] } : State).turns = .engine :: [] := by decide +kernel

/-- A write to CMD: the four clauses, with BM_W and BM_H at 0, 1, MAX and MAX + 1 (V160, V170, V171, V172). -/
theorem test_witness_issue :
    inFlight.status.busy = true ∧ State.reset.status.busy = false ∧
      (∀ i ∈ [Instr.nop, .line .a, .pack .b], decode 0x00000009#32 ≠ .ok i) ∧
      decode 0x00000007#32 = .ok (.pack .a) ∧
      dimensionsOk Params.default 0 32 = false ∧ dimensionsOk Params.default 1 1 = true ∧
      dimensionsOk Params.default 256 32 = true ∧ dimensionsOk Params.default 257 32 = false ∧
      dimensionsOk Params.default 8 0 = false ∧ dimensionsOk Params.default 8 33 = false := by decide +kernel

/-- No command is decoded from an illegal word. -/
theorem test_witness_illegal_word : ∀ i, decode 0x00000009#32 ≠ .ok i := by
  intro i h
  have e : decode 0x00000009#32 = .error .opcodeUnassigned := by decide
  rw [e] at h
  cases h

/-- Register reads: each register with its value, at reset and after a write. -/
theorem test_witness_register_read :
    (0x008 = 0x008 ∧ (140#16) = State.reset.bmW) ∧ (0x00C = 0x00C ∧ (32#16) = State.reset.bmH) ∧
      (0x020 = 0x020 ∧ (0xFFFF#16) = (writeRegister 0x020 0xFFFFFFFF#32 State.reset).args.arg4) ∧
      (0x024 = 0x024 ∧ (0#16) = State.reset.packLen) := by decide

/-- CAPS, the first and the last reserved offset. -/
theorem test_witness_reserved_offsets :
    (0x028 ≤ 0x028 ∧ 0x028 ≤ 0xFFC ∧ 0x028 % 4 = 0) ∧ (0x028 ≤ 0x02C ∧ 0x02C ≤ 0xFFC ∧ 0x02C % 4 = 0) ∧
      (0x028 ≤ 0xFFC ∧ 0xFFC ≤ 0xFFC ∧ 0xFFC % 4 = 0) ∧ State.reset.params = Params.default := by decide

/-- Accesses that do not exist: just below and just above the block, a byte, and an unaligned word. -/
theorem test_witness_no_access :
    let s : State := { State.reset with params := { Params.default with base := 0x4000 } }
    (0x3FFF < s.params.base ∨ s.params.base + 0x4000 ≤ 0x3FFF) ∧
      (0x8000 < s.params.base ∨ s.params.base + 0x4000 ≤ 0x8000) ∧
      (s.params.base ≤ 0x4000 ∧ 0x4000 < s.params.base + 0x4000 ∧ (1 : Nat) ≠ 4) ∧
      (s.params.base ≤ 0x7FFF ∧ 0x7FFF < s.params.base + 0x4000 ∧ (0x7FFF - s.params.base) % 4 ≠ 0) := by decide

/-- A plane window word: the first and the last backed one, known, and one with an unspecified bit; a canonical plane. -/
theorem test_witness_plane_word :
    windowed.params.wellFormed = true ∧ windowed.status.busy = false ∧
      0 < windowed.params.maxW * windowed.params.maxH / 32 ∧ 7 < windowed.params.maxW * windowed.params.maxH / 32 ∧
      (∀ b < 32, readPixel windowed .a (32 * (0 % (32 / 32)) + b) (0 / (32 / 32)) = some (0xFFFFFFFF#32 |>.getLsbD b)) ∧
      (∀ b < 32, readPixel windowed .a (32 * (7 % (32 / 32)) + b) (7 / (32 / 32)) = some (0xFFFFFFFF#32 |>.getLsbD b)) ∧
      readPixel windowed .b 31 7 = none ∧ memoryWf (planeOf windowed .a) = true := by decide +kernel

/-- A PACKBUF window word: the first and the last backed one, known, and one with an unspecified byte. -/
theorem test_witness_pack_word :
    0 < windowed.params.maxW * windowed.params.maxH / 32 ∧ 7 < windowed.params.maxW * windowed.params.maxH / 32 ∧
      (∀ i < 4, readPackByte windowed (4 * 0 + i) = some 0x5A#8) ∧
      (∀ i < 4, readPackByte windowed (4 * 7 + i) = some 0x5A#8) ∧
      readPackByte windowed 4 = none ∧ memoryWf windowed.packBuf = true := by decide +kernel

/-- A window word written while idle: the last backed word of each window. -/
theorem test_witness_read_back :
    memoriesOk windowed = true ∧ windowed.status.busy = false ∧
      (0x1000 ≤ 0x101C ∧ 0x101C < 0x1000 + windowed.params.maxW * windowed.params.maxH / 8) ∧
      (0x2000 ≤ 0x201C ∧ 0x201C < 0x2000 + windowed.params.maxW * windowed.params.maxH / 8) ∧
      (0x3000 ≤ 0x301C ∧ 0x301C < 0x3000 + windowed.params.maxW * windowed.params.maxH / 8) ∧
      (nextOf (hostAct (.write 0x101C 4 0x12345678#32) windowed)).isSome = true ∧
      (nextOf (hostAct (.write 0x201C 4 0x12345678#32) windowed)).isSome = true ∧
      (nextOf (hostAct (.write 0x301C 4 0x12345678#32) windowed)).isSome = true := by decide +kernel

/-- Unbacked words: the first one of each window and the last offset, idle and busy. -/
theorem test_witness_unbacked :
    tiny.maxW * tiny.maxH / 32 ≤ 8 ∧ tiny.maxW * tiny.maxH / 32 ≤ 1023 ∧ 1023 < 1024 ∧
      blank.params = tiny ∧ blank.status.busy = false ∧ inFlight.params = tiny ∧ inFlight.status.busy = true := by
  decide +kernel

/-- Window accesses while busy: the first and the last window offset. -/
theorem test_witness_busy_access :
    inFlight.status.busy = true ∧ (0x1000 ≤ 0x1000 ∧ 0x1000 ≤ 0x3FFC ∧ 0x1000 % 4 = 0) ∧
      (0x1000 ≤ 0x3FFC ∧ 0x3FFC ≤ 0x3FFC ∧ 0x3FFC % 4 = 0) := by decide +kernel

/-- Drawing completions: a latched area in the planes at its least and its greatest, canonical planes. -/
theorem test_witness_drawing :
    areaOk (started (.line .a) 1 1 0 0 0 0 0 blank) = true ∧ areaOk (started (.box .b true) 32 8 0 0 0 0 0 blank) = true ∧
      memoryWf (planeOf inFlight .a) = true ∧ memoryWf (planeOf inFlight .b) = true := by decide +kernel

/-- A polar line of length 0. -/
theorem test_witness_zero_length :
    let s := started (.linePolar .a) 8 8 5 5 77 0 0 blank
    areaOk s = true ∧ memoryWf (planeOf s .a) = true ∧ s.latched.args.arg3 = 0#16 := by decide +kernel

/-- COMBINE's pixels known in both planes, in a 2 × 2 area; only the source's for NORMAL. -/
theorem test_witness_combine :
    let s := started (.combineOr .a) 2 2 0 0 0 0 0 blank
    let n := started (.combineNormal .a) 2 2 0 0 0 0 0 { blank with planeA := [] }
    areaOk s = true ∧ memoryWf (planeOf s .a) = true ∧
      (∀ x < 2, ∀ y < 2, readPixel s .b x y = some false ∧ readPixel s .a x y = some false) ∧
      areaW s.latched = 2 ∧ areaH s.latched = 2 ∧
      areaOk n = true ∧ (∀ x < 2, ∀ y < 2, readPixel n .b x y = some false) ∧ readPixel n .a 0 0 = none := by
  decide +kernel

/-- COMBINE's stops: an unspecified source pixel; a known source and an unspecified destination pixel. -/
theorem test_witness_combine_stop :
    let s := started (.combineOr .a) 2 2 0 0 0 0 0 { blank with planeA := [] }
    areaOk s = true ∧ readPixel s (Plane.other .b) 1 1 = none ∧
      (∀ x < 2, ∀ y < 2, readPixel s (Plane.other .a) x y ≠ none) ∧ readPixel s .a 1 1 = none ∧
      areaW s.latched = 2 ∧ areaH s.latched = 2 := by decide +kernel

/-- PACK with every pixel of its area known; UNPACK with every byte of the packed length known. -/
theorem test_witness_pack_unpack :
    let s := started (.pack .a) 2 3 0 0 0 0 0 blank
    let u := started (.unpack .a) 2 3 0 0 0 0 0 { blank with packBuf := [(0, 1#8), (1, 2#8)] }
    areaOk s = true ∧ memoryWf s.packBuf = true ∧ (∀ x < 2, ∀ y < 3, readPixel s .a x y = some false) ∧
      areaOk u = true ∧ memoryWf (planeOf u .a) = true ∧
      (∀ j < u.latched.w.toNat * ((u.latched.h.toNat + 7) / 8), (readPackByte u j).isSome = true) := by decide +kernel

/-- The stops of PACK and UNPACK. -/
theorem test_witness_pack_stop :
    let s := started (.pack .a) 2 3 0 0 0 0 0 (State.resetWith tiny)
    areaOk s = true ∧ readPixel s .a 1 2 = none ∧ 1 < s.latched.w.toNat * ((s.latched.h.toNat + 7) / 8) ∧
      readPackByte s 1 = none := by decide +kernel

/-- R37, R176: with the defaults PackBuf's 1024 bytes are words 0 to 255 of the window. The last one is backed (its bytes
hold no value yet, so the read faults, I2) and the next one is not. -/
theorem test_pack_window_extent :
    (match hostAct (.read 0x33FC 4) State.reset with | .fault f => f == .unspecifiedPackWord | _ => false) = true ∧
      (after (hostAct (.read 0x3400 4) State.reset)).observed = [.value 0#32] := by decide +kernel

/-- A completed PACK of 6 bytes, whose second word is read with its last two bytes written before (V151, V157). -/
theorem test_witness_packed_image :
    let s := started (.pack .a) 3 10 0 0 0 0 0
      { State.resetWith { tiny with maxH := 16 } with
        planeA := filled 512 1#8, packBuf := [(6, 0#8), (7, 0#8)] }
    s.params.wellFormed = true ∧ memoryWf s.packBuf = true ∧ (nextOf (exec (.pack .a) s)).isSome = true ∧
      4 * 1 < s.latched.w.toNat * ((s.latched.h.toNat + 7) / 8) ∧
      (∀ i < 4, s.latched.w.toNat * ((s.latched.h.toNat + 7) / 8) ≤ 4 * 1 + i → readPackByte s (4 * 1 + i) ≠ none) := by
  decide +kernel

/-- A completed UNPACK of one byte, and another PackBuf that agrees with its own on that byte alone. -/
theorem test_witness_unpack_beyond :
    let s := started (.unpack .a) 1 3 0 0 0 0 0 { blank with packBuf := [(0, 0xFF#8), (5, 1#8)] }
    let m : Memory := [(0, 0xFF#8), (5, 2#8), (6, 3#8)]
    s.params.wellFormed = true ∧ memoryWf s.packBuf = true ∧ (nextOf (exec (.unpack .a) s)).isSome = true ∧
      ∀ j < s.latched.w.toNat * ((s.latched.h.toNat + 7) / 8), cellAt m j = readPackByte s j := by decide +kernel

/-- Segments: horizontal, vertical and a single pixel (V57, V56, V55). -/
theorem test_witness_segments :
    linePixels 1 2 (-2) 2 = [(1, 2), (0, 2), (-1, 2), (-2, 2)] ∧
      linePixels 2 0 2 3 = [(2, 0), (2, 1), (2, 2), (2, 3)] ∧ linePixels 3 3 3 3 = [(3, 3)] := by decide

/-- The greatest length, 65535, at a negative angle: V92's reflection by 360 degrees. -/
theorem test_witness_polar : 65535 < 65536 ∧ polarEndpoint (-32768) 0 (-180) 65535 = (-98303, 0) := by decide

/-- Circles: r = 0 and r = 1 (V106 to V108). -/
theorem test_witness_circle :
    inSet (circleOutline 5 5 0) 5 5 = true ∧ inSet (circleFilled 5 5 0) 5 5 = true ∧
      inSet (circleOutline 3 3 1) 3 3 = false ∧ inSet (circleFilled 3 3 1) 3 3 = true := by decide

/-- Boxes: the least one, and V126's diamond; an effective radius of 0 at w = 2 with a large radius (V129). -/
theorem test_witness_box :
    (0, 0) ∈ boxOutlinePixels 0 0 1 1 0 ∧ (1, 0) ∈ boxOutlinePixels 0 0 3 3 1 ∧ (0, 0) ∉ boxOutlinePixels 0 0 3 3 1 ∧
      effectiveRadius 2 2 5 = 0 ∧ effectiveRadius 1 1 0 = 0 := by decide

/-- Octant pairs at r = 1, 2 and 3, the least radii with pairs to choose (R138). -/
theorem test_witness_octants :
    octantPairs 1 = [(0, 1)] ∧ octantPairs 2 = [(0, 2), (1, 2)] ∧ octantPairs 3 = [(0, 3), (1, 3), (2, 2)] := by decide

/-- Legal parameters at their least and greatest. -/
theorem test_witness_params :
    tiny.wellFormed = true ∧ Params.wellFormed { maxW := 32, maxH := 1024, base := 0 } = true ∧
      Params.wellFormed { maxW := 1024, maxH := 32, base := 0xC000 } = true := by decide

/-- The invariant holds in an idle state, in one with a command in flight, and in one with all memory known; each has
a step that answers a next state. -/
theorem test_witness_invariant :
    StateInv State.reset = true ∧ StateInv inFlight = true ∧ (nextOf (step State.reset)).isSome = true ∧
      (nextOf (step inFlight)).isSome = true := by decide +kernel

/-- Accepted commands whose own bits and bytes hold values and whose others do not: a COMBINE.XOR and a PACK of an 8 × 8
area in planes known there alone, a COMBINE.NORMAL into a plane with no value, an UNPACK of 8 known bytes. -/
def xorFlight : State := started (.combineXor .a) 8 8 0 0 0 0 0 blank
def packFlight : State := started (.pack .b) 8 8 0 0 0 0 0 blank
def normalFlight : State := started (.combineNormal .a) 8 8 0 0 0 0 0 { blank with planeA := [] }
def unpackFlight : State :=
  { started (.unpack .b) 8 8 0 0 0 0 0 { State.resetWith tiny with packBuf := filled 8 0 } with turns := [.engine] }

theorem test_witness_accepted :
    (∀ s ∈ [xorFlight, packFlight, normalFlight, unpackFlight], StateInv s = true ∧ s.status.busy = true) ∧
      xorFlight.turns = [] ∧ packFlight.turns = [] ∧ normalFlight.turns = [] ∧ unpackFlight.turns = .engine :: [] ∧
      decode xorFlight.latched.cmd = .ok (.combineXor .a) ∧ decode packFlight.latched.cmd = .ok (.pack .b) ∧
      decode normalFlight.latched.cmd = .ok (.combineNormal .a) ∧
      decode unpackFlight.latched.cmd = .ok (.unpack .b) := by decide +kernel

theorem test_witness_accepted_reads :
    ReadsSpecified xorFlight (.combineXor .a) ∧ ReadsSpecified packFlight (.pack .b) ∧
      ReadsSpecified normalFlight (.combineNormal .a) ∧ ReadsSpecified unpackFlight (.unpack .b) :=
  ⟨⟨areaSpecified_of_areaKnown (by decide +kernel), areaSpecified_of_areaKnown (by decide +kernel)⟩,
    areaSpecified_of_areaKnown (by decide +kernel), areaSpecified_of_areaKnown (by decide +kernel),
    fun j hj => Option.ne_none_iff_exists'.mpr (packedKnown_iff.mp (by decide +kernel) j hj)⟩

/-- BUSY rises by an issue, falls by a completion and by a reset. -/
theorem test_witness_busy :
    let s := asking (.write 0 4 0#32) blank
    let r := asking .reset { inFlight with turns := [.host] }
    s.status.busy = false ∧ (after (step s)).status.busy = true ∧ (nextOf (step s)).isSome = true ∧
      inFlight.status.busy = true ∧ (after (step inFlight)).status.busy = false ∧
      r.status.busy = true ∧ (after (step r)).status.busy = false ∧ (nextOf (step r)).isSome = true := by decide +kernel

/-- L changes at an acceptance and at a reset. -/
theorem test_witness_latch :
    (after (step (asking (.write 0 4 0x101#32) blank))).latched ≠ blank.latched ∧
      (after (step (asking .reset { inFlight with turns := [.host] }))).latched ≠ inFlight.latched := by decide +kernel

/-- A host action while a command is in flight. -/
theorem test_witness_undisturbed :
    inFlight.status.busy = true ∧ inFlight.status.done = false ∧ HostAction.write 0x1000 4 1#32 ≠ .reset ∧
      (nextOf (hostAct (.write 0x1000 4 1#32) inFlight)).isSome = true := by decide +kernel

/-- Completions of one command of each kind, in sound memories. -/
theorem test_witness_frame :
    let s := started .nop 2 3 0 0 1 1 0 { blank with packBuf := [(0, 1#8), (1, 2#8)] }
    memoriesOk s = true ∧ s.params.wellFormed = true ∧
      ([Instr.nop, .clear .a, .line .a, .linePolar .b, .circle .a true, .box .b false, .combineNormal .a, .combineOr .b,
        .combineAnd .a, .combineXor .b, .pack .a, .unpack .b].all fun i => (nextOf (exec i s)).isSome) = true := by
  decide +kernel

/-- Two COMBINE.XOR, the second accepted after the first (V140, V141). -/
theorem test_witness_xor :
    let s := started (.combineXor .a) 8 8 0 0 0 0 0 shapes
    let t := after (exec (.combineXor .a) s)
    let t' := accept (encode (.combineXor .a)) t
    memoriesOk s = true ∧ (nextOf (exec (.combineXor .a) s)).isSome = true ∧ t'.params = s.params ∧
      t'.planeA = t.planeA ∧ t'.planeB = t.planeB ∧ t'.latched.w = s.latched.w ∧ t'.latched.h = s.latched.h := by
  decide +kernel

/-- PACK, then UNPACK into the other plane. -/
theorem test_witness_unpack_after_pack :
    let s := started (.pack .a) 3 5 0 0 0 0 0 blank
    let t := after (exec (.pack .a) s)
    let t' := accept (encode (.unpack .b)) t
    memoriesOk s = true ∧ (nextOf (exec (.pack .a) s)).isSome = true ∧ t'.params = s.params ∧
      t'.packBuf = t.packBuf ∧ memoryWf (planeOf t' .b) = true ∧ t'.latched.w = s.latched.w ∧
      t'.latched.h = s.latched.h := by decide +kernel

/-- UNPACK, then PACK of the same plane (V155, V156). -/
theorem test_witness_pack_after_unpack :
    let s := started (.unpack .a) 1 3 0 0 0 0 0 { blank with packBuf := [(0, 0xFF#8)] }
    let t := after (exec (.unpack .a) s)
    let t' := accept (encode (.pack .a)) t
    memoriesOk s = true ∧ (nextOf (exec (.unpack .a) s)).isSome = true ∧ t'.params = s.params ∧
      planeOf t' .a = planeOf t .a ∧ memoryWf t'.packBuf = true ∧ t'.latched.w = s.latched.w ∧
      t'.latched.h = s.latched.h := by decide +kernel

/-- Polling with BUSY = 1 and with BUSY = 0. -/
theorem test_witness_polling : inFlight.status.busy = true ∧ State.reset.status.busy = false := by decide +kernel

end Sys2Proof.Tests
end

section
/-! The polar endpoint (R14, R116): the table's rounding is round_he of the real product at every angle. -/

namespace Sys2Proof.Machine

/-! ### round_he -/

/-- R117: round_he is symmetric about 0. -/
theorem isRoundHalfEven_neg {r : ℝ} {v : Int} (h : IsRoundHalfEven r v) : IsRoundHalfEven (-r) (-v) := by
  have e : |(-r) - ((-v : Int) : ℝ)| = |r - v| := by rw [← abs_neg]; push_cast; ring_nf
  rw [IsRoundHalfEven, e, even_neg]
  exact h

@[simp] theorem roundHalfEven_natCast (m d : Nat) : roundHalfEven (m : Int) d = roundQuotient m d := by
  rw [roundHalfEven, if_pos (Int.natCast_nonneg m), Int.natAbs_natCast]

@[simp] theorem roundQuotient_zero (d : Nat) : roundQuotient 0 d = 0 := by
  simp [roundQuotient]

@[simp] theorem roundHalfEven_neg_natCast (m d : Nat) : roundHalfEven (-(m : Int)) d = -(roundQuotient m d : Int) := by
  rcases Nat.eq_zero_or_pos m with rfl | hm
  · simp [roundHalfEven]
  · rw [roundHalfEven, if_neg (by omega), Int.natAbs_neg, Int.natAbs_natCast]

/-! ### The first quadrant -/

/-- At 30 degrees the table's entry is one half of its unit, so the rounding is that of n / 2, ties and all. -/
theorem roundQuotient_half (n : Nat) :
    2 * roundQuotient (n * sinQuarter 30) trigUnit = n ∨
      ((2 * roundQuotient (n * sinQuarter 30) trigUnit = n + 1 ∨ 2 * roundQuotient (n * sinQuarter 30) trigUnit + 1 = n) ∧
        roundQuotient (n * sinQuarter 30) trigUnit % 2 = 0) := by
  have e : sinQuarter 30 = 50000000000000000000 := by decide
  rw [e, trigUnit, roundQuotient]
  split_ifs <;> omega

theorem sin_thirty_degrees : Real.sin ((30 : Nat) * Real.pi / 180) = 1 / 2 := by
  rw [← Real.sin_pi_div_six]
  congr 1
  push_cast
  ring

/-- The tie case of R14, which 30 degrees alone reaches. -/
theorem isRoundHalfEven_sine_thirty (n : Nat) :
    IsRoundHalfEven (n * Real.sin ((30 : Nat) * Real.pi / 180)) (roundQuotient (n * sinQuarter 30) trigUnit : Int) := by
  rw [sin_thirty_degrees]
  have h := roundQuotient_half n
  generalize roundQuotient (n * sinQuarter 30) trigUnit = v at h
  rcases h with h | ⟨h, heven⟩
  · left
    have : (2 * v : ℝ) = n := by exact_mod_cast h
    rw [Int.cast_natCast, abs_lt]
    constructor <;> linarith
  · right
    refine ⟨?_, by rw [Int.even_coe_nat]; exact Nat.even_iff.mpr heven⟩
    rw [Int.cast_natCast]
    rcases h with h | h
    · have : (2 * v : ℝ) = n + 1 := by exact_mod_cast h
      rw [show (n * (1 / 2) - v : ℝ) = -(1 / 2) by linarith, abs_neg, abs_of_pos (by norm_num)]
    · have : (2 * v + 1 : ℝ) = n := by exact_mod_cast h
      rw [show (n * (1 / 2) - v : ℝ) = 1 / 2 by linarith, abs_of_pos (by norm_num)]

theorem isRoundHalfEven_sinQuarter {t n : Nat} (ht : t ≤ 90) (hn : n < 65536) :
    IsRoundHalfEven (n * Real.sin (t * Real.pi / 180)) (roundQuotient (n * sinQuarter t) trigUnit : Int) := by
  by_cases h30 : t = 30
  · exact h30 ▸ isRoundHalfEven_sine_thirty n
  · exact .inl (roundQuotient_sine ht hn h30)

/-! ### The four quadrants and every angle -/

/-- R116 for a reduced angle: sinDegrees follows the symmetries of the sine from quadrant to quadrant. -/
theorem isRoundHalfEven_sinDegrees {t n : Nat} (ht : t < 360) (hn : n < 65536) :
    IsRoundHalfEven (n * Real.sin (t * Real.pi / 180)) (roundHalfEven (n * sinDegrees t) trigUnit) := by
  rw [sinDegrees]
  split_ifs with h1 h2 h3
  · rw [← Nat.cast_mul, roundHalfEven_natCast]
    exact isRoundHalfEven_sinQuarter h1 hn
  · have e : Real.sin (t * Real.pi / 180) = Real.sin ((180 - t : Nat) * Real.pi / 180) := by
      rw [← Real.sin_pi_sub]
      congr 1
      push_cast [h2]
      ring
    rw [e, ← Nat.cast_mul, roundHalfEven_natCast]
    exact isRoundHalfEven_sinQuarter (by omega) hn
  · have e : Real.sin (t * Real.pi / 180) = -Real.sin ((t - 180 : Nat) * Real.pi / 180) := by
      rw [← Real.sin_add_pi]
      congr 1
      push_cast [(by omega : 180 ≤ t)]
      ring
    rw [e, mul_neg, mul_neg, ← Nat.cast_mul, roundHalfEven_neg_natCast]
    exact isRoundHalfEven_neg (isRoundHalfEven_sinQuarter (by omega) hn)
  · have e : Real.sin (t * Real.pi / 180) = -Real.sin ((360 - t : Nat) * Real.pi / 180) := by
      have harg : ((360 - t : Nat) : ℝ) * Real.pi / 180 = 2 * Real.pi - t * Real.pi / 180 := by
        push_cast [ht.le]
        ring
      rw [harg, Real.sin_two_pi_sub, neg_neg]
    rw [e, mul_neg, mul_neg, ← Nat.cast_mul, roundHalfEven_neg_natCast]
    exact isRoundHalfEven_neg (isRoundHalfEven_sinQuarter (by omega) hn)

theorem reducedAngle_lt (angle : Int) : reducedAngle angle < 360 := by
  rw [reducedAngle]
  omega

/-- Whole turns do not change the sine. -/
theorem sin_reducedAngle (angle : Int) :
    Real.sin (reducedAngle angle * Real.pi / 180) = Real.sin (angle * Real.pi / 180) := by
  have h : angle = reducedAngle angle + angle / 360 * 360 := by rw [reducedAngle]; omega
  have hr : (angle : ℝ) = reducedAngle angle + (angle / 360 : Int) * 360 := by exact_mod_cast h
  rw [← Real.sin_add_int_mul_two_pi _ (angle / 360), hr]
  congr 1
  ring

theorem isRoundHalfEven_polarDy (angle : Int) {n : Nat} (hn : n < 65536) :
    IsRoundHalfEven (n * Real.sin (angle * Real.pi / 180)) (polarDy angle n) := by
  rw [← sin_reducedAngle]
  exact isRoundHalfEven_sinDegrees (reducedAngle_lt angle) hn

/-- The offset in x is the offset in y a quarter turn on. -/
theorem polarDx_eq_polarDy (angle : Int) (n : Nat) : polarDx angle n = polarDy (angle + 90) n := by
  have e : (reducedAngle angle + 90) % 360 = reducedAngle (angle + 90) := by
    simp only [reducedAngle]
    omega
  rw [polarDx, polarDy, cosDegrees, e]

theorem isRoundHalfEven_polarDx (angle : Int) {n : Nat} (hn : n < 65536) :
    IsRoundHalfEven (n * Real.cos (angle * Real.pi / 180)) (polarDx angle n) := by
  have e : Real.cos (angle * Real.pi / 180) = Real.sin ((angle + 90 : Int) * Real.pi / 180) := by
    rw [← Real.sin_add_pi_div_two]
    congr 1
    push_cast
    ring
  rw [polarDx_eq_polarDy, e]
  exact isRoundHalfEven_polarDy (angle + 90) hn

/-- Settles O34: both offsets are polarDy's, whose rounding the four quadrants bring back to the table's. -/
theorem polarEndpointIsExact : Obligations.PolarEndpointIsExact := by
  intro x y angle n hn
  rw [polarEndpoint, add_sub_cancel_left, sub_sub_cancel]
  exact ⟨isRoundHalfEven_polarDx angle hn, isRoundHalfEven_polarDy angle hn⟩

end Sys2Proof.Machine
end

section
/-! Who moves in a step (R18, R63, R207), and the state after reset (R41). -/

namespace Sys2Proof.Machine

/-! ### The moves -/

theorem hostTurn_of_nil {s : State} (h : s.host = []) : hostTurn s = .next s := by
  rw [hostTurn, h]

theorem hostTurn_of_cons {s : State} {a : HostAction} {acts : List HostAction} (h : s.host = a :: acts) :
    hostTurn s = hostAct a { s with host := acts } := by
  rw [hostTurn, h]

theorem engineTurn_of_idle {s : State} (h : s.status.busy = false) : engineTurn s = .next s := by
  rw [engineTurn, if_neg (by simp [h])]

theorem step_of_host_named {s : State} {rest : List Agent} (h : s.turns = .host :: rest) :
    step s = hostTurn { s with turns := rest } := by
  rw [step, h]

theorem step_of_engine_named {s : State} {rest : List Agent} (h : s.turns = .engine :: rest) :
    step s = engineTurn { s with turns := rest } := by
  rw [step, h]

theorem step_of_none_named_idle {s : State} (h : s.turns = []) (hb : s.status.busy = false) :
    step s = hostTurn s := by
  rw [step, h]
  exact if_neg (by simp [hb])

/-- Settles O6: the mover is the named one, or the host of an idle block, and its turn is an action or nothing. -/
theorem stepPerformsOldestHostAction : Obligations.StepPerformsOldestHostAction := by
  intro s
  refine ⟨fun rest a acts ht hh => ?_, fun a acts ht hb hh => ?_, fun rest ht hh => ?_, fun rest ht hb => ?_,
    fun ht hb hh => ?_⟩
  · exact (step_of_host_named ht).trans (hostTurn_of_cons hh)
  · exact (step_of_none_named_idle ht hb).trans (hostTurn_of_cons hh)
  · exact (step_of_host_named ht).trans (hostTurn_of_nil hh)
  · exact (step_of_engine_named ht).trans (engineTurn_of_idle hb)
  · exact (step_of_none_named_idle ht hb).trans (hostTurn_of_nil hh)

/-! ### The state after reset -/

theorem readPixel_resetWith (q : Params) (p : Plane) (x y : Nat) : readPixel (State.resetWith q) p x y = none := by
  cases p <;> rfl

theorem readPackByte_resetWith (q : Params) (j : Nat) : readPackByte (State.resetWith q) j = none := rfl

/-- Settles O40: the registers by R41's values at the default parameters, the memories because they list no cell. -/
theorem startsInResetState : Obligations.StartsInResetState :=
  ⟨rfl, rfl, by decide, by decide, by decide, rfl, rfl, readPixel_resetWith _, readPackByte_resetWith _⟩

/-- Empty memories are sound, STATUS 0 is, no command is in flight, and PACK_LEN 0 is in range. -/
theorem stateInv_resetWith {p : Params} (h : p.wellFormed = true) : StateInv (State.resetWith p) = true := by
  have hmem : memoriesOk (State.resetWith p) = true := rfl
  have hstatus : statusOk (State.resetWith p).status = true := rfl
  have hflight : inFlightOk (State.resetWith p) = true := rfl
  have hlen : packLenOk (State.resetWith p) = true := decide_eq_true (Nat.zero_le _)
  have hparams : (State.resetWith p).params.wellFormed = true := h
  simp only [StateInv, hparams, hmem, hstatus, hflight, hlen, Bool.and_self]

/-- Settles O41: R7's defaults are legal, so State.reset is a case of the second clause. -/
theorem invHoldsAtReset : Obligations.InvHoldsAtReset :=
  ⟨stateInv_resetWith (by decide), fun _ => stateInv_resetWith⟩

end Sys2Proof.Machine
end

section
/-! The registers through the bus (R22 to R34): what a host access below 0x1000 reads and writes, at any time. -/

namespace Sys2Proof.Machine

/-! ### Register accesses -/

/-- A register read delivers the register and changes nothing of the block, whatever BUSY is (R59). -/
theorem hostAct_readRegister (s : State) {off : Nat} (h : off < 0x1000) (h4 : off % 4 = 0) :
    hostAct (.read (s.params.base + off) 4) s =
      .next { s with observed := .value (readRegister off s) :: s.observed } := by
  rw [hostAct_read s (by omega) h4, readOffset, if_pos h]
  rfl

theorem hostAct_writeRegister (s : State) {off : Nat} (v : Word) (h : off < 0x1000) (h4 : off % 4 = 0) :
    hostAct (.write (s.params.base + off) 4 v) s = .next (writeRegister off v s) := by
  rw [hostAct_write s v (by omega) h4, writeOffset, if_pos h]

/-- From PACK_LEN on, no register can be written (R32 to R34). -/
theorem writeRegister_of_ge {off : Nat} (v : Word) (s : State) (h : 0x024 ≤ off) : writeRegister off v s = s := by
  have hoff : ∀ k ≤ 0x020, off ≠ k := by omega
  simp [writeRegister, hoff]

/-- The reserved offsets read 0 (R34). -/
theorem readRegister_of_ge {off : Nat} (s : State) (h : 0x02C ≤ off) : readRegister off s = 0#32 := by
  have hoff : ∀ k ≤ 0x028, off ≠ k := by omega
  simp [readRegister, hoff]

theorem capsWord_fields (p : Params) :
    (capsWord p).extractLsb' 0 16 = BitVec.ofNat 16 p.maxW ∧
      (capsWord p).extractLsb' 16 16 = BitVec.ofNat 16 p.maxH :=
  ⟨BitVec.extractLsb'_append_eq_right, BitVec.extractLsb'_append_eq_left⟩

/-- A W1C write as a conjunction with the written zeros (R28). -/
theorem statusAcknowledge_eq (v : Word) (st : Status) :
    statusAcknowledge v st =
      { busy := st.busy, done := st.done && !v.getLsbD 1, err := st.err && !v.getLsbD 2,
        errCode := if v.getLsbD 2 then .none else st.errCode } := by
  rw [statusAcknowledge]
  cases v.getLsbD 1 <;> cases v.getLsbD 2 <;> simp

/-! ### What each register access does -/

/-- Settles O8: the word is STATUS's own, whose bits are `statusWord_bits`. -/
theorem statusReadLayout : Obligations.StatusReadLayout := by
  intro s
  obtain ⟨hbusy, hdone, herr, h3, hcode, hrest⟩ := statusWord_bits s.status
  refine ⟨statusWord s.status, hostAct_readRegister s (by decide) (by decide), hbusy, hdone, herr, h3, ?_, hrest⟩
  rw [hcode]
  cases s.status.errCode <;> rfl

/-- Settles O9: the write is the acknowledgement of R195. -/
theorem statusWriteClearsByOnes : Obligations.StatusWriteClearsByOnes := by
  intro s v
  rw [hostAct_writeRegister s v (by decide) (by decide), ← statusAcknowledge_eq]
  rfl

/-- Settles O10: at each of the seven offsets the register write stores the low half. -/
theorem registerWritesKeepLowHalf : Obligations.RegisterWritesKeepLowHalf := by
  intro s v
  have hlow : v.extractLsb' 0 16 = v.setWidth 16 := (BitVec.setWidth_eq_extractLsb' (by decide)).symm
  rw [hlow]
  refine ⟨?_, ?_, ?_, ?_, ?_, ?_, ?_⟩ <;> exact hostAct_writeRegister s v (by decide) (by decide)

/-- Settles O11: a 16-bit register is read as its extension to 32 bits, which has the same value, and CMD as 0. -/
theorem registerReadsZeroExtend : Obligations.RegisterReadsZeroExtend := by
  intro s off h hreg
  have hread : readRegister off s = h.setWidth 32 := by
    rcases hreg with ⟨rfl, rfl⟩ | ⟨rfl, rfl⟩ | ⟨rfl, rfl⟩ | ⟨rfl, rfl⟩ | ⟨rfl, rfl⟩ | ⟨rfl, rfl⟩ | ⟨rfl, rfl⟩ |
      ⟨rfl, rfl⟩ | ⟨rfl, rfl⟩ <;> rfl
  have hvalue : (h.setWidth 32).toNat = h.toNat := BitVec.toNat_setWidth_of_le (by decide)
  exact ⟨_, hread ▸ hvalue, hostAct_readRegister s (by omega) (by omega)⟩

/-- Settles O12: the read is CAPS at 0x028 and 0 after it, and the write falls through every writable register. -/
theorem capsAndReservedOffsets : Obligations.CapsAndReservedOffsets := by
  intro s v off hlo hhi h4
  refine ⟨readRegister off s, hostAct_readRegister s (by omega) h4, ?_, readRegister_of_ge s, ?_⟩
  · rintro rfl
    refine ⟨(capsWord_fields s.params).1, (capsWord_fields s.params).2, fun hp => ?_⟩
    have hcaps : readRegister 0x028 s = capsWord s.params := rfl
    rw [hcaps, hp]
    decide
  · rw [hostAct_writeRegister s v (by omega) h4, writeRegister_of_ge v s (by omega)]

/-- Settles O13: PACK_LEN's offset is not among the writable registers. -/
theorem packLenIgnoresHostWrites : Obligations.PackLenIgnoresHostWrites := by
  intro s v
  rw [hostAct_writeRegister s v (by decide) (by decide), writeRegister_of_ge v s (by decide)]

/-- Settles O39: the resets of BM_W and BM_H, at most 140 and 32, fit their 16 bits, and the memories list no cell. -/
theorem resetLeavesResetValues : Obligations.ResetLeavesResetValues := by
  intro s
  refine ⟨resetBlock s, rfl, rfl, ?_, ?_, rfl, rfl, rfl, fun p a => ?_, fun j => rfl⟩
  · exact Nat.mod_eq_of_lt (by omega)
  · exact Nat.mod_eq_of_lt (by omega)
  · cases p <;> rfl

end Sys2Proof.Machine
end

section
/-! BUSY and L (R25, R26, R38, R92): the one case analysis of who writes them. -/

namespace Sys2Proof.Machine

open Host (Outcome)

/-! ### What an operation leaves as it was -/

/-- A completion writes the memories, PACK_LEN and STATUS, and nothing else (R98). -/
theorem exec_frame {i : Instr} {s t : State} (h : exec i s = .next t) :
    t = { s with
      planeA := t.planeA, planeB := t.planeB, packBuf := t.packBuf, packLen := t.packLen,
      status := completedStatus s.status } := by
  rcases exec_eq_next h with ⟨-, rfl⟩ | ⟨p, -, rfl⟩ | ⟨p, ps, -, -, rfl⟩ | ⟨p, mode, -, -, -, -, rfl⟩ |
    ⟨p, -, -, -, rfl⟩ | ⟨p, -, -, -, rfl⟩
  · rfl
  · cases p <;> rfl
  · cases p <;> rfl
  · cases p <;> rfl
  · rfl
  · cases p <;> rfl

theorem exec_params {i : Instr} {s t : State} (h : exec i s = .next t) : t.params = s.params := by rw [exec_frame h]

theorem exec_status {i : Instr} {s t : State} (h : exec i s = .next t) : t.status = completedStatus s.status := by
  rw [exec_frame h]

theorem exec_latched {i : Instr} {s t : State} (h : exec i s = .next t) : t.latched = s.latched := by
  rw [exec_frame h]

theorem exec_host {i : Instr} {s t : State} (h : exec i s = .next t) : t.host = s.host := by rw [exec_frame h]

/-- A write of a plane word replaces one plane at most (R53). -/
theorem writePlaneWord_frame (p : Plane) (k : Nat) (v : Word) (s : State) :
    ∃ a b, writePlaneWord p k v s = { s with planeA := a, planeB := b } := by
  unfold writePlaneWord
  split_ifs
  · cases p
    · exact ⟨_, s.planeB, rfl⟩
    · exact ⟨s.planeA, _, rfl⟩
  · exact ⟨s.planeA, s.planeB, rfl⟩

/-- A write of a PACKBUF word replaces PackBuf at most (R55). -/
theorem writePackWord_frame (k : Nat) (v : Word) (s : State) :
    ∃ m, writePackWord k v s = { s with packBuf := m } := by
  unfold writePackWord
  split_ifs
  · exact ⟨_, rfl⟩
  · exact ⟨s.packBuf, rfl⟩

/-! ### Who writes BUSY and L -/

/-- The legal word v is accepted by an idle block: L and STATUS change as R90 says. -/
def AcceptedBy (v : Word) (s t : State) : Prop :=
  s.status.busy = false ∧ (∃ i, decode v = .ok i) ∧ t.status = statusAccept s.status ∧
    t.latched = { cmd := v, w := s.bmW, h := s.bmH, args := s.args }

/-- Neither BUSY nor L changes. -/
def KeepsBusyAndLatch (s t : State) : Prop := t.status.busy = s.status.busy ∧ t.latched = s.latched

theorem writeOffset_busy_latch (off : Nat) (v : Word) (s : State) :
    (off = 0 ∧ AcceptedBy v s (writeOffset off v s)) ∨ KeepsBusyAndLatch s (writeOffset off v s) := by
  rcases writeOffset_cases off v s with ⟨h0, hb, ⟨i, hi, -⟩, h⟩ | ⟨c, -, h⟩ | h | ⟨bw, bh, args, h⟩ |
    ⟨-, ⟨p, k, h⟩ | ⟨k, h⟩⟩
  · exact .inl ⟨h0, hb, ⟨i, hi⟩, by rw [h, accept_status], by rw [h, accept_latched]⟩
  · exact .inr (h ▸ ⟨rfl, rfl⟩)
  · exact .inr (h ▸ ⟨rfl, rfl⟩)
  · exact .inr (h ▸ ⟨rfl, rfl⟩)
  · obtain ⟨a, b, hw⟩ := writePlaneWord_frame p k v s
    exact .inr (h.trans hw ▸ ⟨rfl, rfl⟩)
  · obtain ⟨m, hw⟩ := writePackWord_frame k v s
    exact .inr (h.trans hw ▸ ⟨rfl, rfl⟩)

/-- Everything a host action does to BUSY and L: it issues an accepted command, resets, or leaves both. -/
theorem hostAct_busy_latch {a : HostAction} {s t : State} (h : hostAct a s = .next t) :
    (∃ v, a = .write s.params.base 4 v ∧ AcceptedBy v s t) ∨ (a = .reset ∧ t = resetBlock s) ∨
      KeepsBusyAndLatch s t := by
  rcases hostAct_cases h with ⟨addr, v, off, rfl, rfl, rfl⟩ | ⟨c, o, -, rfl⟩ | ⟨o, acts, rfl⟩ | hreset
  · rcases writeOffset_busy_latch off v s with ⟨rfl, hacc⟩ | hkeep
    · exact .inl ⟨v, rfl, hacc⟩
    · exact .inr (.inr hkeep)
  · exact .inr (.inr ⟨rfl, rfl⟩)
  · exact .inr (.inr ⟨rfl, rfl⟩)
  · exact .inr (.inl hreset)

/-- Everything a step does to BUSY and L: a host's write to CMD is accepted, the latched command completes, the reset
input is asserted, or both stay (R25, R26, R38). -/
theorem step_busy_latch {s t : State} (h : step s = .next t) :
    (∃ v rest, s.host = .write s.params.base 4 v :: rest ∧ AcceptedBy v s t) ∨
    (∃ i, s.status.busy = true ∧ decode s.latched.cmd = .ok i ∧ t.status = completedStatus s.status ∧
      t.latched = s.latched ∧ t.host = s.host) ∨
    (∃ rest, s.host = .reset :: rest ∧ t.status = Status.atReset) ∨
    KeepsBusyAndLatch s t := by
  rcases step_cases h with ⟨i, rest, hb, hd, he⟩ | ⟨a, acts, rest, hh, ha⟩ | ⟨rest, rfl⟩
  · have hstatus := exec_status he
    have hlatched := exec_latched he
    have hhost := exec_host he
    exact .inr (.inl ⟨i, hb, hd, hstatus, hlatched, hhost⟩)
  · rcases hostAct_busy_latch ha with ⟨v, rfl, hacc⟩ | ⟨rfl, rfl⟩ | hkeep
    · exact .inl ⟨v, acts, hh, hacc⟩
    · exact .inr (.inr (.inl ⟨acts, hh, rfl⟩))
    · exact .inr (.inr (.inr hkeep))
  · exact .inr (.inr (.inr ⟨rfl, rfl⟩))

/-- Settles O45: of the four cases of a step only acceptance can raise BUSY, and only completion and reset lower it. -/
theorem busyHasTwoWritersAndReset : Obligations.BusyHasTwoWritersAndReset := by
  intro s t h
  rcases step_busy_latch h with ⟨v, rest, hh, hidle, ⟨i, hi⟩, hst, hl⟩ | ⟨i, hb, hd, hst, -, hh⟩ | ⟨rest, hh, hst⟩ |
    ⟨hkeep, -⟩
  · refine ⟨fun _ _ => ⟨v, i, rest, hh, hi, by rw [hl], by rw [hst]; rfl⟩, fun hb => ?_⟩
    simp [hb] at hidle
  · refine ⟨fun hidle => ?_, fun _ _ => .inl ⟨i, hd, hst, hh⟩⟩
    simp [hidle] at hb
  · refine ⟨fun _ hb => ?_, fun _ _ => .inr ⟨rest, hh, hst⟩⟩
    simp [hst, Status.atReset] at hb
  · exact ⟨fun h0 h1 => by simp [hkeep, h0] at h1, fun h1 h0 => by simp [hkeep, h1] at h0⟩

/-- Settles O46: of the four cases of a step only acceptance and reset write L. -/
theorem latchWrittenOnlyByAcceptance : Obligations.LatchWrittenOnlyByAcceptance := by
  intro s t h hne
  rcases step_busy_latch h with ⟨v, -, -, hidle, -, hst, hl⟩ | ⟨-, -, -, -, hl, -⟩ | ⟨rest, hh, -⟩ | ⟨-, hl⟩
  · exact .inl ⟨hidle, by rw [hst]; rfl, by rw [hl], by rw [hl], by rw [hl]⟩
  · exact absurd hl hne
  · exact .inr ⟨rest, hh⟩
  · exact absurd hl hne

end Sys2Proof.Machine
end

section
/-! The invariant (R7, R24, R26, R32, R35, R37, R91): its clauses, and that each operation and each step keeps it. -/

namespace Sys2Proof.Machine

open Host (Outcome)

/-! ### The clauses -/

theorem stateInv_iff {s : State} :
    StateInv s = true ↔ s.params.wellFormed = true ∧ memoriesOk s = true ∧ statusOk s.status = true ∧
      inFlightOk s = true ∧ packLenOk s = true := by
  simp only [StateInv, Bool.and_eq_true, and_assoc]

theorem wellFormed_of_stateInv {s : State} (h : StateInv s = true) : s.params.wellFormed = true :=
  (stateInv_iff.mp h).1

theorem memoriesOk_of_stateInv {s : State} (h : StateInv s = true) : memoriesOk s = true :=
  (stateInv_iff.mp h).2.1

theorem statusOk_of_stateInv {s : State} (h : StateInv s = true) : statusOk s.status = true :=
  (stateInv_iff.mp h).2.2.1

theorem statusOk_iff {st : Status} :
    statusOk st = true ↔ ¬ (st.busy = true ∧ st.done = true) ∧ (st.err = true ↔ st.errCode ≠ .none) := by
  have herr : (st.err = (st.errCode != .none)) ↔ (st.err = true ↔ st.errCode ≠ .none) := by
    rw [Bool.eq_iff_iff, bne_iff_ne]
  rw [statusOk, Bool.and_eq_true, beq_iff_eq, herr, Bool.not_eq_true', ← Bool.not_eq_true, Bool.and_eq_true]

theorem statusOk_completedStatus {st : Status} (h : statusOk st = true) : statusOk (completedStatus st) = true :=
  statusOk_iff.mpr ⟨nofun, (statusOk_iff.mp h).2⟩

theorem statusOk_statusAccept {st : Status} (h : statusOk st = true) : statusOk (statusAccept st) = true :=
  statusOk_iff.mpr ⟨nofun, (statusOk_iff.mp h).2⟩

/-- A rejection under a code other than 0 sets ERR with a code, or finds both set (R27). -/
theorem statusOk_rejectedStatus {c : ErrCode} {st : Status} (hc : c ≠ .none) (h : statusOk st = true) :
    statusOk (rejectedStatus c st) = true := by
  obtain ⟨hbd, herr⟩ := statusOk_iff.mp h
  refine statusOk_iff.mpr ⟨hbd, iff_of_true rfl ?_⟩
  simp only [rejectedStatus]
  split_ifs with he
  · exact herr.mp he
  · exact hc

/-- An acknowledgement clears ERR together with ERRCODE, and never sets DONE (R28). -/
theorem statusOk_statusAcknowledge {v : Word} {st : Status} (h : statusOk st = true) :
    statusOk (statusAcknowledge v st) = true := by
  obtain ⟨hbd, herr⟩ := statusOk_iff.mp h
  rw [statusAcknowledge_eq]
  refine statusOk_iff.mpr ⟨?_, ?_⟩
  · simp only [Bool.and_eq_true]
    exact fun hb => hbd ⟨hb.1, hb.2.1⟩
  · cases hv : v.getLsbD 2 <;> simp [herr]

theorem inFlightOk_of_idle {s : State} (h : s.status.busy = false) : inFlightOk s = true := by
  simp only [inFlightOk, h, Bool.not_false, Bool.true_or]

theorem inFlightOk_of_decode {s : State} {i : Instr} (hd : decode s.latched.cmd = .ok i)
    (ha : usesWH i = true → areaOk s = true) : inFlightOk s = true := by
  simp only [inFlightOk, hd]
  cases hu : usesWH i with
  | true => rw [ha hu, Bool.or_true, Bool.or_true]
  | false => rw [Bool.not_false, Bool.true_or, Bool.or_true]

theorem inFlightOk_congr {s t : State} (hb : t.status.busy = s.status.busy) (hl : t.latched = s.latched)
    (hp : t.params = s.params) : inFlightOk t = inFlightOk s := by
  simp only [inFlightOk, areaOk, hb, hl, hp]

/-! ### The operations -/

/-- A new STATUS that is sound itself and keeps BUSY keeps the invariant. -/
theorem stateInv_with_status {s : State} {st : Status} (h : StateInv s = true) (hst : statusOk st = true)
    (hb : st.busy = s.status.busy) : StateInv { s with status := st } = true := by
  obtain ⟨hp, hm, -, hf, hl⟩ := stateInv_iff.mp h
  have hflight : inFlightOk { s with status := st } = inFlightOk s := inFlightOk_congr hb rfl rfl
  exact stateInv_iff.mpr ⟨hp, hm, hst, hflight.trans hf, hl⟩

theorem stateInv_rejected {c : ErrCode} {s : State} (hc : c ≠ .none) (h : StateInv s = true) :
    StateInv { s with status := rejectedStatus c s.status } = true :=
  stateInv_with_status h (statusOk_rejectedStatus hc (statusOk_of_stateInv h)) rfl

theorem stateInv_acknowledge {v : Word} {s : State} (h : StateInv s = true) : StateInv (acknowledge v s) = true :=
  stateInv_with_status h (statusOk_statusAcknowledge (statusOk_of_stateInv h)) rfl

/-- An accepted word is a legal command, and the dimensions latched with it passed the issue's check (R91, R92). -/
theorem stateInv_accept {v : Word} {i : Instr} {s : State} (h : StateInv s = true) (hd : decode v = .ok i)
    (hdim : usesWH i = true → dimensionsOk s.params s.bmW s.bmH = true) : StateInv (accept v s) = true := by
  obtain ⟨hp, hm, hst, -, hl⟩ := stateInv_iff.mp h
  exact stateInv_iff.mpr ⟨hp, hm, statusOk_statusAccept hst, inFlightOk_of_decode hd hdim, hl⟩

/-- Other memories of the same parameters keep the invariant when they are sound. -/
theorem stateInv_with_memories {s : State} {a b m : Memory} (h : StateInv s = true)
    (hm : memoriesOk { s with planeA := a, planeB := b, packBuf := m } = true) :
    StateInv { s with planeA := a, planeB := b, packBuf := m } = true := by
  obtain ⟨hp, -, hst, hf, hl⟩ := stateInv_iff.mp h
  exact stateInv_iff.mpr ⟨hp, hm, hst, hf, hl⟩

theorem stateInv_writePlaneWord {p : Plane} {k : Nat} {v : Word} {s : State} (h : StateInv s = true) :
    StateInv (writePlaneWord p k v s) = true := by
  have hm := memoriesOk_writePlaneWord (p := p) (k := k) (v := v) (wellFormed_of_stateInv h) (memoriesOk_of_stateInv h)
  obtain ⟨a, b, hw⟩ := writePlaneWord_frame p k v s
  rw [hw] at hm ⊢
  exact stateInv_with_memories h hm

theorem stateInv_writePackWord {k : Nat} {v : Word} {s : State} (h : StateInv s = true) :
    StateInv (writePackWord k v s) = true := by
  have hm := memoriesOk_writePackWord (k := k) (v := v) (wellFormed_of_stateInv h) (memoriesOk_of_stateInv h)
  obtain ⟨m, hw⟩ := writePackWord_frame k v s
  rw [hw] at hm ⊢
  exact stateInv_with_memories h hm

theorem stateInv_writeOffset {off : Nat} {v : Word} {s : State} (h : StateInv s = true) :
    StateInv (writeOffset off v s) = true := by
  rcases writeOffset_cases off v s with ⟨-, -, ⟨i, hd, hdim⟩, hw⟩ | ⟨c, hc, hw⟩ | hw | ⟨bw, bh, args, hw⟩ |
    ⟨-, ⟨p, k, hw⟩ | ⟨k, hw⟩⟩ <;> rw [hw]
  · exact stateInv_accept h hd hdim
  · exact stateInv_rejected hc h
  · exact stateInv_acknowledge h
  · exact h
  · exact stateInv_writePlaneWord h
  · exact stateInv_writePackWord h

/-- Host actions keep the invariant: what only the host's own lists hold does not bear on it. -/
theorem stateInv_hostAct {a : HostAction} {s t : State} (h : StateInv s = true) (ha : hostAct a s = .next t) :
    StateInv t = true := by
  rcases hostAct_cases ha with ⟨addr, v, off, -, -, rfl⟩ | ⟨c, o, hc, rfl⟩ | ⟨o, acts, rfl⟩ | ⟨-, rfl⟩
  · exact stateInv_writeOffset h
  · exact stateInv_rejected hc h
  · exact h
  · exact stateInv_resetWith (wellFormed_of_stateInv (s := s) h)

/-- PACK_LEN after a completion is as it was or the packed length, which PackBuf holds (R170, R175). -/
theorem packLenOk_exec {i : Instr} {s t : State} (hp : s.params.wellFormed = true) (h : packLenOk s = true)
    (he : exec i s = .next t) : packLenOk t = true := by
  have packed : areaOk s = true → (BitVec.ofNat 16 (packedLength s.latched)).toNat ≤ packBytes s.params :=
    fun ha => (Nat.mod_le _ _).trans (packedLength_le hp ha)
  rcases exec_eq_next he with ⟨-, rfl⟩ | ⟨p, -, rfl⟩ | ⟨p, ps, -, -, rfl⟩ | ⟨p, mode, -, -, -, -, rfl⟩ |
    ⟨p, -, ha, -, rfl⟩ | ⟨p, -, ha, -, rfl⟩
  · exact h
  · cases p <;> exact h
  · cases p <;> exact h
  · cases p <;> exact h
  · exact decide_eq_true (packed ha)
  · cases p <;> exact decide_eq_true (packed ha)

/-- A completion keeps the invariant; BUSY is 0 after it, so no command is in flight. -/
theorem stateInv_exec {i : Instr} {s t : State} (h : StateInv s = true) (he : exec i s = .next t) :
    StateInv t = true := by
  obtain ⟨hp, hm, hst, -, hl⟩ := stateInv_iff.mp h
  have hidle : t.status.busy = false := by rw [exec_status he]; rfl
  exact stateInv_iff.mpr ⟨exec_params he ▸ hp, memoriesOk_exec hp hm he,
    exec_status he ▸ statusOk_completedStatus hst, inFlightOk_of_idle hidle, packLenOk_exec hp hl he⟩

/-- Settles O42: the latched command's completion and each host action keep the invariant, and the use of a turn does
not bear on it. -/
theorem invKeptByEveryStep : Obligations.InvKeptByEveryStep := by
  intro s t h hstep
  have hturns : ∀ rest acts, StateInv { s with turns := rest, host := acts } = true := fun _ _ => h
  rcases step_cases hstep with ⟨i, rest, -, -, he⟩ | ⟨a, acts, rest, -, ha⟩ | ⟨rest, rfl⟩
  · exact stateInv_exec (hturns rest s.host) he
  · exact stateInv_hostAct (hturns rest acts) ha
  · exact hturns rest s.host

end Sys2Proof.Machine
end

section
/-! Noninterference of the live registers (R38, R92, R211): a completion reads L, the planes and PackBuf alone. -/

namespace Sys2Proof.Machine

open Host (Outcome)

/-- The state with other values in everything that a completion must not read: BM_W, BM_H, the ARG registers, PACK_LEN,
ERR and ERRCODE. -/
def withLive (w h n : Half) (args : Args) (e : Bool) (c : ErrCode) (s : State) : State :=
  { s with bmW := w, bmH := h, args := args, packLen := n, status := { s.status with err := e, errCode := c } }

/-- Two completions have one effect on the memories and leave the live registers at the given values in the second, or
stop under one fault. -/
def SameEffect (w h : Half) (args : Args) (e : Bool) (c : ErrCode) :
    Outcome State Fault Refusal → Outcome State Fault Refusal → Prop
  | .next t, .next t' => t'.planeA = t.planeA ∧ t'.planeB = t.planeB ∧ t'.packBuf = t.packBuf ∧
      t'.bmW = w ∧ t'.bmH = h ∧ t'.args = args ∧ t'.status.err = e ∧ t'.status.errCode = c
  | .fault f, .fault f' => f' = f
  | _, _ => False

section
variable {w h n : Half} {args : Args} {e : Bool} {c : ErrCode}

theorem planeOf_withLive (p : Plane) (s : State) : planeOf (withLive w h n args e c s) p = planeOf s p := by
  cases p <;> rfl

theorem setPlane_withLive (p : Plane) (m : Memory) (s : State) :
    setPlane (withLive w h n args e c s) p m = withLive w h n args e c (setPlane s p m) := by
  cases p <;> rfl

/-- The end of a completion writes BUSY and DONE alone, so it keeps the memories and the live registers. -/
theorem sameEffect_finish (s : State) :
    SameEffect w h args e c (finish s) (finish (withLive w h n args e c s)) :=
  ⟨rfl, rfl, rfl, rfl, rfl, rfl, rfl, rfl⟩

/-- PACK_LEN is not among the memories, so the completion may set it before it finishes. -/
theorem sameEffect_finish_setPackLen (s : State) :
    SameEffect w h args e c (finish (setPackLen s)) (finish (setPackLen (withLive w h n args e c s))) :=
  ⟨rfl, rfl, rfl, rfl, rfl, rfl, rfl, rfl⟩

/-- A condition that both completions share lets them stop or go on together. -/
theorem sameEffect_ite {q : Prop} [Decidable q] {f : Fault} {k k' : Outcome State Fault Refusal}
    (hk : SameEffect w h args e c k k') :
    SameEffect w h args e c (if q then .fault f else k) (if q then .fault f else k') := by
  split_ifs
  · rfl
  · exact hk

theorem sameEffect_withActiveArea {s : State} {k k' : Outcome State Fault Refusal} (hk : SameEffect w h args e c k k') :
    SameEffect w h args e c (withActiveArea s k) (withActiveArea (withLive w h n args e c s) k') := by
  have harea : areaOk (withLive w h n args e c s) = areaOk s := rfl
  unfold withActiveArea
  rw [harea]
  split_ifs
  · exact hk
  · rfl

theorem sameEffect_draw (p : Plane) (ps : PixelSet) (s : State) :
    SameEffect w h args e c (draw p ps s) (draw p ps (withLive w h n args e c s)) := by
  have hplot : plot p ps (withLive w h n args e c s) = withLive w h n args e c (plot p ps s) := by cases p <;> rfl
  unfold draw
  rw [hplot]
  exact sameEffect_withActiveArea (sameEffect_finish _)

theorem sameEffect_combineActive (mode : CombineMode) (p : Plane) (s : State) :
    SameEffect w h args e c (combineActive mode p s) (combineActive mode p (withLive w h n args e c s)) := by
  have hplane : combinedPlane mode p (withLive w h n args e c s) = combinedPlane mode p s := by cases p <;> rfl
  have hknown : ∀ m, areaKnown m (withLive w h n args e c s) = areaKnown m s := fun _ => rfl
  unfold combineActive
  simp only [planeOf_withLive, hknown, hplane, setPlane_withLive]
  exact sameEffect_withActiveArea (sameEffect_ite (sameEffect_ite (sameEffect_finish _)))

theorem sameEffect_execPack (p : Plane) (s : State) :
    SameEffect w h args e c (execPack p s) (execPack p (withLive w h n args e c s)) := by
  have hbuf : packedBuffer p (withLive w h n args e c s) = packedBuffer p s := by cases p <;> rfl
  have hknown : ∀ m, areaKnown m (withLive w h n args e c s) = areaKnown m s := fun _ => rfl
  unfold execPack
  simp only [planeOf_withLive, hknown, hbuf]
  exact sameEffect_withActiveArea (sameEffect_ite (sameEffect_finish_setPackLen { s with packBuf := _ }))

theorem sameEffect_execUnpack (p : Plane) (s : State) :
    SameEffect w h args e c (execUnpack p s) (execUnpack p (withLive w h n args e c s)) := by
  have hplane : unpackedPlane p (withLive w h n args e c s) = unpackedPlane p s := by cases p <;> rfl
  have hknown : packedKnown (withLive w h n args e c s) = packedKnown s := rfl
  unfold execUnpack
  simp only [hknown, hplane, setPlane_withLive]
  exact sameEffect_withActiveArea (sameEffect_ite (sameEffect_finish_setPackLen _))

/-- Other values in the live registers do not change what a completion does, command by command. -/
theorem sameEffect_exec (i : Instr) (s : State) :
    SameEffect w h args e c (exec i s) (exec i (withLive w h n args e c s)) := by
  cases i with
  | nop => exact sameEffect_finish s
  | clear p =>
    have hclear := congrArg finish
      (setPlane_withLive (w := w) (h := h) (n := n) (args := args) (e := e) (c := c) p
        (filled (planeSize s.params) (bitCell false)) s)
    rw [exec, exec, execClear, execClear]
    exact hclear ▸ sameEffect_finish _
  | line p => exact sameEffect_draw p _ s
  | linePolar p => exact sameEffect_draw p _ s
  | circle p f => exact sameEffect_draw p _ s
  | box p f => exact sameEffect_draw p _ s
  | combineNormal p => exact sameEffect_combineActive .normal p s
  | combineOr p => exact sameEffect_combineActive .or p s
  | combineAnd p => exact sameEffect_combineActive .and p s
  | combineXor p => exact sameEffect_combineActive .xor p s
  | pack p => exact sameEffect_execPack p s
  | unpack p => exact sameEffect_execUnpack p s

end

/-- Settles O48: the two runs have one effect, command by command. -/
theorem engineReadsOnlyLatchedOperands : Obligations.EngineReadsOnlyLatchedOperands := by
  intro i s w h n args e c
  have hsame : SameEffect w h args e c (exec i s) (exec i (withLive w h n args e c s)) := sameEffect_exec i s
  rw [withLive] at hsame
  revert hsame
  generalize exec i s = o
  generalize exec i _ = o'
  intro hsame
  cases o <;> cases o' <;> exact hsame

end Sys2Proof.Machine
end

section
/-! The memory windows through the bus (R51 to R61): which accesses exist, what a window access is while idle and while
BUSY = 1, the words of each window, and what the host can reach of a command in flight. -/

namespace Sys2Proof.Machine

/-! ### Accesses that do not exist -/

theorem busOffset_outside {p : Params} {addr size : Nat} (h : addr < p.base ∨ p.base + 0x4000 ≤ addr) :
    busOffset p addr size = .error .outsideBlock := by
  rw [busOffset, if_pos h]

theorem busOffset_subWord {p : Params} {addr size : Nat} (h1 : p.base ≤ addr) (h2 : addr < p.base + 0x4000)
    (hsize : size ≠ 4) : busOffset p addr size = .error .subWordAccess := by
  rw [busOffset, if_neg (by omega), if_pos hsize]

theorem busOffset_unaligned {p : Params} {addr : Nat} (h1 : p.base ≤ addr) (h2 : addr < p.base + 0x4000)
    (h4 : (addr - p.base) % 4 ≠ 0) : busOffset p addr 4 = .error .unalignedAccess := by
  rw [busOffset, if_neg (by omega), if_neg (by omega), if_pos h4]

/-- What the address decode refuses, neither a read nor a write performs. -/
theorem hostAct_refused {s : State} {addr size : Nat} {r : Refusal} (v : Word)
    (h : busOffset s.params addr size = .error r) :
    hostAct (.read addr size) s = .refused r ∧ hostAct (.write addr size v) s = .refused r := by
  simp only [hostAct, hostRead, hostWrite, h, and_self]

/-- Settles O14: each of the three faults is the address decode's refusal under its name. -/
theorem nonexistentAccessesHaveNoStep : Obligations.NonexistentAccessesHaveNoStep := by
  intro s addr size v
  refine ⟨fun h => hostAct_refused v (busOffset_outside h),
    fun h1 h2 hsize => hostAct_refused v (busOffset_subWord h1 h2 hsize), ?_⟩
  rintro h1 h2 rfl h4
  exact hostAct_refused v (busOffset_unaligned h1 h2 h4)

/-! ### Window accesses -/

section
variable {s : State} {off : Nat} (h1 : 0x1000 ≤ off) (h2 : off < 0x4000) (h4 : off % 4 = 0)
include h1 h2 h4

theorem hostAct_readWindow_ok {w : Word} (hb : s.status.busy = false) (hr : readWindow off s = .ok w) :
    hostAct (.read (s.params.base + off) 4) s = .next { s with observed := .value w :: s.observed } := by
  rw [hostAct_read s h2 h4, readOffset_window h1 hb, hr]
  rfl

theorem hostAct_readWindow_error {f : Fault} (hb : s.status.busy = false) (hr : readWindow off s = .error f) :
    hostAct (.read (s.params.base + off) 4) s = .fault f := by
  rw [hostAct_read s h2 h4, readOffset_window h1 hb, hr]
  rfl

theorem hostAct_writeWindow (v : Word) (hb : s.status.busy = false) :
    hostAct (.write (s.params.base + off) 4 v) s = .next (writeWindow off v s) := by
  rw [hostAct_write s v h2 h4, writeOffset_window v h1 hb]

theorem hostAct_readWindow_busy (hb : s.status.busy = true) :
    hostAct (.read (s.params.base + off) 4) s =
      .next { s with status := rejectedStatus .busyAccess s.status, observed := .value 0#32 :: s.observed } := by
  rw [hostAct_read s h2 h4, readOffset, if_neg (by omega), if_pos hb, raiseCmdError_eq]
  rfl

theorem hostAct_writeWindow_busy (v : Word) (hb : s.status.busy = true) :
    hostAct (.write (s.params.base + off) 4 v) s = .next { s with status := rejectedStatus .busyAccess s.status } := by
  rw [hostAct_write s v h2 h4, writeOffset, if_neg (by omega), if_pos hb, raiseCmdError_eq]

end

/-- A window write replaces memories alone (R53, R55). -/
theorem writeWindow_frame (off : Nat) (v : Word) (s : State) :
    ∃ a b m, writeWindow off v s = { s with planeA := a, planeB := b, packBuf := m } := by
  have plane : ∀ p k, ∃ a b m, writePlaneWord p k v s = { s with planeA := a, planeB := b, packBuf := m } := by
    intro p k
    obtain ⟨a, b, h⟩ := writePlaneWord_frame p k v s
    exact ⟨a, b, s.packBuf, h⟩
  unfold writeWindow
  split_ifs
  · exact plane .a _
  · exact plane .b _
  · obtain ⟨m, h⟩ := writePackWord_frame (windowIndex off) v s
    exact ⟨s.planeA, s.planeB, m, h⟩

/-! ### Plane words -/

/-- The backed words fit the window of 1024 words (R7, R52). -/
theorem planeWords_le {p : Params} (h : p.wellFormed = true) : planeWords p ≤ 1024 := by
  obtain ⟨-, -, -, -, -, -, hsize, -⟩ := params_facts h
  exact Nat.div_le_div_right hsize

/-- Settles O15: the access is that of window word k of plane p, whose pixels are keyed by `windowKey`. -/
theorem planeWindowWordLayout : Obligations.PlaneWindowWordLayout := by
  intro s p k hs hb hk y x0 addr
  have hk1024 : k < 1024 := lt_of_lt_of_le hk (planeWords_le hs)
  obtain ⟨hlo, hhi, h4⟩ := planeWindow_facts p hk1024
  have hoff : planeWindow p k < 0x4000 := by omega
  have haddr : addr = s.params.base + planeWindow p k := by cases p <;> exact Nat.add_assoc _ _ _
  rw [haddr]
  refine ⟨fun w hw => ?_, fun ⟨b, hb32, hnone⟩ => ?_, fun v hm => ?_⟩
  · exact hostAct_readWindow_ok hlo hoff h4 hb ((readWindow_plane p s hk1024).trans (readPlaneWord_known hk hw))
  · exact hostAct_readWindow_error hlo hoff h4 hb
      ((readWindow_plane p s hk1024).trans (readPlaneWord_unknown hk hb32 hnone))
  · obtain ⟨m, hwrite, -, hset, hkept⟩ := cellAt_writePlaneWord (v := v) hs hm hk
    refine ⟨m, ?_, hset, hkept⟩
    rw [hostAct_writeWindow hlo hoff h4 v hb, writeWindow_plane p v s hk1024, hwrite]

/-! ### PACKBUF words -/

theorem readPackWord_known {k : Nat} {s : State} {b0 b1 b2 b3 : Byte} (hk : k < packWords s.params)
    (h0 : readPackByte s (4 * k) = some b0) (h1 : readPackByte s (4 * k + 1) = some b1)
    (h2 : readPackByte s (4 * k + 2) = some b2) (h3 : readPackByte s (4 * k + 3) = some b3) :
    readPackWord k s = .ok (wordOfBytes b0 b1 b2 b3) := by
  rw [readPackWord, if_pos hk, h0, h1, h2, h3]

theorem readPackWord_unknown {k i : Nat} {s : State} (hk : k < packWords s.params) (hi : i < 4)
    (h : readPackByte s (4 * k + i) = none) : readPackWord k s = .error .unspecifiedPackWord := by
  rw [readPackWord, if_pos hk]
  split
  next h0 h1 h2 h3 =>
    have hlane : i = 0 ∨ i = 1 ∨ i = 2 ∨ i = 3 := by omega
    rcases hlane with rfl | rfl | rfl | rfl
    · cases h0.symm.trans h
    · cases h1.symm.trans h
    · cases h2.symm.trans h
    · cases h3.symm.trans h
  next => rfl

/-- Settles O16: the access is that of PACKBUF word k, whose lane i is byte 4k + i. -/
theorem packWindowWordLayout : Obligations.PackWindowWordLayout := by
  intro s k hs hb hk addr
  have hk1024 : k < 1024 := lt_of_lt_of_le hk (planeWords_le hs)
  have hlo : 0x1000 ≤ 0x3000 + 4 * k := by omega
  have hhi : 0x3000 + 4 * k < 0x4000 := by omega
  have h4 : (0x3000 + 4 * k) % 4 = 0 := by omega
  have haddr : addr = s.params.base + (0x3000 + 4 * k) := Nat.add_assoc _ _ _
  rw [haddr]
  refine ⟨fun b0 b1 b2 b3 h0 h1 h2 h3 => ?_, fun ⟨i, hi, hnone⟩ => ?_, fun v hm => ?_⟩
  · exact hostAct_readWindow_ok hlo hhi h4 hb
      ((readWindow_pack s hk1024).trans (readPackWord_known hk h0 h1 h2 h3))
  · exact hostAct_readWindow_error hlo hhi h4 hb
      ((readWindow_pack s hk1024).trans (readPackWord_unknown hk hi hnone))
  · obtain ⟨m, hwrite, -, hset, hkept⟩ := cellAt_writePackWord (v := v) hm hk
    refine ⟨m, ?_, hset, hkept⟩
    rw [hostAct_writeWindow hlo hhi h4 v hb, writeWindow_pack v s hk1024, hwrite]

/-! ### Reading back what was written -/

theorem getLsbD_zero_bitCell (b : Bool) : (bitCell b).getLsbD 0 = b := by cases b <;> rfl

theorem readPlaneWord_writePlaneWord {p : Plane} {k : Nat} {v : Word} {s : State} (hs : s.params.wellFormed = true)
    (hm : memoryWf (planeOf s p) = true) (hk : k < planeWords s.params) :
    readPlaneWord p k (writePlaneWord p k v s) = .ok v := by
  obtain ⟨m, hwrite, -, hset, -⟩ := cellAt_writePlaneWord (v := v) hs hm hk
  rw [hwrite]
  refine readPlaneWord_known (by rw [setPlane_params]; exact hk) fun b hb => ?_
  have hcell := hset b hb
  rw [windowKey] at hcell
  rw [readPixel, planeOf_setPlane_self, setPlane_params, hcell, Option.map_some, getLsbD_zero_bitCell]

theorem readPackWord_writePackWord {k : Nat} {v : Word} {s : State} (hm : memoryWf s.packBuf = true)
    (hk : k < packWords s.params) : readPackWord k (writePackWord k v s) = .ok v := by
  obtain ⟨m, hwrite, -, hset, -⟩ := cellAt_writePackWord (v := v) hm hk
  have hread : readPackWord k { s with packBuf := m } = .ok _ :=
    readPackWord_known hk (hset 0 (by decide)) (hset 1 (by decide)) (hset 2 (by decide)) (hset 3 (by decide))
  rw [hwrite, hread, wordOfBytes_byteOfWord]

/-- The offset is that of a backed word of one of the three windows (R52, log 20). -/
def BackedOffset (p : Params) (off : Nat) : Prop :=
  ∃ k < planeWords p, (∃ q, off = planeWindow q k) ∨ off = 0x3000 + 4 * k

/-- Each window's backed bytes are those of its backed words (R7, R52): MAX_W·MAX_H is a multiple of 32. -/
theorem windowBytes_eq {p : Params} (h : p.wellFormed = true) : p.maxW * p.maxH / 8 = 4 * planeWords p := by
  obtain ⟨cols, n, -, -, -, -, -, -, hbytes, hwords, -⟩ := params_shape h
  rw [packBytes] at hbytes
  omega

/-- An aligned offset among the first PW words of a window is that of a backed word. -/
theorem backedOffset_of_range {p : Params} {off : Nat} (hp : p.wellFormed = true) (h4 : off % 4 = 0)
    (h : 0x1000 ≤ off ∧ off < 0x1000 + 4 * planeWords p ∨ 0x2000 ≤ off ∧ off < 0x2000 + 4 * planeWords p ∨
      0x3000 ≤ off ∧ off < 0x3000 + 4 * planeWords p) : BackedOffset p off := by
  have hle := planeWords_le hp
  obtain ⟨k, hk, ⟨q, rfl⟩ | rfl⟩ := window_cases (off := off) (by omega) (by omega) h4
  · refine ⟨k, ?_, .inl ⟨q, rfl⟩⟩
    cases q <;> simp only [planeWindow] at h <;> omega
  · exact ⟨k, by omega, .inr rfl⟩

theorem readWindow_writeWindow {off : Nat} {v : Word} {s : State} (hs : s.params.wellFormed = true)
    (hm : memoriesOk s = true) (h : BackedOffset s.params off) : readWindow off (writeWindow off v s) = .ok v := by
  obtain ⟨hplane, hpack⟩ := memoryWf_of_memoriesOk hm
  obtain ⟨k, hk, ⟨q, rfl⟩ | rfl⟩ := h
  all_goals have hk1024 : k < 1024 := lt_of_lt_of_le hk (planeWords_le hs)
  · rw [writeWindow_plane q v s hk1024, readWindow_plane q _ hk1024, readPlaneWord_writePlaneWord hs (hplane q) hk]
  · rw [writeWindow_pack v s hk1024, readWindow_pack _ hk1024, readPackWord_writePackWord hpack hk]

/-- Settles O17: the write keeps BASE and BUSY, so the read reaches the word just written. -/
theorem windowWordReadsBackAsWritten : Obligations.WindowWordReadsBackAsWritten := by
  intro s t off v hs hm hb h4 hoff hwrite
  rw [windowBytes_eq hs] at hoff
  have hle := planeWords_le hs
  have hlo : 0x1000 ≤ off := by omega
  have hhi : off < 0x4000 := by omega
  have hread := readWindow_writeWindow (v := v) hs hm (backedOffset_of_range hs h4 hoff)
  rw [hostAct_writeWindow hlo hhi h4 v hb] at hwrite
  obtain ⟨a, b, m, hframe⟩ := writeWindow_frame off v s
  cases hwrite
  rw [hframe] at hread ⊢
  exact hostAct_readWindow_ok hlo hhi h4 hb hread

/-! ### Unbacked words -/

/-- R54: a word from the backed size on reads 0 and cannot be written, in each of the three windows. -/
theorem window_unbacked {wb k : Nat} (v : Word) {s : State} (hwb : wb = 0x1000 ∨ wb = 0x2000 ∨ wb = 0x3000)
    (hk : k < 1024) (h : planeWords s.params ≤ k) :
    readWindow (wb + 4 * k) s = .ok 0#32 ∧ writeWindow (wb + 4 * k) v s = s := by
  have hplane : ¬ k < planeWords s.params := Nat.not_lt.mpr h
  have hpack : ¬ k < packWords s.params := hplane
  have plane : ∀ p, readWindow (planeWindow p k) s = .ok 0#32 ∧ writeWindow (planeWindow p k) v s = s := fun p => by
    rw [readWindow_plane p s hk, writeWindow_plane p v s hk, readPlaneWord, writePlaneWord, if_neg hplane,
      if_neg hplane]
    exact ⟨rfl, rfl⟩
  rcases hwb with rfl | rfl | rfl
  · exact plane .a
  · exact plane .b
  · rw [readWindow_pack s hk, writeWindow_pack v s hk, readPackWord, writePackWord, if_neg hpack, if_neg hpack]
    exact ⟨rfl, rfl⟩

/-- Settles O18: while idle the word is unbacked, and while BUSY = 1 the window word is rejected whichever it is. -/
theorem unbackedWordsReadZero : Obligations.UnbackedWordsReadZero := by
  intro s wb k v hk hwb hunbacked
  have hlo : 0x1000 ≤ wb + 4 * k := by omega
  have hhi : wb + 4 * k < 0x4000 := by omega
  have h4 : (wb + 4 * k) % 4 = 0 := by omega
  obtain ⟨hread, hwrite⟩ := window_unbacked v hwb hk hunbacked
  rw [Nat.add_assoc]
  refine ⟨fun hb => ⟨hostAct_readWindow_ok hlo hhi h4 hb hread, ?_⟩,
    fun hb => ⟨hostAct_readWindow_busy hlo hhi h4 hb, hostAct_writeWindow_busy hlo hhi h4 v hb⟩⟩
  rw [hostAct_writeWindow hlo hhi h4 v hb, hwrite]

/-! ### A command in flight -/

/-- While BUSY = 1 a host write reaches STATUS, without BUSY and without setting DONE, and the live registers (R60,
R190, R211). -/
theorem writeOffset_busy {s : State} (off : Nat) (v : Word) (hb : s.status.busy = true)
    (hd : s.status.done = false) :
    ∃ st w h args, writeOffset off v s = { s with status := st, bmW := w, bmH := h, args := args } ∧
      st.busy = true ∧ st.done = false := by
  rcases writeOffset_cases off v s with ⟨-, hidle, -⟩ | ⟨c, -, h⟩ | h | ⟨bw, bh, args, h⟩ | ⟨hidle, -⟩
  · rw [hb] at hidle; cases hidle
  · exact ⟨_, _, _, _, h, hb, hd⟩
  · refine ⟨_, _, _, _, h, hb, ?_⟩
    rw [statusAcknowledge_eq, hd, Bool.false_and]
  · exact ⟨_, _, _, _, h, hb, hd⟩
  · rw [hb] at hidle; cases hidle

/-- While BUSY = 1 a host action other than reset reaches, beyond the host's own lists, what a host write reaches. -/
theorem hostAct_busy {a : HostAction} {s t : State} (hb : s.status.busy = true) (hd : s.status.done = false)
    (ha : a ≠ .reset) (h : hostAct a s = .next t) :
    ∃ st w h args o acts,
      t = { s with status := st, bmW := w, bmH := h, args := args, observed := o, host := acts } ∧
        st.busy = true ∧ st.done = false := by
  rcases hostAct_cases h with ⟨addr, v, off, -, -, rfl⟩ | ⟨c, o, -, rfl⟩ | ⟨o, acts, rfl⟩ | ⟨hreset, -⟩
  · obtain ⟨st, w, h, args, hw, hst⟩ := writeOffset_busy off v hb hd
    exact ⟨st, w, h, args, _, _, hw, hst⟩
  · exact ⟨_, _, _, _, _, _, rfl, hb, hd⟩
  · exact ⟨_, _, _, _, _, _, rfl, hb, hd⟩
  · exact absurd hreset ha

/-- Settles O47: what a host action can reach while BUSY = 1 holds neither L nor a memory nor PACK_LEN. -/
theorem hostCannotDisturbCommandInFlight : Obligations.HostCannotDisturbCommandInFlight := by
  intro s t a hb hd ha h
  obtain ⟨st, w, bh, args, o, acts, rfl, hbusy, hdone⟩ := hostAct_busy hb hd ha h
  exact ⟨rfl, rfl, rfl, rfl, rfl, hbusy, hdone, rfl⟩

end Sys2Proof.Machine
end

section
/-! Command words (R71 to R84): a word is legal exactly when its fields are, and then it is the word of one command. -/

namespace Sys2Proof

open Machine

/-! ### A command comes back from its word -/

theorem decode_encode (i : Instr) : decode (encode i) = .ok i := by
  cases i with
  | nop => rfl
  | circle p filled | box p filled => cases p <;> cases filled <;> rfl
  | clear p | line p | linePolar p | combineNormal p | combineOr p | combineAnd p | combineXor p | pack p | unpack p =>
    cases p <;> rfl

/-! ### A word comes back from its command -/

/-- The word that holds P and F and is 0 elsewhere (R73, R74). -/
def operandBits (b f : Bool) : Word := (if b then 0x100#32 else 0#32) ||| (if f then 0x200#32 else 0#32)

theorem and_operandMask (v : Word) : v &&& 0x300#32 = operandBits (v.getLsbD 8) (v.getLsbD 9) :=
  calc v &&& 0x300#32
      = (v &&& 0x100#32) ||| (v &&& 0x200#32) := BitVec.and_or_distrib_left (y := 0x100#32) (z := 0x200#32)
    _ = operandBits (v.getLsbD 8) (v.getLsbD 9) :=
      congrArg₂ (· ||| ·) (BitVec.and_twoPow v 8) (BitVec.and_twoPow v 9)

/-- The bits that a row's mask drops are among P and F (R71, R78). -/
theorem dropped_bits_of_row : ∀ row ∈ opcodeTable, ~~~row.mask = 0x300#32 &&& ~~~row.mask := by decide

/-- A row's command carries the row's match and, of P and F, the bits that the row's mask drops (R78). -/
theorem encode_build : ∀ row ∈ opcodeTable, ∀ b f : Bool,
    encode (row.build (if b then .b else .a) f) = row.pattern ||| (operandBits b f &&& ~~~row.mask) := by decide

/-- The command that a matching row builds from a word has that word. -/
theorem encode_build_of_match {row : OpRow} (hr : row ∈ opcodeTable) {v : Word} (hm : v &&& row.mask = row.pattern) :
    encode (row.build (planeOfWord v) (filledOfWord v)) = v :=
  calc encode (row.build (planeOfWord v) (filledOfWord v))
      = row.pattern ||| (operandBits (v.getLsbD 8) (v.getLsbD 9) &&& ~~~row.mask) := encode_build row hr _ _
    _ = (v &&& row.mask) ||| (v &&& ~~~row.mask) := by
        rw [hm, ← and_operandMask, BitVec.and_assoc, ← dropped_bits_of_row row hr]
    _ = v := (word_eq_masked_or v row.mask).symm

theorem encode_of_decode {v : Word} {i : Instr} (h : decode v = .ok i) : encode i = v := by
  rw [decode] at h
  split at h
  next row hf =>
    cases h
    exact encode_build_of_match (List.mem_of_find?_eq_some hf) (by simpa using List.find?_some hf)
  next => cases h

theorem decode_eq_ok_iff (v : Word) (i : Instr) : decode v = .ok i ↔ encode i = v :=
  ⟨encode_of_decode, fun h => h ▸ decode_encode i⟩

/-- Settles O2: a row that matches a word keeps all of it but P and F, which the row's command carries. -/
theorem legalWordIsEncodingOfItsCommand : Obligations.LegalWordIsEncodingOfItsCommand := decode_eq_ok_iff

/-- Settles O1: the first twelve words are the words of their commands, and no row matches the last four. -/
theorem decodeOfSpecWords : Obligations.DecodeOfSpecWords :=
  ⟨decode_encode .nop, decode_encode (.clear .b), decode_encode (.line .b), decode_encode (.linePolar .a),
    decode_encode (.circle .a true), decode_encode (.box .b true), decode_encode (.combineNormal .a),
    decode_encode (.combineOr .b), decode_encode (.combineAnd .b), decode_encode (.combineXor .b),
    decode_encode (.pack .b), decode_encode (.unpack .a), rfl, rfl, rfl, rfl⟩

/-! ### Disjoint rows -/

/-- Settles O4: two rows' matches differ in a bit that both masks keep. -/
theorem opcodeRowsDisjoint : Obligations.OpcodeRowsDisjoint := by
  have hdiffer : opcodeTable.Pairwise (fun r q => r.pattern &&& q.mask ≠ q.pattern &&& r.mask) := by decide
  refine hdiffer.imp fun hne v ⟨hr, hq⟩ => hne ?_
  rw [← hr, ← hq]
  ac_rfl

/-! ### Legal fields -/

/-- R81's fields from the other side, with OPC as a number. -/
theorem legalFields_iff (c : CmdFields) :
    c.wellFormed = true ↔ c.opc.toNat ≤ 8 ∧ c.rsv = 0#20 ∧ (c.opc.toNat = 0 → c.p = 0#1) ∧
      (c.opc.toNat ≠ 4 → c.opc.toNat ≠ 5 → c.f = 0#1) ∧ (c.opc.toNat ≠ 6 → c.m = 0#2) := by
  simp only [CmdFields.wellFormed, CmdFields.opcodeAssigned, CmdFields.reservedZero, CmdFields.unusedPlaneZero,
    CmdFields.unusedFilledZero, CmdFields.unusedModeZero, Bool.and_eq_true, Bool.or_eq_true, decide_eq_true_eq,
    beq_iff_eq, bne_iff_ne, ne_eq, ← BitVec.toNat_inj (x := c.opc), BitVec.reduceToNat]
  tauto

theorem encoding_statement (i : Instr) : Laws.Encoding.Statement i :=
  match i with
  | .nop => Laws.Encoding.nop
  | .clear p => Laws.Encoding.clear p
  | .line p => Laws.Encoding.line p
  | .linePolar p => Laws.Encoding.linePolar p
  | .circle p filled => Laws.Encoding.circle p filled
  | .box p filled => Laws.Encoding.box p filled
  | .combineNormal p => Laws.Encoding.combineNormal p
  | .combineOr p => Laws.Encoding.combineOr p
  | .combineAnd p => Laws.Encoding.combineAnd p
  | .combineXor p => Laws.Encoding.combineXor p
  | .pack p => Laws.Encoding.pack p
  | .unpack p => Laws.Encoding.unpack p

theorem planeBit_surjective (b : BitVec 1) : ∃ p, planeBit p = b := by
  obtain rfl | rfl := BitVec.eq_zero_or_eq_one b
  · exact ⟨.a, rfl⟩
  · exact ⟨.b, rfl⟩

theorem filledBit_surjective (b : BitVec 1) : ∃ filled, filledBit filled = b := by
  obtain rfl | rfl := BitVec.eq_zero_or_eq_one b
  · exact ⟨false, rfl⟩
  · exact ⟨true, rfl⟩

theorem modeBits_surjective (m : BitVec 2) : ∃ mode, modeBits mode = m := by
  obtain rfl | rfl | rfl | rfl : m = 0b00#2 ∨ m = 0b01#2 ∨ m = 0b10#2 ∨ m = 0b11#2 := by revert m; decide
  · exact ⟨.normal, rfl⟩
  · exact ⟨.or, rfl⟩
  · exact ⟨.and, rfl⟩
  · exact ⟨.xor, rfl⟩

theorem opcode_cases {o : BitVec 8} (h : o.toNat ≤ 8) :
    o = 0#8 ∨ o = 1#8 ∨ o = 2#8 ∨ o = 3#8 ∨ o = 4#8 ∨ o = 5#8 ∨ o = 6#8 ∨ o = 7#8 ∨ o = 8#8 := by
  bv_omega

/-- Legal fields are a command's: COMBINE uses P and M, CIRCLE and BOX use P and F, the others but NOP use P (R77). -/
theorem exists_fieldsOfInstr_eq {c : CmdFields} (h : c.wellFormed = true) : ∃ i, fieldsOfInstr i = c := by
  obtain ⟨hopc, hrsv, hp, hf, hm⟩ := (legalFields_iff c).mp h
  obtain ⟨o, b, f, m, r⟩ := c
  obtain ⟨p, rfl⟩ := planeBit_surjective b
  obtain ⟨filled, rfl⟩ := filledBit_surjective f
  obtain ⟨mode, rfl⟩ := modeBits_surjective m
  obtain rfl : r = 0#20 := hrsv
  dsimp only at hp hf hm
  rcases opcode_cases hopc with rfl | rfl | rfl | rfl | rfl | rfl | rfl | rfl | rfl
  · exact ⟨.nop, by simp [fieldsOfInstr, hp, hf, hm]⟩
  · exact ⟨.clear p, by simp [fieldsOfInstr, hf, hm]⟩
  · exact ⟨.line p, by simp [fieldsOfInstr, hf, hm]⟩
  · exact ⟨.linePolar p, by simp [fieldsOfInstr, hf, hm]⟩
  · exact ⟨.circle p filled, by simp [fieldsOfInstr, hm]⟩
  · exact ⟨.box p filled, by simp [fieldsOfInstr, hm]⟩
  · cases mode with
    | normal => exact ⟨.combineNormal p, by simp [fieldsOfInstr, hf]⟩
    | or => exact ⟨.combineOr p, by simp [fieldsOfInstr, hf]⟩
    | and => exact ⟨.combineAnd p, by simp [fieldsOfInstr, hf]⟩
    | xor => exact ⟨.combineXor p, by simp [fieldsOfInstr, hf]⟩
  · exact ⟨.pack p, by simp [fieldsOfInstr, hf, hm]⟩
  · exact ⟨.unpack p, by simp [fieldsOfInstr, hf, hm]⟩

/-- A word is legal exactly when its fields are (R77, R81). -/
theorem wellFormed_fieldsOfWord_iff (v : Word) : (fieldsOfWord v).wellFormed = true ↔ ∃ i, decode v = .ok i := by
  constructor
  · intro h
    obtain ⟨i, hi⟩ := exists_fieldsOfInstr_eq h
    refine ⟨i, (decode_eq_ok_iff v i).mpr ?_⟩
    rw [encode, hi, wordOfFields_fieldsOfWord]
  · rintro ⟨i, hi⟩
    obtain ⟨hfields, hlegal⟩ := encoding_statement i
    rw [← encode_of_decode hi, hfields]
    exact hlegal

/-! ### Illegal words -/

theorem extractLsb'_one_eq_zero_iff (v : Word) (k : Nat) : v.extractLsb' k 1 = 0#1 ↔ v.getLsbD k = false := by
  simp [BitVec.eq_of_getLsbD_eq_iff]

/-- The illegal fields as R81 lists them. -/
theorem illegalFields_iff (v : Word) :
    ¬ (fieldsOfWord v).wellFormed = true ↔
      (9 ≤ (v.extractLsb' 0 8).toNat ∨ v.extractLsb' 12 20 ≠ 0#20 ∨
        ((v.extractLsb' 0 8).toNat = 0 ∧ v.getLsbD 8 = true) ∨
        ((v.extractLsb' 0 8).toNat ≠ 4 ∧ (v.extractLsb' 0 8).toNat ≠ 5 ∧ v.getLsbD 9 = true) ∨
        ((v.extractLsb' 0 8).toNat ≠ 6 ∧ v.extractLsb' 10 2 ≠ 0#2)) := by
  rw [legalFields_iff]
  simp only [fieldsOfWord, extractLsb'_one_eq_zero_iff, ← Bool.not_eq_true, ← Nat.not_lt (b := 9), Nat.lt_succ_iff]
  tauto

theorem issue_illegal {v : Word} {s : State} (hv : ∀ i, decode v ≠ .ok i) (hb : s.status.busy = false) :
    issue v s = { s with status := rejectedStatus .illegalCmd s.status } := by
  rw [issue, hb, if_neg nofun]
  cases hd : decode v with
  | error e => exact raiseCmdError_eq _ _
  | ok i => exact absurd hd (hv i)

/-- Settles O3: a word that no row matches is one without a command, and so one whose fields are not legal. -/
theorem illegalWordsAreExactlyR81 : Obligations.IllegalWordsAreExactlyR81 := by
  intro v
  refine ⟨?_, decode_refuses_iff v, fun hv s hb => ?_⟩
  · rw [decode_refuses_iff, ← illegalFields_iff, wellFormed_fieldsOfWord_iff, not_exists]
  · rw [← issue_illegal ((decode_refuses_iff v).mp hv) hb]
    exact hostAct_writeRegister s v (off := 0) (by decide) (by decide)

end Sys2Proof
end

section
/-! The host's polling loops (R86): what one read of each does to the block and to the host's list. -/

namespace Sys2Proof.Machine

open Host (Outcome)

theorem hostWait_idle {s : State} (hb : s.status.busy = false) : hostWait s = pollStatus s := by
  rw [hostWait, hb, if_neg nofun]

theorem hostWait_busy {s : State} (hb : s.status.busy = true) :
    hostWait s = { pollStatus s with host := .wait :: s.host } := by
  rw [hostWait, if_pos hb]

theorem hostWaitn_idle {s : State} (n : Nat) (hb : s.status.busy = false) : hostWaitn (n + 1) s = pollStatus s := by
  rw [hostWaitn, if_neg (by omega), hb, if_neg nofun]

theorem hostWaitn_busy {s : State} (n : Nat) (hb : s.status.busy = true) :
    hostWaitn (n + 2) s = { pollStatus s with host := .waitn (n + 1) :: s.host } := by
  rw [hostWaitn, if_neg (by omega), if_pos hb, if_neg (by omega)]
  rfl

theorem hostWaitn_last_busy {s : State} (hb : s.status.busy = true) :
    hostWaitn 1 s = observe .timeout (pollStatus s) := by
  rw [hostWaitn, if_neg (by omega), if_pos hb, if_pos rfl]

/-- Settles O54: each clause is its loop's equation, and the read of STATUS adds the read word to `observed`. -/
theorem pollingLoopsOnlyRead : Obligations.PollingLoopsOnlyRead := fun _ n =>
  ⟨fun hb => congrArg Outcome.next (hostWait_idle hb), fun hb => congrArg Outcome.next (hostWait_busy hb),
    fun hb => congrArg Outcome.next (hostWaitn_idle n hb), fun hb => congrArg Outcome.next (hostWaitn_busy n hb),
    fun hb => congrArg Outcome.next (hostWaitn_last_busy hb), rfl⟩

end Sys2Proof.Machine
end

section
/-! Commands (R90 to R96): the engine's move, the issue, and the completions of NOP, CLEAR and the two lines. -/

namespace Sys2Proof.Machine

/-! ### The engine's move -/

theorem engineTurn_of_busy {s : State} {i : Instr} (hb : s.status.busy = true) (hd : decode s.latched.cmd = .ok i) :
    engineTurn s = exec i s := by
  rw [engineTurn, if_pos hb, hd]

theorem step_of_none_named_busy {s : State} (h : s.turns = []) (hb : s.status.busy = true) : step s = engineTurn s := by
  rw [step, h]
  exact if_pos hb

/-- Settles O5: the mover is the engine, and its turn is the latched command's completion. -/
theorem stepRunsLatchedCommand : Obligations.StepRunsLatchedCommand := by
  intro s i hb hd _
  refine ⟨fun rest ht => ?_, fun ht => ?_⟩
  · exact (step_of_engine_named ht).trans (engineTurn_of_busy hb hd)
  · exact (step_of_none_named_busy ht hb).trans (engineTurn_of_busy hb hd)

/-! ### The issue -/

theorem hostAct_writeCmd (v : Word) (s : State) :
    hostAct (.write s.params.base 4 v) s = .next (issue v s) :=
  hostAct_writeRegister s v (off := 0) (by decide) (by decide)

theorem issue_busy {s : State} (v : Word) (hb : s.status.busy = true) :
    issue v s = { s with status := rejectedStatus .cmdWhileBusy s.status } := by
  rw [issue, if_pos hb, raiseCmdError_eq]

section
variable {s : State} {v : Word} {i : Instr} (hb : s.status.busy = false) (hd : decode v = .ok i)
include hb hd

theorem issue_outOfRange (hu : usesWH i = true) (hdim : dimensionsOk s.params s.bmW s.bmH = false) :
    issue v s = { s with status := rejectedStatus .invalidArg s.status } := by
  simp only [issue, hb, hd, hu, hdim, Bool.false_eq_true, if_false, Bool.not_false, Bool.and_self, if_true,
    raiseCmdError_eq]

theorem issue_accepted (hdim : usesWH i = true → dimensionsOk s.params s.bmW s.bmH = true) :
    issue v s = accept v s := by
  have hpass : (usesWH i && !dimensionsOk s.params s.bmW s.bmH) = false := by
    cases hu : usesWH i with
    | true => rw [hdim hu]; rfl
    | false => rfl
  simp only [issue, hb, hd, hpass, Bool.false_eq_true, if_false]

end

/-- NOP and CLEAR alone do not use W and H (R79). -/
theorem usesWH_iff (i : Instr) : usesWH i = true ↔ i ≠ .nop ∧ ∀ p, i ≠ .clear p := by
  cases i <;> simp [usesWH]

/-- Settles O7: the issue's branches in R91's order. -/
theorem issueRunsItsChecksInOrder : Obligations.IssueRunsItsChecksInOrder := by
  intro s v
  simp only [hostAct_writeCmd, ← dimensionsOk_iff, Bool.not_eq_true]
  refine ⟨fun hb => ?_, fun hb hv => ?_, fun i hb hd hnop hclear hdim => ?_, fun i hb hd hok => ?_⟩
  · rw [issue_busy v hb]
  · rw [issue_illegal hv hb]
  · rw [issue_outOfRange hb hd ((usesWH_iff i).mpr ⟨hnop, hclear⟩) hdim]
  · have hdim : usesWH i = true → dimensionsOk s.params s.bmW s.bmH = true := fun hu => by
      obtain ⟨hnop, hclear⟩ := (usesWH_iff i).mp hu
      exact (hok.resolve_left hnop).resolve_left fun ⟨p, hp⟩ => hclear p hp
    rw [issue_accepted hb hd hdim]
    rfl

/-! ### Control commands and lines -/

theorem exec_clear (p : Plane) (s : State) :
    exec (.clear p) s = .next { setPlane s p (filled (planeSize s.params) (bitCell false)) with
      status := completedStatus s.status } :=
  (finish_eq _).trans (by rw [setPlane_status])

/-- Settles O20: NOP only finishes, and CLEAR fills exactly the plane's keys with 0. -/
theorem nopAndClearComplete : Obligations.NopAndClearComplete := by
  intro p s
  refine ⟨finish_eq s, _, exec_clear p s, fun x y hx hy => ?_, fun a ha => ?_⟩
  · exact (cellAt_filled _ _ _).trans (if_pos (pixelKey_lt_planeSize hx hy))
  · exact (cellAt_filled _ _ _).trans (if_neg (Nat.not_lt.mpr ha))

/-- A drawing command completes by plotting every set that has its pixels inside the active area (R93). -/
theorem completesPlotting_of_draw {i : Instr} {p : Plane} {ps : PixelSet} {S : Int → Int → Prop} {s : State}
    (hexec : exec i s = draw p ps s) (ha : areaOk s = true) (hm : memoryWf (planeOf s p) = true)
    (hS : ∀ x y : Nat, InArea s x y → (inSet ps x y = true ↔ S x y)) : CompletesPlotting i p S s := by
  refine ⟨plottedPlane p ps s, hexec.trans (draw_eq ha), fun x y hxy hs => ?_, fun a hne => ?_⟩
  · exact cellAt_plottedPlane_set hm hxy ((hS x y hxy).mpr hs)
  · exact cellAt_plottedPlane_kept hm fun x y hxy hi => hne x y hxy ((hS x y hxy).mp hi)

/-- Settles O21: LINE draws the pixel set of the segment. -/
theorem linePlotsSegment : Obligations.LinePlotsSegment := fun p s ha hm =>
  completesPlotting_of_draw (exec_line p s) ha hm fun _ _ _ => inSet_pixelSet

/-- Settles O22: LINE_POLAR draws the pixel set of the segment to the polar endpoint. -/
theorem linePolarPlotsSegmentToEndpoint : Obligations.LinePolarPlotsSegmentToEndpoint := fun p s ha hm =>
  completesPlotting_of_draw (exec_linePolar p s) ha hm fun _ _ _ => inSet_pixelSet

end Sys2Proof.Machine
end

section
/-! What stops a step (R90, R176, D45): a nonexistent host access, or a read of an UNSPECIFIED bit or byte, and for a
completion only one that the command reads. -/

namespace Sys2Proof.Machine

open Host (Outcome)

/-! ### The host's moves -/

/-- The outcome is a next state, or a stop that the host asked for: what `safeStep` says of a step. -/
def SafeOutcome : Outcome State Fault Refusal → Prop
  | .next _ => True
  | .fault f => isUnspecifiedRead f = true
  | .refused r => r = .subWordAccess ∨ r = .unalignedAccess ∨ r = .outsideBlock

theorem safeStep_iff (s : State) : safeStep s = true ↔ SafeOutcome (step s) := by
  unfold safeStep
  cases step s with
  | next t => exact iff_of_true rfl trivial
  | fault f => exact Iff.rfl
  | refused r => simp only [SafeOutcome, Bool.or_eq_true, beq_iff_eq, or_assoc]

theorem busOffset_eq_error {p : Params} {addr size : Nat} {r : Refusal} (h : busOffset p addr size = .error r) :
    r = .subWordAccess ∨ r = .unalignedAccess ∨ r = .outsideBlock := by
  unfold busOffset at h
  split_ifs at h
  · cases h; exact .inr (.inr rfl)
  · cases h; exact .inl rfl
  · cases h; exact .inr (.inl rfl)

theorem readPlaneWord_eq_error {p : Plane} {k : Nat} {s : State} {f : Fault} (h : readPlaneWord p k s = .error f) :
    f = .unspecifiedPlaneWord := by
  unfold readPlaneWord at h
  split_ifs at h
  cases h
  rfl

theorem readPackWord_eq_error {k : Nat} {s : State} {f : Fault} (h : readPackWord k s = .error f) :
    f = .unspecifiedPackWord := by
  unfold readPackWord at h
  split_ifs at h
  split at h
  · cases h
  · cases h
    rfl

/-- A window read stops only on an UNSPECIFIED bit or byte (I1, I2). -/
theorem readWindow_eq_error {off : Nat} {s : State} {f : Fault} (h : readWindow off s = .error f) :
    isUnspecifiedRead f = true := by
  unfold readWindow at h
  split_ifs at h
  · rw [readPlaneWord_eq_error h]; rfl
  · rw [readPlaneWord_eq_error h]; rfl
  · rw [readPackWord_eq_error h]; rfl

theorem safeOutcome_deliver_readOffset (off : Nat) (s : State) : SafeOutcome (deliver (readOffset off s)) := by
  unfold readOffset
  split_ifs
  · trivial
  · trivial
  · cases hr : readWindow off s with
    | ok w => trivial
    | error f => exact readWindow_eq_error hr

theorem safeOutcome_hostAct (a : HostAction) (s : State) : SafeOutcome (hostAct a s) := by
  cases a with
  | read addr size =>
    rw [hostAct, hostRead]
    cases hb : busOffset s.params addr size with
    | ok off => exact safeOutcome_deliver_readOffset off s
    | error r => exact busOffset_eq_error hb
  | write addr size v =>
    rw [hostAct, hostWrite]
    cases hb : busOffset s.params addr size with
    | ok off => trivial
    | error r => exact busOffset_eq_error hb
  | wait => trivial
  | waitn n => trivial
  | reset => trivial

theorem safeOutcome_hostTurn (s : State) : SafeOutcome (hostTurn s) := by
  cases hh : s.host with
  | nil => rw [hostTurn_of_nil hh]; trivial
  | cons a acts => rw [hostTurn_of_cons hh]; exact safeOutcome_hostAct a _

/-! ### The completion -/

/-- The completion answers a next state, or stops on an UNSPECIFIED bit or byte among those that it reads. -/
def CompletesIfSpecified (reads : Prop) (o : Outcome State Fault Refusal) : Prop :=
  (∃ t, o = .next t) ∨ (∃ f, o = .fault f ∧ isUnspecifiedRead f = true ∧ ¬ reads)

theorem areaSpecified_iff {s : State} {p : Plane} : AreaSpecified s p ↔ areaKnown (planeOf s p) s = true := by
  simp only [areaKnown_planeOf, AreaSpecified, Option.ne_none_iff_exists']

theorem packedKnown_iff_ne_none {s : State} :
    packedKnown s = true ↔ ∀ j, j < areaW s.latched * areaG s.latched → readPackByte s j ≠ none := by
  simp only [packedKnown_iff, packedLength, Option.ne_none_iff_exists']

section
variable {s : State} (ha : areaOk s = true)
include ha

theorem draw_completes (p : Plane) (ps : PixelSet) : CompletesIfSpecified True (draw p ps s) := .inl ⟨_, draw_eq ha⟩

theorem combineActive_completes {reads : Prop} (mode : CombineMode) (p : Plane)
    (hsrc : reads → AreaSpecified s p.other) (hdst : combineReadsDst mode = true → reads → AreaSpecified s p) :
    CompletesIfSpecified reads (combineActive mode p s) := by
  simp only [areaSpecified_iff] at hsrc hdst
  rw [combineActive, withActiveArea_of_ok ha]
  split_ifs with h1 h2
  · exact .inr ⟨_, rfl, rfl, fun hr => by simp [hsrc hr] at h1⟩
  · exact .inr ⟨_, rfl, rfl, fun hr => by simp [hdst h2.1 hr] at h2⟩
  · exact .inl ⟨_, rfl⟩

theorem execPack_completes (p : Plane) : CompletesIfSpecified (AreaSpecified s p) (execPack p s) := by
  rw [areaSpecified_iff, execPack, withActiveArea_of_ok ha]
  split_ifs with h
  · exact .inr ⟨_, rfl, rfl, by simp [h]⟩
  · exact .inl ⟨_, rfl⟩

theorem execUnpack_completes (p : Plane) :
    CompletesIfSpecified (∀ j, j < areaW s.latched * areaG s.latched → readPackByte s j ≠ none) (execUnpack p s) := by
  rw [← packedKnown_iff_ne_none, execUnpack, withActiveArea_of_ok ha]
  split_ifs with h
  · exact .inr ⟨_, rfl, rfl, by simp [h]⟩
  · exact .inl ⟨_, rfl⟩

end

/-- With the dimensions that the issue checked, every command completes or stops on what it reads (R91, I1, I2). -/
theorem exec_completes (i : Instr) (s : State) (h : usesWH i = true → areaOk s = true) :
    CompletesIfSpecified (ReadsSpecified s i) (exec i s) := by
  cases i with
  | nop => exact .inl ⟨_, rfl⟩
  | clear p => exact .inl ⟨_, rfl⟩
  | line p | linePolar p | circle p f | box p f => exact draw_completes (h rfl) p _
  | combineNormal p => exact combineActive_completes (h rfl) .normal p id nofun
  | combineOr p => exact combineActive_completes (h rfl) .or p And.left fun _ => And.right
  | combineAnd p => exact combineActive_completes (h rfl) .and p And.left fun _ => And.right
  | combineXor p => exact combineActive_completes (h rfl) .xor p And.left fun _ => And.right
  | pack p => exact execPack_completes (h rfl) p
  | unpack p => exact execUnpack_completes (h rfl) p

/-! ### The step -/

/-- A command in flight is legal, and its dimensions are in range if it uses them (R91, R92). -/
theorem inFlightOk_of_busy {s : State} (h : inFlightOk s = true) (hb : s.status.busy = true) :
    ∃ i, decode s.latched.cmd = .ok i ∧ (usesWH i = true → areaOk s = true) := by
  rw [inFlightOk, hb, Bool.not_true, Bool.false_or] at h
  cases hd : decode s.latched.cmd with
  | error e => rw [hd] at h; cases h
  | ok i =>
    rw [hd] at h
    exact ⟨i, rfl, fun hu => by simpa [hu] using h⟩

theorem inFlightOk_of_stateInv {s : State} (h : StateInv s = true) : inFlightOk s = true :=
  (stateInv_iff.mp h).2.2.2.1

theorem safeOutcome_engineTurn {s : State} (h : StateInv s = true) : SafeOutcome (engineTurn s) := by
  cases hb : s.status.busy with
  | false => rw [engineTurn_of_idle hb]; trivial
  | true =>
    obtain ⟨i, hd, ha⟩ := inFlightOk_of_busy (inFlightOk_of_stateInv h) hb
    rw [engineTurn_of_busy hb hd]
    rcases exec_completes i s ha with ⟨t, ht⟩ | ⟨f, hf, hread, -⟩
    · rw [ht]; trivial
    · rw [hf]; exact hread

/-- Settles O43: whichever agent moves, its turn is safe; `turns` does not bear on the invariant. -/
theorem stepsStopOnlyForTheHost : Obligations.StepsStopOnlyForTheHost := by
  intro s h
  rw [safeStep_iff]
  cases ht : s.turns with
  | nil =>
    cases hb : s.status.busy with
    | true => rw [step_of_none_named_busy ht hb]; exact safeOutcome_engineTurn h
    | false => rw [step_of_none_named_idle ht hb]; exact safeOutcome_hostTurn s
  | cons g rest =>
    cases g with
    | engine => rw [step_of_engine_named ht]; exact safeOutcome_engineTurn (s := { s with turns := rest }) h
    | host => rw [step_of_host_named ht]; exact safeOutcome_hostTurn _

theorem engineTurn_completes {s : State} {i : Instr} (h : StateInv s = true) (hb : s.status.busy = true)
    (hd : decode s.latched.cmd = .ok i) (hreads : ReadsSpecified s i) :
    ∃ t, engineTurn s = .next t ∧ t.status = completedStatus s.status := by
  obtain ⟨j, hj, ha⟩ := inFlightOk_of_busy (inFlightOk_of_stateInv h) hb
  obtain rfl : j = i := Except.ok.inj (hj.symm.trans hd)
  rw [engineTurn_of_busy hb hd]
  rcases exec_completes j s ha with ⟨t, ht⟩ | ⟨f, -, -, hnot⟩
  · exact ⟨t, ht, exec_status ht⟩
  · exact absurd hreads hnot

/-- Settles O44: the latched command's area is in range, so with its reads specified it cannot stop. -/
theorem acceptedCommandCompletes : Obligations.AcceptedCommandCompletes := by
  intro s i h hb hturns hd hreads
  rcases hturns with ht | ⟨rest, ht⟩
  · rw [step_of_none_named_busy ht hb]
    exact engineTurn_completes h hb hd hreads
  · rw [step_of_engine_named ht]
    exact engineTurn_completes (s := { s with turns := rest }) h hb hd hreads

end Sys2Proof.Machine
end

section
/-! What each completion writes (R98), and that it writes nothing else. -/

namespace Sys2Proof.Machine

/-! ### The families of commands, by what they write -/

/-- The commands that Plot into plane p (R97). -/
def Draws (i : Instr) (p : Plane) : Prop :=
  i = .line p ∨ i = .linePolar p ∨ (∃ f, i = .circle p f) ∨ ∃ f, i = .box p f

/-- The commands that combine the other plane into plane p (R160). -/
def Combines (i : Instr) (p : Plane) : Prop :=
  i = .combineNormal p ∨ i = .combineOr p ∨ i = .combineAnd p ∨ i = .combineXor p

/-- The commands that write plane p: all but NOP and PACK. -/
def WritesPlane (i : Instr) (p : Plane) : Prop := i = .clear p ∨ Draws i p ∨ Combines i p ∨ i = .unpack p

/-! ### What the families' completions write -/

/-- Of PackBuf and PACK_LEN, UNPACK's completion can change PACK_LEN alone, PACK's both, any other neither (R98). -/
theorem exec_packing {i : Instr} {s t : State} (h : exec i s = .next t) :
    (t.packBuf = s.packBuf ∧ t.packLen = s.packLen) ∨ (∃ p, i = .unpack p ∧ t.packBuf = s.packBuf) ∨
      (∃ p, i = .pack p ∧ t.packBuf = packedBuffer p s) := by
  rcases exec_eq_next h with ⟨-, rfl⟩ | ⟨p, -, rfl⟩ | ⟨p, ps, -, -, rfl⟩ | ⟨p, mode, -, -, -, -, rfl⟩ |
    ⟨p, hi, -, -, rfl⟩ | ⟨p, hi, -, -, rfl⟩
  · exact .inl ⟨rfl, rfl⟩
  · exact .inl ⟨setPlane_packBuf .., setPlane_packLen ..⟩
  · exact .inl ⟨setPlane_packBuf .., setPlane_packLen ..⟩
  · exact .inl ⟨setPlane_packBuf .., setPlane_packLen ..⟩
  · exact .inr (.inr ⟨p, hi, rfl⟩)
  · exact .inr (.inl ⟨p, hi, setPlane_packBuf ..⟩)

/-- A completion that replaces plane p leaves the other plane, whatever becomes of PACK_LEN and STATUS. -/
theorem planesOf_setPlane_with {s : State} {p : Plane} {m : Memory} {n : Half} {st : Status} :
    planeOf { setPlane s p m with packLen := n, status := st } p = m ∧
      planeOf { setPlane s p m with packLen := n, status := st } p.other = planeOf s p.other := by
  cases p <;> exact ⟨rfl, rfl⟩

theorem exec_unpack_planes {p : Plane} {s t : State} (h : exec (.unpack p) s = .next t) :
    areaOk s = true ∧ planeOf t p = unpackedPlane p s ∧ planeOf t p.other = planeOf s p.other := by
  obtain ⟨ha, -, rfl⟩ := execUnpack_eq_next h
  exact ⟨ha, planesOf_setPlane_with⟩

section
variable {i : Instr} {p : Plane} {s t : State} (h : exec i s = .next t)
include h

theorem exec_planes_kept (hi : i = .nop ∨ ∃ p, i = .pack p) : t.planeA = s.planeA ∧ t.planeB = s.planeB := by
  rcases hi with rfl | ⟨p, rfl⟩
  · cases (finish_eq s).symm.trans h
    exact ⟨rfl, rfl⟩
  · obtain ⟨-, -, rfl⟩ := execPack_eq_next h
    exact ⟨rfl, rfl⟩

theorem exec_draws_planes (hi : Draws i p) : areaOk s = true ∧ ∃ ps, planeOf t p = plottedPlane p ps s ∧
    planeOf t p.other = planeOf s p.other := by
  obtain ⟨ps, e⟩ : ∃ ps, exec i s = draw p ps s := by
    rcases hi with rfl | rfl | ⟨f, rfl⟩ | ⟨f, rfl⟩ <;> exact ⟨_, rfl⟩
  obtain ⟨ha, rfl⟩ := draw_eq_next (e ▸ h)
  exact ⟨ha, ps, planesOf_setPlane_with⟩

theorem exec_combines_planes (hi : Combines i p) : areaOk s = true ∧ ∃ mode, planeOf t p = combinedPlane mode p s ∧
    planeOf t p.other = planeOf s p.other := by
  obtain ⟨mode, e⟩ : ∃ mode, exec i s = combineActive mode p s := by
    rcases hi with rfl | rfl | rfl | rfl <;> exact ⟨_, rfl⟩
  obtain ⟨ha, -, -, rfl⟩ := combineActive_eq_next (e ▸ h)
  exact ⟨ha, mode, planesOf_setPlane_with⟩

theorem exec_otherPlane_kept (hi : WritesPlane i p) : planeOf t p.other = planeOf s p.other := by
  rcases hi with rfl | hi | hi | rfl
  · cases (exec_clear p s).symm.trans h
    exact planesOf_setPlane_with.2
  · obtain ⟨-, ps, -, hother⟩ := exec_draws_planes h hi
    exact hother
  · obtain ⟨-, mode, -, hother⟩ := exec_combines_planes h hi
    exact hother
  · obtain ⟨-, -, hother⟩ := exec_unpack_planes h
    exact hother

/-- A pixel reads as before when its cell is as before; a completion keeps the parameters. -/
theorem readPixel_exec_of_cellAt {x y : Nat}
    (hcell : cellAt (planeOf t p) (pixelKey s.params x y) = cellAt (planeOf s p) (pixelKey s.params x y)) :
    readPixel t p x y = readPixel s p x y := by
  rw [readPixel, readPixel, exec_params h, hcell]

section
variable (hm : memoryWf (planeOf s p) = true)
include hm

theorem exec_draws_only_sets (hi : Draws i p) (a : Nat) :
    cellAt (planeOf t p) a = some 1#8 ∨ cellAt (planeOf t p) a = cellAt (planeOf s p) a := by
  obtain ⟨-, ps, hplane, -⟩ := exec_draws_planes h hi
  rw [hplane, cellAt_plottedPlane _ _ _ _ hm]
  split_ifs
  · exact .inl rfl
  · exact .inr rfl

/-- Drawing and combining write no pixel outside the active area (R93, R160). -/
theorem exec_outside_area_kept (hi : Draws i p ∨ Combines i p) {x y : Nat} (hx : x < s.params.maxW)
    (hxy : ¬ InArea s x y) : readPixel t p x y = readPixel s p x y := by
  have apart : areaOk s = true → ∀ x' y', InArea s x' y' → pixelKey s.params x y ≠ pixelKey s.params x' y' := by
    intro ha x' y' hin he
    obtain ⟨-, hw, -, -⟩ := areaOk_facts ha
    obtain ⟨rfl, rfl⟩ := pixelKey_injective hx (lt_of_lt_of_le hin.1 hw) he
    exact hxy hin
  refine readPixel_exec_of_cellAt h ?_
  rcases hi with hi | hi
  · obtain ⟨ha, ps, hplane, -⟩ := exec_draws_planes h hi
    rw [hplane, cellAt_plottedPlane_kept hm fun x' y' hin _ => apart ha x' y' hin]
  · obtain ⟨ha, mode, hplane, -⟩ := exec_combines_planes h hi
    rw [hplane, cellAt_combinedPlane_kept hm (apart ha)]

end
end

/-- UNPACK writes no pixel outside columns 0 … W-1 of rows 0 … 8G-1 (R173). -/
theorem exec_unpack_outside_kept {p : Plane} {s t : State} (h : exec (.unpack p) s = .next t)
    (hm : memoryWf (planeOf s p) = true) {x y : Nat} (hx : x < s.params.maxW)
    (hxy : ¬ (x < areaW s.latched ∧ y < 8 * areaG s.latched)) : readPixel t p x y = readPixel s p x y := by
  obtain ⟨ha, hplane, -⟩ := exec_unpack_planes h
  obtain ⟨-, hw, -, -⟩ := areaOk_facts ha
  refine readPixel_exec_of_cellAt h ?_
  rw [hplane, cellAt_unpackedPlane_kept hm]
  intro c r hc hr he
  obtain ⟨rfl, rfl⟩ := pixelKey_injective hx (lt_of_lt_of_le hc hw) he
  exact hxy ⟨hc, hr⟩

/-- Settles O49: the frame of every completion, then row by row what R98 lets each family write. -/
theorem completionFrame : Obligations.CompletionFrame := by
  intro i s t hok h W G
  obtain ⟨hplane, hpack⟩ := memoryWf_of_memoriesOk hok
  refine ⟨?_, ⟨fun hi => ?_, fun j hj => ?_⟩, fun hi => ?_, exec_planes_kept h, fun p hi => ?_,
    fun p => exec_draws_only_sets h (hplane p), fun p hi x y => ?_, ?_⟩
  · rw [exec_frame h]
    exact ⟨rfl, rfl, rfl, rfl, rfl, rfl, rfl, rfl, rfl⟩
  · rcases exec_packing h with ⟨hbuf, -⟩ | ⟨p, -, hbuf⟩ | ⟨p, rfl, -⟩
    · exact hbuf
    · exact hbuf
    · exact absurd rfl (hi p)
  · rcases exec_packing h with ⟨hbuf, -⟩ | ⟨p, -, hbuf⟩ | ⟨p, -, hbuf⟩
    · rw [readPackByte, hbuf, readPackByte]
    · rw [readPackByte, hbuf, readPackByte]
    · rw [readPackByte, hbuf, cellAt_packedBuffer_kept hpack hj, readPackByte]
  · rcases exec_packing h with ⟨-, hlen⟩ | ⟨p, rfl, -⟩ | ⟨p, rfl, -⟩
    · exact hlen
    · exact absurd rfl (hi p).2
    · exact absurd rfl (hi p).1
  · exact exec_otherPlane_kept h (by simpa only [WritesPlane, Draws, Combines, or_assoc] using hi)
  · exact exec_outside_area_kept h (hplane p) (by simpa only [Draws, Combines, or_assoc] using hi)
  · rintro p rfl x y
    exact exec_unpack_outside_kept h (hplane p)

end Sys2Proof.Machine
end

section
/-! The laws of the polar endpoint (R117): the sine table's symmetries, carried to every angle through the offset in y,
which is the offset in x a quarter turn earlier. -/

namespace Sys2Proof.Machine

/-! ### round_he -/

/-- R117: round_he is odd. -/
theorem roundHalfEven_neg (z : Int) (d : Nat) : roundHalfEven (-z) d = -roundHalfEven z d := by
  obtain ⟨m, rfl | rfl⟩ := Int.eq_nat_or_neg z
  · rw [roundHalfEven_neg_natCast, roundHalfEven_natCast]
  · rw [neg_neg, roundHalfEven_neg_natCast, roundHalfEven_natCast, neg_neg]

theorem roundQuotient_mul_self (n : Nat) {d : Nat} (hd : 0 < d) : roundQuotient (n * d) d = n := by
  simp [roundQuotient, Nat.mul_div_cancel n hd, hd]

/-- Rounding does not leave an interval with integer ends. -/
theorem roundQuotient_le_of_le_mul {z n d : Nat} (hd : 0 < d) (h : z ≤ n * d) : roundQuotient z d ≤ n := by
  rcases h.eq_or_lt with rfl | hlt
  · exact (roundQuotient_mul_self n hd).le
  · have hq : z / d < n := Nat.div_lt_of_lt_mul (Nat.mul_comm n d ▸ hlt)
    simp only [roundQuotient]
    split_ifs <;> omega

theorem natAbs_roundHalfEven_le {z : Int} {n d : Nat} (hd : 0 < d) (h : z.natAbs ≤ n * d) :
    (roundHalfEven z d).natAbs ≤ n := by
  have hq := roundQuotient_le_of_le_mul hd h
  rw [roundHalfEven]
  split_ifs <;> omega

/-! ### The sine of a reduced angle -/

theorem trigUnit_pos : 0 < trigUnit := by decide

theorem sinQuarter_le (t : Nat) : sinQuarter t ≤ trigUnit := by
  have hall : ∀ v ∈ sinTable, v ≤ trigUnit := by decide
  rw [sinQuarter, List.getD_eq_getElem?_getD]
  cases h : sinTable[t]? with
  | none => exact Nat.zero_le _
  | some v => exact hall v (List.mem_of_getElem? h)

theorem natAbs_sinDegrees_le (t : Nat) : (sinDegrees t).natAbs ≤ trigUnit := by
  rw [sinDegrees]
  split_ifs <;> simp only [Int.natAbs_neg, Int.natAbs_natCast, sinQuarter_le]

/-- On the first half turn the sine is the table's entry at the distance from the nearer end. -/
theorem sinDegrees_of_le_180 {t : Nat} (ht : t ≤ 180) : sinDegrees t = sinQuarter (min t (180 - t)) := by
  rw [sinDegrees]
  split_ifs with h90
  · rw [min_eq_left (by omega)]
  · rw [min_eq_right (by omega)]

/-- Half a turn negates the sine. -/
theorem sinDegrees_add_180 {t : Nat} (ht : t < 180) : sinDegrees (t + 180) = -sinDegrees t := by
  rcases Nat.eq_zero_or_pos t with rfl | hpos
  · decide
  · rw [sinDegrees_of_le_180 ht.le, sinDegrees, if_neg (by omega), if_neg (by omega)]
    split_ifs with h270
    · rw [Nat.add_sub_cancel, min_eq_left (by omega)]
    · rw [min_eq_right (by omega), show 360 - (t + 180) = 180 - t by omega]

/-- The sine is symmetric about 90 and about 270 degrees. -/
theorem sinDegrees_reflect {t u : Nat} (h : t + u = 180 ∨ (t + u = 540 ∧ 180 < t ∧ 180 < u)) :
    sinDegrees u = sinDegrees t := by
  have upper : ∀ a b : Nat, a + b = 180 → sinDegrees b = sinDegrees a := fun a b hab => by
    rw [sinDegrees_of_le_180 (by omega), sinDegrees_of_le_180 (by omega), min_comm, show 180 - b = a by omega,
      show 180 - a = b by omega]
  rcases h with h | ⟨h, ht, hu⟩
  · exact upper t u h
  · obtain ⟨a, rfl⟩ := Nat.exists_eq_add_of_le' ht.le
    obtain ⟨b, rfl⟩ := Nat.exists_eq_add_of_le' hu.le
    rw [sinDegrees_add_180 (by omega), sinDegrees_add_180 (by omega), upper a b (by omega)]

/-! ### The offsets -/

theorem polarDy_emod (angle : Int) (n : Nat) : polarDy (angle % 360) n = polarDy angle n := by
  rw [polarDy, polarDy, reducedAngle, Int.emod_emod_of_dvd angle dvd_rfl, reducedAngle]

theorem polarDy_add_180 (angle : Int) (n : Nat) : polarDy (angle + 180) n = -polarDy angle n := by
  have h : sinDegrees (reducedAngle (angle + 180)) = -sinDegrees (reducedAngle angle) := by
    rcases lt_or_ge (reducedAngle angle) 180 with hlt | hge
    · rw [← sinDegrees_add_180 hlt]
      congr 1
      simp only [reducedAngle] at hlt ⊢
      omega
    · have e : reducedAngle angle = reducedAngle (angle + 180) + 180 := by
        simp only [reducedAngle] at hge ⊢
        omega
      rw [e, sinDegrees_add_180 (by have := reducedAngle_lt angle; omega), neg_neg]
  rw [polarDy, polarDy, h, mul_neg, roundHalfEven_neg]

theorem polarDy_180_sub (angle : Int) (n : Nat) : polarDy (180 - angle) n = polarDy angle n := by
  have h : sinDegrees (reducedAngle (180 - angle)) = sinDegrees (reducedAngle angle) := by
    refine sinDegrees_reflect ?_
    simp only [reducedAngle]
    omega
  rw [polarDy, polarDy, h]

theorem polarDy_neg (angle : Int) (n : Nat) : polarDy (-angle) n = -polarDy angle n := by
  rw [← polarDy_180_sub (-angle), sub_neg_eq_add, add_comm, polarDy_add_180]

theorem polarDy_add_360 (angle : Int) (n : Nat) : polarDy (angle + 360) n = polarDy angle n := by
  rw [show angle + 360 = angle + 180 + 180 by ring, polarDy_add_180, polarDy_add_180, neg_neg]

theorem natAbs_polarDy_le (angle : Int) (n : Nat) : (polarDy angle n).natAbs ≤ n := by
  refine natAbs_roundHalfEven_le trigUnit_pos ?_
  rw [Int.natAbs_mul, Int.natAbs_natCast]
  exact Nat.mul_le_mul_left n (natAbs_sinDegrees_le _)

@[simp] theorem polarDy_zero_length (angle : Int) : polarDy angle 0 = 0 := by
  simpa using natAbs_polarDy_le angle 0

@[simp] theorem polarDx_zero_length (angle : Int) : polarDx angle 0 = 0 := by
  rw [polarDx_eq_polarDy, polarDy_zero_length]

/-! ### The axis angles -/

@[simp] theorem polarDy_0 (n : Nat) : polarDy 0 n = 0 := by
  have h := polarDy_neg 0 n
  rw [neg_zero] at h
  omega

@[simp] theorem polarDy_90 (n : Nat) : polarDy 90 n = n := by
  have h : sinDegrees (reducedAngle 90) = (trigUnit : Int) := by decide
  rw [polarDy, h, ← Nat.cast_mul, roundHalfEven_natCast, roundQuotient_mul_self n trigUnit_pos]

@[simp] theorem polarDy_180 (n : Nat) : polarDy 180 n = 0 := by
  rw [← polarDy_180_sub, sub_self, polarDy_0]

@[simp] theorem polarDy_270 (n : Nat) : polarDy 270 n = -n := by
  rw [show (270 : Int) = 90 + 180 by rfl, polarDy_add_180, polarDy_90]

@[simp] theorem polarDx_0 (n : Nat) : polarDx 0 n = n := by
  rw [polarDx_eq_polarDy, zero_add, polarDy_90]

@[simp] theorem polarDx_90 (n : Nat) : polarDx 90 n = 0 :=
  (polarDx_eq_polarDy 90 n).trans (polarDy_180 n)

@[simp] theorem polarDx_180 (n : Nat) : polarDx 180 n = -n :=
  (polarDx_eq_polarDy 180 n).trans (polarDy_270 n)

@[simp] theorem polarDx_270 (n : Nat) : polarDx 270 n = 0 := by
  rw [polarDx_eq_polarDy, show (270 : Int) + 90 = 0 + 360 by rfl, polarDy_add_360, polarDy_0]

/-! ### The laws in x, from those in y -/

theorem polarDx_emod (angle : Int) (n : Nat) : polarDx (angle % 360) n = polarDx angle n := by
  rw [polarDx_eq_polarDy, polarDx_eq_polarDy, ← polarDy_emod, Int.emod_add_emod, polarDy_emod]

theorem polarDx_90_sub (angle : Int) (n : Nat) : polarDx (90 - angle) n = polarDy angle n := by
  rw [polarDx_eq_polarDy, show 90 - angle + 90 = 180 - angle by ring, polarDy_180_sub]

theorem polarDx_add_180 (angle : Int) (n : Nat) : polarDx (angle + 180) n = -polarDx angle n := by
  rw [polarDx_eq_polarDy, polarDx_eq_polarDy, add_right_comm, polarDy_add_180]

theorem polarDx_360_sub (angle : Int) (n : Nat) : polarDx (360 - angle) n = polarDx angle n := by
  rw [polarDx_eq_polarDy, polarDx_eq_polarDy angle, ← polarDy_180_sub (angle + 90), ← polarDy_add_360 (180 - _)]
  congr 1
  ring

theorem polarDy_360_sub (angle : Int) (n : Nat) : polarDy (360 - angle) n = -polarDy angle n := by
  rw [sub_eq_neg_add, polarDy_add_360, polarDy_neg]

/-- Settles O35: period, axis angles, bound, mirror images, half turn, exchange of the axes and length 0. -/
theorem polarOffsetLaws : Obligations.PolarOffsetLaws := fun angle n =>
  ⟨⟨polarDx_emod angle n, polarDy_emod angle n⟩, ⟨polarDx_0 n, polarDy_0 n⟩, ⟨polarDx_90 n, polarDy_90 n⟩,
    ⟨polarDx_180 n, polarDy_180 n⟩, ⟨polarDx_270 n, polarDy_270 n⟩,
    ⟨polarDx_eq_polarDy angle n ▸ natAbs_polarDy_le (angle + 90) n, natAbs_polarDy_le angle n⟩,
    ⟨polarDx_360_sub angle n, polarDy_360_sub angle n⟩, ⟨polarDx_add_180 angle n, polarDy_add_180 angle n⟩,
    polarDx_90_sub angle n, polarDx_zero_length angle, polarDy_zero_length angle⟩

end Sys2Proof.Machine
end

section
/-! The closed form of LinePixels (R112): on both axes the k-th pixel stands k · d / M steps from the first, rounded to the
nearest with halves up, where d is the distance on that axis and M the greater of the two; and R112's error term is what
decides whether the next rounding is one more. R113's properties and the draws of R120 and R152 follow. -/

namespace Sys2Proof.Machine

/-! ### The rounded steps of one axis -/

/-- k · d / M rounded to the nearest, halves up: the steps on an axis of distance d after k of M steps. -/
def stepsAt (M d k : Nat) : Nat := (2 * k * d + M) / (2 * M)

/-- R112's error term at the k-th pixel of a segment with the distances M and d. -/
def lineError (M d k : Nat) : Int := M - d + stepsAt M d k * M - k * d

/-- The coordinate at the k-th pixel of a segment from a0 to a1 on its axis. -/
def lineCoord (a0 a1 : Int) (M k : Nat) : Int := a0 + (a1 - a0).sign * stepsAt M (a1 - a0).natAbs k

section
variable {M d : Nat} (hM : 0 < M)
include hM

/-- The rounding in the terms of R112's error: j is the one whose error lies between these bounds. -/
theorem stepsAt_eq_iff {k j : Nat} : stepsAt M d k = j ↔
    (M - 2 * d : Int) < 2 * (M - d + j * M - k * d) ∧ (2 * (M - d + j * M - k * d) : Int) ≤ 3 * M - 2 * d := by
  rw [stepsAt, Nat.div_eq_iff (by omega), Nat.le_sub_one_iff_lt (by omega)]
  zify
  constructor <;> rintro ⟨h1, h2⟩ <;> constructor <;> linarith

theorem lineError_bounds (k : Nat) :
    (M - 2 * d : Int) < 2 * lineError M d k ∧ 2 * lineError M d k ≤ 3 * M - 2 * d :=
  (stepsAt_eq_iff hM).mp rfl

theorem stepsAt_zero : stepsAt M d 0 = 0 := by
  rw [stepsAt_eq_iff hM]
  omega

theorem stepsAt_self (k : Nat) : stepsAt M M k = k := by
  rw [stepsAt_eq_iff hM]
  omega

theorem stepsAt_last : stepsAt M d M = d := by
  rw [stepsAt_eq_iff hM, mul_comm (M : Int)]
  omega

/-- R112's test on twice the error says whether the axis steps. -/
theorem stepsAt_succ (hd : d ≤ M) (k : Nat) :
    stepsAt M d (k + 1) = stepsAt M d k + if 2 * lineError M d k ≤ M then 1 else 0 := by
  have h := lineError_bounds (d := d) hM k
  rw [stepsAt_eq_iff hM]
  rw [lineError] at h ⊢
  generalize stepsAt M d k = j at h ⊢
  split_ifs with hstep <;> push_cast <;> constructor <;> linarith

/-- The error term's own step. -/
theorem lineError_succ (hd : d ≤ M) (k : Nat) :
    lineError M d (k + 1) = lineError M d k - d + if 2 * lineError M d k ≤ M then (M : Int) else 0 := by
  rw [lineError, stepsAt_succ hM hd, lineError]
  split_ifs <;> push_cast <;> ring

end

/-! ### One coordinate -/

section
variable {a0 a1 : Int} {M : Nat}

/-- R112's step sign, on an axis that has steps. -/
theorem stepSign_eq_sign (h : a0 ≠ a1) : (if a0 < a1 then 1 else -1) = (a1 - a0).sign := by
  split_ifs with hlt
  · exact (Int.sign_eq_one_of_pos (by omega)).symm
  · exact (Int.sign_eq_neg_one_of_neg (by omega)).symm

/-- On the major axis every step counts. -/
theorem lineCoord_major (h : (a1 - a0).natAbs = M) (k : Nat) : lineCoord a0 a1 M k = a0 + (a1 - a0).sign * k := by
  rcases Nat.eq_zero_or_pos M with rfl | hM
  · rw [lineCoord, Int.natAbs_eq_zero.mp h, Int.sign_zero, zero_mul, zero_mul]
  · rw [lineCoord, h, stepsAt_self hM]

/-- No coordinate of the major axis comes twice. -/
theorem lineCoord_major_injective (h : (a1 - a0).natAbs = M) (hM : 0 < M) {j k : Nat}
    (hjk : lineCoord a0 a1 M j = lineCoord a0 a1 M k) : j = k := by
  have hsign : (a1 - a0).sign ≠ 0 := by
    rw [Ne, Int.sign_eq_zero_iff_zero]
    omega
  rw [lineCoord_major h, lineCoord_major h] at hjk
  exact_mod_cast mul_left_cancel₀ hsign (add_left_cancel hjk)

section
variable (hM : 0 < M)
include hM

theorem lineCoord_zero : lineCoord a0 a1 M 0 = a0 := by
  rw [lineCoord, stepsAt_zero hM, Nat.cast_zero, mul_zero, add_zero]

theorem lineCoord_last : lineCoord a0 a1 M M = a1 := by
  rw [lineCoord, stepsAt_last hM, Int.sign_mul_natAbs, add_sub_cancel]

theorem lineCoord_succ (h : (a1 - a0).natAbs ≤ M) (k : Nat) :
    lineCoord a0 a1 M (k + 1) =
      lineCoord a0 a1 M k + if 2 * lineError M (a1 - a0).natAbs k ≤ M then (a1 - a0).sign else 0 := by
  rw [lineCoord, stepsAt_succ hM h, lineCoord]
  split_ifs <;> push_cast <;> ring

/-- An axis without distance does not step. -/
theorem ne_of_lineError_le {k : Nat} (h : 2 * lineError M (a1 - a0).natAbs k ≤ M) : a0 ≠ a1 := by
  rintro rfl
  have hb := (lineError_bounds (d := (a0 - a0).natAbs) hM k).1
  rw [sub_self, Int.natAbs_zero] at h hb
  omega

end
end

/-! ### The loop -/

/-- R112's loop on an x-major segment, from its i-th pixel. -/
theorem lineLoop_eq_map {x0 y0 x1 y1 : Int} {M : Nat} (hx : (x1 - x0).natAbs = M) (hy : (y1 - y0).natAbs ≤ M)
    (hM : 0 < M) (n i : Nat) (hn : i + n = M) :
    lineLoop (segmentOf x0 y0 x1 y1) (n + 1) (lineCoord x0 x1 M i) (lineCoord y0 y1 M i)
        (lineError M (y1 - y0).natAbs i) =
      (List.range' i (n + 1)).map (fun k => (lineCoord x0 x1 M k, lineCoord y0 y1 M k)) := by
  induction n generalizing i with
  | zero =>
    obtain rfl : i = M := hn
    rw [lineLoop, if_pos ⟨lineCoord_last hM, lineCoord_last hM⟩]
    rfl
  | succ n ih =>
    have hend : lineCoord x0 x1 M i ≠ x1 := fun h => by
      have := lineCoord_major_injective hx hM (h.trans (lineCoord_last hM).symm)
      omega
    have hstepX : -((y1 - y0).natAbs : Int) ≤ 2 * lineError M (y1 - y0).natAbs i := by
      have hb := (lineError_bounds (d := (y1 - y0).natAbs) hM i).1
      omega
    have hx' : lineCoord x0 x1 M (i + 1) = lineCoord x0 x1 M i + if x0 < x1 then 1 else -1 := by
      rw [lineCoord_major hx, lineCoord_major hx, stepSign_eq_sign (by omega)]
      push_cast
      ring
    rw [List.range'_succ, List.map_cons, ← ih (i + 1) (by omega), lineLoop, if_neg (fun h => hend h.1), hx',
      lineCoord_succ hM hy, lineError_succ hM hy]
    simp only [segmentOf, hx, ge_iff_le, hstepX, decide_true, if_true, decide_eq_true_eq, ← sub_eq_add_neg]
    by_cases hstepY : 2 * lineError M (y1 - y0).natAbs i ≤ M
    · simp only [if_pos hstepY, stepSign_eq_sign (ne_of_lineError_le hM hstepY)]
    · simp only [if_neg hstepY, add_zero]

/-- Pixel k of LinePixels, on both axes. -/
def linePixelAt (x0 y0 x1 y1 : Int) (k : Nat) : Pixel :=
  let M := max (x1 - x0).natAbs (y1 - y0).natAbs
  (lineCoord x0 x1 M k, lineCoord y0 y1 M k)

theorem linePixels_eq_map_of_xMajor {x0 y0 x1 y1 : Int} (h : (y1 - y0).natAbs ≤ (x1 - x0).natAbs) :
    linePixels x0 y0 x1 y1 =
      (List.range (max (x1 - x0).natAbs (y1 - y0).natAbs + 1)).map (linePixelAt x0 y0 x1 y1) := by
  rcases Nat.eq_zero_or_pos (x1 - x0).natAbs with h0 | hpos
  · obtain rfl : x1 = x0 := by omega
    obtain rfl : y1 = y0 := by omega
    simp [linePixels, segmentOf, lineLoop, linePixelAt, lineCoord]
  · have hstart : (segmentOf x0 y0 x1 y1).dx + (segmentOf x0 y0 x1 y1).dy =
        lineError (x1 - x0).natAbs (y1 - y0).natAbs 0 := by
      simp only [segmentOf, lineError, stepsAt_zero hpos]
      push_cast
      ring
    have hloop := lineLoop_eq_map rfl h hpos (x1 - x0).natAbs 0 (by omega)
    rw [lineCoord_zero hpos, lineCoord_zero hpos] at hloop
    simp only [linePixels, hstart, Nat.max_eq_left h, hloop, List.range_eq_range']
    refine List.map_congr_left fun k _ => ?_
    rw [linePixelAt, Nat.max_eq_left h]

/-- The closed form of LinePixels; the y-major segments are the x-major ones with the axes exchanged. -/
theorem linePixels_eq_map (x0 y0 x1 y1 : Int) :
    linePixels x0 y0 x1 y1 =
      (List.range (max (x1 - x0).natAbs (y1 - y0).natAbs + 1)).map (linePixelAt x0 y0 x1 y1) := by
  rcases le_total (y1 - y0).natAbs (x1 - x0).natAbs with h | h
  · exact linePixels_eq_map_of_xMajor h
  · rw [linePixels_swap, linePixels_eq_map_of_xMajor h, List.map_map, Nat.max_comm]
    refine List.map_congr_left fun k _ => ?_
    simp only [Function.comp, linePixelAt, Prod.swap, Nat.max_comm]

/-! ### The obligations on the sequence -/

theorem linePixels_self (x y : Int) : linePixels x y x y = [(x, y)] := by
  simp [linePixels_eq_map, linePixelAt, lineCoord]

/-- Settles O55: the closed form, with the major axis's own steps counted exactly. -/
theorem linePixelsAreNearestToSegment : Obligations.LinePixelsAreNearestToSegment := by
  refine ⟨fun x0 y0 x1 y1 => ?_, by decide, by decide⟩
  rw [linePixels_eq_map]
  refine List.map_congr_left fun k _ => ?_
  simp only [linePixelAt]
  split_ifs with h
  · rw [Nat.max_eq_left h, Nat.min_eq_right h, lineCoord_major rfl, lineCoord, stepsAt]
  · have h' : (x1 - x0).natAbs ≤ (y1 - y0).natAbs := by omega
    rw [Nat.max_eq_right h', Nat.min_eq_left h', lineCoord_major (a0 := y0) rfl, lineCoord, stepsAt]

section
variable (x0 y0 x1 y1 : Int)

theorem linePixels_head : (linePixels x0 y0 x1 y1).head? = some (x0, y0) := by
  rcases Nat.eq_zero_or_pos (max (x1 - x0).natAbs (y1 - y0).natAbs) with h0 | hM
  · obtain ⟨rfl, rfl⟩ : x1 = x0 ∧ y1 = y0 := by omega
    rw [linePixels_self, List.head?_cons]
  · rw [linePixels_eq_map, List.head?_map, List.head?_range, if_neg (Nat.succ_ne_zero _), Option.map_some, linePixelAt,
      lineCoord_zero hM, lineCoord_zero hM]

theorem linePixels_last : (linePixels x0 y0 x1 y1).getLast? = some (x1, y1) := by
  rcases Nat.eq_zero_or_pos (max (x1 - x0).natAbs (y1 - y0).natAbs) with h0 | hM
  · obtain ⟨rfl, rfl⟩ : x1 = x0 ∧ y1 = y0 := by omega
    rw [linePixels_self, List.getLast?_singleton]
  · rw [linePixels_eq_map, List.getLast?_map, List.getLast?_range, if_neg (Nat.succ_ne_zero _), Option.map_some,
      Nat.add_sub_cancel, linePixelAt, lineCoord_last hM, lineCoord_last hM]

theorem linePixels_length : (linePixels x0 y0 x1 y1).length = max (x1 - x0).natAbs (y1 - y0).natAbs + 1 := by
  rw [linePixels_eq_map, List.length_map, List.length_range]

end

/-- R113: the major axis tells the pixels apart. -/
theorem linePixelAt_injective {x0 y0 x1 y1 : Int} (hM : 0 < max (x1 - x0).natAbs (y1 - y0).natAbs) :
    Function.Injective (linePixelAt x0 y0 x1 y1) := by
  intro j k h
  obtain ⟨hx, hy⟩ := Prod.mk.inj h
  rcases le_total (y1 - y0).natAbs (x1 - x0).natAbs with hle | hle
  · exact lineCoord_major_injective (Nat.max_eq_left hle).symm hM hx
  · exact lineCoord_major_injective (Nat.max_eq_right hle).symm hM hy

theorem linePixels_nodup (x0 y0 x1 y1 : Int) : (linePixels x0 y0 x1 y1).Nodup := by
  rcases Nat.eq_zero_or_pos (max (x1 - x0).natAbs (y1 - y0).natAbs) with h0 | hM
  · obtain ⟨rfl, rfl⟩ : x1 = x0 ∧ y1 = y0 := by omega
    rw [linePixels_self]
    exact List.nodup_singleton _
  · rw [linePixels_eq_map]
    exact List.nodup_range.map (linePixelAt_injective hM)

/-- R113 (c) to (e): what one pixel of a segment and the next one have to do with each other. -/
def AdjacentOnSegment (x0 y0 x1 y1 : Int) (p q : Pixel) : Prop :=
  p ≠ q ∧ (q.1 = p.1 ∨ q.1 = p.1 + (x1 - x0).sign) ∧ (q.2 = p.2 ∨ q.2 = p.2 + (y1 - y0).sign) ∧
    (if (y1 - y0).natAbs ≤ (x1 - x0).natAbs then q.1 ≠ p.1 else q.2 ≠ p.2)

theorem lineCoord_succ_eq_or {a0 a1 : Int} {M : Nat} (hM : 0 < M) (h : (a1 - a0).natAbs ≤ M) (k : Nat) :
    lineCoord a0 a1 M (k + 1) = lineCoord a0 a1 M k ∨
      lineCoord a0 a1 M (k + 1) = lineCoord a0 a1 M k + (a1 - a0).sign := by
  rw [lineCoord_succ hM h]
  split_ifs
  · exact .inr rfl
  · exact .inl (add_zero _)

theorem linePixelAt_adjacent {x0 y0 x1 y1 : Int} (hM : 0 < max (x1 - x0).natAbs (y1 - y0).natAbs) (k : Nat) :
    AdjacentOnSegment x0 y0 x1 y1 (linePixelAt x0 y0 x1 y1 k) (linePixelAt x0 y0 x1 y1 (k + 1)) := by
  refine ⟨fun h => (Nat.lt_succ_self k).ne (linePixelAt_injective hM h), lineCoord_succ_eq_or hM (Nat.le_max_left _ _) k,
    lineCoord_succ_eq_or hM (Nat.le_max_right _ _) k, ?_⟩
  split_ifs with hle
  · exact fun h => (Nat.succ_ne_self k) (lineCoord_major_injective (Nat.max_eq_left hle).symm hM h)
  · exact fun h => (Nat.succ_ne_self k) (lineCoord_major_injective (Nat.max_eq_right (by omega)).symm hM h)

theorem linePixels_isChain (x0 y0 x1 y1 : Int) :
    (linePixels x0 y0 x1 y1).IsChain (AdjacentOnSegment x0 y0 x1 y1) := by
  rw [linePixels_eq_map, List.isChain_map, List.isChain_range]
  intro k hk
  exact linePixelAt_adjacent (by omega) k

/-- Settles O33: the closed form axis by axis, with the runs of the axis-aligned segments. -/
theorem linePixelsShape : Obligations.LinePixelsShape := by
  intro x0 y0 x1 y1
  refine ⟨linePixels_head x0 y0 x1 y1, linePixels_last x0 y0 x1 y1, linePixels_length x0 y0 x1 y1,
    linePixels_nodup x0 y0 x1 y1, linePixels_isChain x0 y0 x1 y1, ?_, ?_, ?_⟩
  · rintro rfl x y
    exact mem_linePixels_horizontal
  · rintro rfl x y
    exact mem_linePixels_vertical
  · rintro rfl rfl
    exact linePixels_self x0 y0

end Sys2Proof.Machine
end

section
/-! Polar draws along the axes: the zero length (R120) and the square-cornered box (R152). -/

namespace Sys2Proof.Machine

/-- Settles O23: at length 0 the endpoint is the origin, and the segment between them is that pixel. -/
theorem zeroLengthPolarLinePlotsOrigin : Obligations.ZeroLengthPolarLinePlotsOrigin := by
  intro p s ha hm h0
  have h := linePolarPlotsSegmentToEndpoint p s ha hm
  simp only [h0, BitVec.toNat_zero, polarDx_zero_length, polarDy_zero_length, add_zero, sub_zero, linePixels_self,
    List.mem_singleton, Prod.mk.injEq] at h
  exact h

/-- R147, R152: with square corners the outline is its four segments. -/
theorem inSet_boxOutline_of_square {x y a b : Int} {w h radius : Nat} (hw : 1 ≤ w) (hh : 1 ≤ h)
    (hre : effectiveRadius w h radius = 0) :
    inSet (boxOutline x y w h radius) a b = true ↔ (a, b) ∈ boxSegments x y (farEdge x w) (farEdge y h) := by
  rw [boxOutline, if_neg (by omega), inSet_pixelSet, boxOutlinePixels, if_pos hre]

/-! ### The endpoints at the axis angles (R117, with y downward by R118) -/

theorem polarEndpoint_0 (x y : Int) (n : Nat) : polarEndpoint x y 0 n = (x + n, y) := by
  rw [polarEndpoint, polarDx_0, polarDy_0, sub_zero]

theorem polarEndpoint_90 (x y : Int) (n : Nat) : polarEndpoint x y 90 n = (x, y - n) := by
  rw [polarEndpoint, polarDx_90, polarDy_90, add_zero]

theorem polarEndpoint_180 (x y : Int) (n : Nat) : polarEndpoint x y 180 n = (x - n, y) := by
  rw [polarEndpoint, polarDx_180, polarDy_180, sub_zero, sub_eq_add_neg]

theorem polarEndpoint_270 (x y : Int) (n : Nat) : polarEndpoint x y 270 n = (x, y + n) := by
  rw [polarEndpoint, polarDx_270, polarDy_270, add_zero, sub_neg_eq_add]

/-- Settles O38: at the axis angles the polar endpoints are the box's corners, so the four draws are its segments. -/
theorem squareBoxIsFourPolarLines : Obligations.SquareBoxIsFourPolarLines := by
  intro x y w h radius hw hh hre x1 y1 polarLine a b
  have hright : x + ((w - 1 : Nat) : Int) = x1 := by omega
  have hdown : y + ((h - 1 : Nat) : Int) = y1 := by omega
  have hleft : x1 - ((w - 1 : Nat) : Int) = x := by omega
  have hup : y1 - ((h - 1 : Nat) : Int) = y := by omega
  simp only [inSet_boxOutline_of_square hw hh hre, boxSegments, List.mem_append, or_assoc, polarLine, polarEndpoint_0,
    polarEndpoint_90, polarEndpoint_180, polarEndpoint_270, hright, hdown, hleft, hup]
  rfl

end Sys2Proof.Machine
end

section
/-! Every octant pair (R131): the decision variable keeps b the row of the midpoint circle, so the loop lists exactly
the pairs that the circle's two bounds allow. -/

namespace Sys2Proof.Machine

/-! ### The two bounds -/

/-- R131: b is the midpoint circle's row for a: r² - a² lies above (b - 1)·b and not above b·(b + 1). -/
def OnMidpointCircle (r a b : Int) : Prop :=
  a * a + b * b - b < r * r ∧ r * r ≤ a * a + b * b + b

/-- The ranges that two rows leave for r² - a² do not overlap. -/
theorem OnMidpointCircle.row_unique {r a b y : Int} (hb : OnMidpointCircle r a b) (hy : OnMidpointCircle r a y)
    (hb0 : 0 ≤ b) (hy0 : 0 ≤ y) : y = b := by
  obtain ⟨hblo, hbhi⟩ := hb
  obtain ⟨hylo, hyhi⟩ := hy
  rcases lt_trichotomy y b with h | h | h
  · nlinarith
  · exact h
  · nlinarith

/-- A pair beyond (a, b) in both coordinates lies outside a circle that (a, b) does not reach. -/
theorem not_onMidpointCircle_of_beyond {r a b x y : Int} (ha : 0 ≤ a) (hb : 0 ≤ b)
    (hupper : r * r ≤ a * a + b * b + b) (hx : a ≤ x) (hy : b < y) : ¬ OnMidpointCircle r x y := by
  rintro ⟨hlower, -⟩
  nlinarith

/-! ### The loop -/

/-- The state of R131's loop before it tests a ≤ b: d is the decision at the midpoint between (a + 1, b) and
(a + 1, b - 1), and b is a's row of the circle as long as the loop goes on. -/
structure OctantInvariant (r a b d : Int) : Prop where
  a_nonneg : 0 ≤ a
  b_nonneg : 0 ≤ b
  decision : d = (a + 1) * (a + 1) + b * b - b - r * r
  upper    : r * r ≤ a * a + b * b + b
  lower    : a ≤ b → a * a + b * b - b < r * r

theorem octantInvariant_start {r : Nat} (hr : 1 ≤ r) : OctantInvariant r 0 r (1 - r) where
  a_nonneg := le_refl 0
  b_nonneg := Int.natCast_nonneg r
  decision := by ring
  upper := by omega
  lower _ := by omega

namespace OctantInvariant

variable {r a b d : Int} (h : OctantInvariant r a b d)
include h

/-- R131's step with d < 0: the midpoint is inside the circle, and b stays. -/
theorem keep_row (hd : d < 0) : OctantInvariant r (a + 1) b (d + 2 * a + 3) := by
  obtain ⟨ha, hb, hdec, hupper, -⟩ := h
  exact ⟨by omega, hb, by rw [hdec]; ring, by nlinarith, fun _ => by omega⟩

/-- R131's step with d ≥ 0: the midpoint is not inside the circle, and b falls by 1. -/
theorem lower_row (hab : a ≤ b) (hd : ¬ d < 0) : OctantInvariant r (a + 1) (b - 1) (d + 2 * (a - b) + 5) := by
  have hlower := h.lower hab
  obtain ⟨ha, hb, hdec, hupper, -⟩ := h
  -- Row 0 would mean the pair (0, 0), which lies on no circle of the invariant.
  have hb1 : 0 < b := by
    by_contra hb0
    obtain rfl : b = 0 := by omega
    obtain rfl : a = 0 := by omega
    omega
  exact ⟨by omega, by omega, by rw [hdec]; ring, by nlinarith, fun _ => by nlinarith⟩

/-- While the loop goes on it emits (a, b) and enters a state of the invariant at a + 1. -/
theorem exists_next (hab : a ≤ b) :
    ∃ b' d', b' ≤ b ∧ OctantInvariant r (a + 1) b' d' ∧
      ∀ n, octantLoop (n + 1) a b d = (a, b) :: octantLoop n (a + 1) b' d' := by
  by_cases hd : d < 0
  · exact ⟨b, _, le_refl b, h.keep_row hd, fun n => by rw [octantLoop, if_pos hab, if_pos hd]⟩
  · exact ⟨b - 1, _, by omega, h.lower_row hab hd, fun n => by rw [octantLoop, if_pos hab, if_neg hd]⟩

/-- Once a exceeds b, no pair of the circle is left. -/
theorem no_pair_left (hab : b < a) {x y : Int} : ¬ (a ≤ x ∧ x ≤ y ∧ OnMidpointCircle r x y) := by
  rintro ⟨hx, hxy, hc⟩
  exact not_onMidpointCircle_of_beyond h.a_nonneg h.b_nonneg h.upper hx (by omega) hc

/-- The pairs from a on are (a, b) and the pairs from a + 1 on. -/
theorem pair_from_iff (hab : a ≤ b) {x y : Int} :
    a ≤ x ∧ x ≤ y ∧ OnMidpointCircle r x y ↔
      (x = a ∧ y = b) ∨ a + 1 ≤ x ∧ x ≤ y ∧ OnMidpointCircle r x y := by
  have hrow : OnMidpointCircle r a b := ⟨h.lower hab, h.upper⟩
  constructor
  · rintro ⟨hx, hxy, hc⟩
    rcases eq_or_lt_of_le hx with rfl | hx
    · have ha := h.a_nonneg
      exact .inl ⟨rfl, hrow.row_unique hc h.b_nonneg (by omega)⟩
    · exact .inr ⟨hx, hxy, hc⟩
  · rintro (⟨rfl, rfl⟩ | ⟨hx, hxy, hc⟩)
    · exact ⟨le_refl _, hab, hrow⟩
    · exact ⟨by omega, hxy, hc⟩

end OctantInvariant

/-- From a state of the invariant on, with fuel to spare, the loop lists the circle's pairs from a on. -/
theorem mem_octantLoop_iff {n : Nat} {r a b d x y : Int} (h : OctantInvariant r a b d) (hn : b - a < n) :
    (x, y) ∈ octantLoop n a b d ↔ a ≤ x ∧ x ≤ y ∧ OnMidpointCircle r x y := by
  induction n generalizing a b d with
  | zero =>
    rw [octantLoop]
    exact iff_of_false List.not_mem_nil (h.no_pair_left (by omega))
  | succ n ih =>
    by_cases hab : a ≤ b
    · obtain ⟨b', d', hb', hnext, heq⟩ := h.exists_next hab
      rw [heq, List.mem_cons, Prod.mk.injEq, ih hnext (by omega), h.pair_from_iff hab]
    · rw [octantLoop, if_neg hab]
      exact iff_of_false List.not_mem_nil (h.no_pair_left (by omega))

/-- R131: for r ≥ 1 the octant pairs are the circle's pairs with 0 ≤ a ≤ b. -/
theorem mem_octantPairs_iff {r : Nat} (hr : 1 ≤ r) {a b : Int} :
    (a, b) ∈ octantPairs r ↔ 0 ≤ a ∧ a ≤ b ∧ OnMidpointCircle r a b :=
  mem_octantLoop_iff (octantInvariant_start hr) (by omega)

/-! ### The run of a -/

theorem map_add_range_succ (a : Int) (n : Nat) :
    (List.range (n + 1)).map (fun (k : Nat) => a + (k : Int)) =
      a :: (List.range n).map (fun (k : Nat) => a + 1 + (k : Int)) := by
  rw [List.range_succ_eq_map, List.map_cons, List.map_map, Nat.cast_zero, add_zero]
  refine congrArg _ (List.map_congr_left fun k _ => ?_)
  rw [Function.comp_apply, Nat.cast_succ, add_assoc, add_comm 1]

/-- R131: a rises by 1 from pair to pair, whichever way b goes. -/
theorem octantLoop_map_fst (n : Nat) (a b d : Int) :
    (octantLoop n a b d).map (fun ab => ab.1) =
      (List.range (octantLoop n a b d).length).map (fun (k : Nat) => a + (k : Int)) := by
  induction n generalizing a b d with
  | zero => rfl
  | succ n ih =>
    rw [octantLoop]
    split_ifs
    · rw [List.map_cons, List.length_cons, map_add_range_succ, ih]
    · rw [List.map_cons, List.length_cons, map_add_range_succ, ih]
    · rfl

theorem octantPairs_map_fst (r : Nat) :
    (octantPairs r).map (fun ab => ab.1) = (List.range (octantPairs r).length).map (fun (k : Nat) => (k : Int)) := by
  rw [octantPairs]
  simpa only [zero_add] using octantLoop_map_fst (r + 1) 0 r (1 - r)

theorem octantPairs_zero : octantPairs 0 = [(0, 0)] := by decide

/-- Settles O56: the loop's invariant gives the pairs, and a rises by 1 from 0. -/
theorem octantPairsAreNearestToCircle : Obligations.OctantPairsAreNearestToCircle :=
  ⟨octantPairs_zero, fun r => ⟨⟨_, octantPairs_map_fst r⟩, fun hr _ _ => mem_octantPairs_iff hr⟩⟩

end Sys2Proof.Machine
end

section
/-! CIRCLE: its two pixel sets (R132 to R136) and what it plots (R134). -/

namespace Sys2Proof.Machine

/-! ### The two sets -/

/-- R132: (x, y) is an image of (a, b) about (cx, cy). -/
theorem mem_eightWay {cx cy a b x y : Int} :
    (x, y) ∈ eightWay cx cy (a, b) ↔
      (x = cx + a ∨ x = cx - a) ∧ (y = cy + b ∨ y = cy - b) ∨
      (x = cx + b ∨ x = cx - b) ∧ (y = cy + a ∨ y = cy - a) := by
  simp only [eightWay, List.mem_cons, List.not_mem_nil, Prod.mk.injEq, or_false]
  tauto

/-- R133: (x, y) lies in one of the spans of (a, b) about (cx, cy). -/
theorem inSet_fourSpans {cx cy a b x y : Int} :
    inSet (fourSpans cx cy (a, b)) x y = true ↔
      (y = cy + b ∨ y = cy - b) ∧ cx - a ≤ x ∧ x ≤ cx + a ∨
      (y = cy + a ∨ y = cy - a) ∧ cx - b ≤ x ∧ x ≤ cx + b := by
  simp only [inSet_iff, fourSpans, List.mem_cons, List.not_mem_nil, or_false, exists_eq_or_imp, exists_eq_left]
  tauto

theorem inSet_flatMap {α : Type} {l : List α} {f : α → PixelSet} {x y : Int} :
    inSet (l.flatMap f) x y = true ↔ ∃ u ∈ l, inSet (f u) x y = true := by
  simp only [inSet, List.any_flatMap, List.any_eq_true]

/-- R133: the images of a pair are ends of its spans. -/
theorem inSet_fourSpans_of_mem_eightWay {cx cy a b x y : Int} (ha : 0 ≤ a) (hb : 0 ≤ b)
    (h : (x, y) ∈ eightWay cx cy (a, b)) : inSet (fourSpans cx cy (a, b)) x y = true := by
  rw [inSet_fourSpans]
  rcases mem_eightWay.mp h with ⟨hx, hy⟩ | ⟨hx, hy⟩
  · exact .inl ⟨hy, by omega, by omega⟩
  · exact .inr ⟨hy, by omega, by omega⟩

theorem inSet_circleOutline {cx cy x y : Int} {r : Nat} :
    inSet (circleOutline cx cy r) x y = true ↔ ∃ a b, (a, b) ∈ octantPairs r ∧ (x, y) ∈ eightWay cx cy (a, b) := by
  rw [circleOutline, inSet_pixelSet, List.mem_flatMap, Prod.exists]

/-- R133: the filled set is the pairs' spans, to which the outline adds nothing. -/
theorem inSet_circleFilled {cx cy x y : Int} {r : Nat} :
    inSet (circleFilled cx cy r) x y = true ↔
      ∃ a b, (a, b) ∈ octantPairs r ∧ inSet (fourSpans cx cy (a, b)) x y = true := by
  rw [circleFilled, inSet_append, Bool.or_eq_true, inSet_flatMap, Prod.exists, or_iff_right_of_imp]
  intro h
  obtain ⟨a, b, hab, himage⟩ := inSet_circleOutline.mp h
  obtain ⟨ha, hle, -⟩ := octantPairs_bounds hab
  exact ⟨a, b, hab, inSet_fourSpans_of_mem_eightWay ha (by omega) himage⟩

/-! ### What CIRCLE plots -/

theorem exec_circle_outline (p : Plane) (s : State) :
    exec (.circle p false) s = draw p (circleOutline (circleOperands s.latched).cx (circleOperands s.latched).cy
      (circleOperands s.latched).r) s := rfl

theorem exec_circle_filled (p : Plane) (s : State) :
    exec (.circle p true) s = draw p (circleFilled (circleOperands s.latched).cx (circleOperands s.latched).cy
      (circleOperands s.latched).r) s := rfl

/-- Settles O24: CIRCLE with F = 0 draws the outline, the images of the octant pairs. -/
theorem circleOutlinePlotsEightImages : Obligations.CircleOutlinePlotsEightImages := by
  intro p s ha hm cx cy
  refine completesPlotting_of_draw (exec_circle_outline p s) ha hm fun x y _ => ?_
  simp only [inSet_circleOutline, mem_eightWay]
  rfl

/-- Settles O25: CIRCLE with F = 1 draws the filled set, the spans of the octant pairs. -/
theorem circleFilledPlotsSpans : Obligations.CircleFilledPlotsSpans := by
  intro p s ha hm cx cy
  refine completesPlotting_of_draw (exec_circle_filled p s) ha hm fun x y _ => ?_
  simp only [inSet_circleFilled, inSet_fourSpans]
  rfl

/-! ### The outline and the filled set -/

/-- R136: the outline lies in the filled set. -/
theorem inSet_circleFilled_of_outline {cx cy x y : Int} {r : Nat} (h : inSet (circleOutline cx cy r) x y = true) :
    inSet (circleFilled cx cy r) x y = true := by
  rw [circleFilled, inSet_append, h, Bool.true_or]

/-- R135: the centre lies on the spans of the first pair, (0, r). -/
theorem inSet_circleFilled_centre (cx cy : Int) (r : Nat) : inSet (circleFilled cx cy r) cx cy = true :=
  inSet_circleFilled.mpr ⟨0, r, zero_r_mem_octantPairs r, inSet_fourSpans.mpr (.inr (by omega))⟩

/-- R135: for r ≥ 1 no octant pair is (0, 0), the only one with the centre as an image. -/
theorem not_inSet_circleOutline_centre (cx cy : Int) {r : Nat} (hr : 1 ≤ r) :
    ¬ inSet (circleOutline cx cy r) cx cy = true := by
  intro h
  obtain ⟨a, b, hab, himage⟩ := inSet_circleOutline.mp h
  obtain ⟨ha, hle, -, hupper⟩ := (mem_octantPairs_iff hr).mp hab
  obtain ⟨rfl, rfl⟩ : a = 0 ∧ b = 0 := by
    rcases mem_eightWay.mp himage with ⟨hx, hy⟩ | ⟨hx, hy⟩ <;> omega
  nlinarith

/-- R136: at radius 0 the one pair is (0, 0), whose images and spans are the centre. -/
theorem inSet_circleOutline_zero {cx cy x y : Int} :
    inSet (circleOutline cx cy 0) x y = true ↔ x = cx ∧ y = cy := by
  simp [inSet_circleOutline, octantPairs_zero, mem_eightWay]

theorem inSet_circleFilled_zero {cx cy x y : Int} :
    inSet (circleFilled cx cy 0) x y = true ↔ x = cx ∧ y = cy := by
  simp only [inSet_circleFilled, octantPairs_zero, inSet_fourSpans, List.mem_singleton, Prod.mk.injEq]
  constructor
  · rintro ⟨a, b, ⟨rfl, rfl⟩, h⟩
    omega
  · rintro ⟨rfl, rfl⟩
    exact ⟨0, 0, ⟨rfl, rfl⟩, by omega⟩

/-- Settles O36: the filled set adds to the outline, and at radius 0 both are the centre. -/
theorem circleOutlineInsideFilled : Obligations.CircleOutlineInsideFilled := by
  intro cx cy r
  refine ⟨fun x y => inSet_circleFilled_of_outline, fun hr => ⟨inSet_circleFilled_centre cx cy r, ?_⟩, ?_⟩
  · exact Bool.eq_false_of_not_eq_true (not_inSet_circleOutline_centre cx cy hr)
  · rintro rfl
    exact ⟨octantPairs_zero, fun x y => ⟨inSet_circleOutline_zero, inSet_circleFilled_zero⟩⟩

end Sys2Proof.Machine
end

section
/-! BOX: which pixels its outline (R145 to R149) and its filled set (R150) have, and what it plots (R151). -/

namespace Sys2Proof.Machine

/-! ### The far edges and the effective radius -/

theorem le_farEdge {x : Int} {w : Nat} (hw : 1 ≤ w) : x ≤ farEdge x w := by
  rw [farEdge]
  omega

/-- R149: the arcs' centres do not cross. -/
theorem add_le_farEdge_sub {x : Int} {w re : Nat} (h : 2 * re < w) : x + re ≤ farEdge x w - re := by
  rw [farEdge]
  omega

/-- R146: the corners' diameter leaves a column between them. -/
theorem two_mul_effectiveRadius_lt_width {w h radius : Nat} (hw : 1 ≤ w) : 2 * effectiveRadius w h radius < w := by
  rw [effectiveRadius]
  omega

/-- R146: the corners' diameter leaves a row between them. -/
theorem two_mul_effectiveRadius_lt_height {w h radius : Nat} (hh : 1 ≤ h) : 2 * effectiveRadius w h radius < h := by
  rw [effectiveRadius]
  omega

/-! ### The offsets of a corner arc from its centre -/

/-- R149: an arc of radius r takes its offsets from the octant pairs, read either way round. -/
def ArcOffset (r : Nat) (c d : Int) : Prop := (c, d) ∈ octantPairs r ∨ (d, c) ∈ octantPairs r

theorem arcOffset_bounds {r : Nat} {c d : Int} (h : ArcOffset r c d) : 0 ≤ c ∧ c ≤ r ∧ 0 ≤ d ∧ d ≤ r := by
  rcases h with h | h
  · have := octantPairs_bounds h
    omega
  · have := octantPairs_bounds h
    omega

/-- R150: an arc leaves no row out. -/
theorem exists_arcOffset {r : Nat} {d : Int} (h0 : 0 ≤ d) (hr : d ≤ r) : ∃ c, ArcOffset r c d := by
  obtain ⟨a, b, hab, rfl | rfl⟩ := octantPairs_covers h0 hr
  · exact ⟨b, .inr hab⟩
  · exact ⟨a, .inl hab⟩

/-! ### The parts of the outline -/

/-- R147: the four segments are the border of the rectangle. -/
theorem mem_boxSegments {x y x1 y1 a b : Int} (hx : x ≤ x1) (hy : y ≤ y1) :
    (a, b) ∈ boxSegments x y x1 y1 ↔
      x ≤ a ∧ a ≤ x1 ∧ y ≤ b ∧ b ≤ y1 ∧ (a = x ∨ a = x1 ∨ b = y ∨ b = y1) := by
  simp only [boxSegments, List.mem_append, mem_linePixels_horizontal, mem_linePixels_vertical]
  omega

/-- R148: the trimmed edges, top and bottom, left and right. -/
theorem mem_boxEdges {x y x1 y1 re a b : Int} (hx : x + re ≤ x1 - re) (hy : y + re ≤ y1 - re) :
    (a, b) ∈ boxEdges x y x1 y1 re ↔
      (b = y ∨ b = y1) ∧ x + re ≤ a ∧ a ≤ x1 - re ∨ (a = x ∨ a = x1) ∧ y + re ≤ b ∧ b ≤ y1 - re := by
  simp only [boxEdges, List.mem_append, mem_linePixels_horizontal, mem_linePixels_vertical, min_eq_left hx,
    max_eq_right hx, min_eq_left hy, max_eq_right hy]
  tauto

/-- R149: each octant pair, read both ways round, gives a pixel at each corner. -/
theorem mem_cornerPixels {x y x1 y1 re c d a b : Int} :
    (a, b) ∈ cornerPixels x y x1 y1 re (c, d) ↔
      (a = x + re - c ∨ a = x1 - re + c) ∧ (b = y + re - d ∨ b = y1 - re + d) ∨
      (a = x + re - d ∨ a = x1 - re + d) ∧ (b = y + re - c ∨ b = y1 - re + c) := by
  simp only [cornerPixels, List.mem_cons, List.not_mem_nil, Prod.mk.injEq, or_false]
  tauto

theorem mem_boxArcs {x y x1 y1 a b : Int} {re : Nat} :
    (a, b) ∈ boxArcs x y x1 y1 re ↔ ∃ c d, ArcOffset re c d ∧
      (a = x + re - c ∨ a = x1 - re + c) ∧ (b = y + re - d ∨ b = y1 - re + d) := by
  simp only [boxArcs, List.mem_flatMap, Prod.exists, mem_cornerPixels]
  constructor
  · rintro ⟨c, d, hcd, h | h⟩
    · exact ⟨c, d, .inl hcd, h⟩
    · exact ⟨d, c, .inr hcd, h⟩
  · rintro ⟨c, d, hcd | hdc, h⟩
    · exact ⟨c, d, hcd, .inl h⟩
    · exact ⟨d, c, hdc, .inr h⟩

/-! ### The outline -/

section
variable {x y a b : Int} {w h radius : Nat} (hw : 1 ≤ w) (hh : 1 ≤ h)
include hw hh

/-- R147: the outline with square corners. -/
theorem mem_boxOutlinePixels_of_square (hre : effectiveRadius w h radius = 0) :
    (a, b) ∈ boxOutlinePixels x y w h radius ↔
      x ≤ a ∧ a ≤ farEdge x w ∧ y ≤ b ∧ b ≤ farEdge y h ∧
        (a = x ∨ a = farEdge x w ∨ b = y ∨ b = farEdge y h) := by
  rw [boxOutlinePixels, if_pos hre, mem_boxSegments (le_farEdge hw) (le_farEdge hh)]

/-- R148, R149: the outline with round corners. -/
theorem mem_boxOutlinePixels_of_round {re : Nat} (hre : effectiveRadius w h radius = re) (hpos : 0 < re) :
    (a, b) ∈ boxOutlinePixels x y w h radius ↔
      ((b = y ∨ b = farEdge y h) ∧ x + re ≤ a ∧ a ≤ farEdge x w - re ∨
        (a = x ∨ a = farEdge x w) ∧ y + re ≤ b ∧ b ≤ farEdge y h - re) ∨
      ∃ c d, ArcOffset re c d ∧
        (a = x + re - c ∨ a = farEdge x w - re + c) ∧ (b = y + re - d ∨ b = farEdge y h - re + d) := by
  have hwide : 2 * re < w := hre ▸ two_mul_effectiveRadius_lt_width hw
  have htall : 2 * re < h := hre ▸ two_mul_effectiveRadius_lt_height hh
  rw [boxOutlinePixels, hre, if_neg hpos.ne', List.mem_append, mem_boxArcs,
    mem_boxEdges (add_le_farEdge_sub hwide) (add_le_farEdge_sub htall)]

/-- R145: the outline stays in the box, since no arc reaches beyond its radius. -/
theorem bounds_of_mem_boxOutlinePixels (hab : (a, b) ∈ boxOutlinePixels x y w h radius) :
    x ≤ a ∧ a ≤ x + w - 1 ∧ y ≤ b ∧ b ≤ y + h - 1 := by
  have hwide := two_mul_effectiveRadius_lt_width (h := h) (radius := radius) hw
  have htall := two_mul_effectiveRadius_lt_height (w := w) (radius := radius) hh
  rcases Nat.eq_zero_or_pos (effectiveRadius w h radius) with hre | hpos
  · rw [mem_boxOutlinePixels_of_square hw hh hre] at hab
    simp only [farEdge] at hab
    omega
  · rw [mem_boxOutlinePixels_of_round hw hh rfl hpos] at hab
    simp only [farEdge] at hab
    rcases hab with hedge | ⟨c, d, hcd, ha, hb⟩
    · omega
    · have := arcOffset_bounds hcd
      omega

/-- R150: no row of the box is without an outline pixel: between the arcs the left edge has one, elsewhere an arc. -/
theorem exists_mem_boxOutlinePixels (hy : y ≤ b) (hy1 : b ≤ y + h - 1) :
    ∃ u, (u, b) ∈ boxOutlinePixels x y w h radius := by
  rcases Nat.eq_zero_or_pos (effectiveRadius w h radius) with hre | hpos
  · simp only [mem_boxOutlinePixels_of_square hw hh hre, farEdge]
    exact ⟨x, by omega⟩
  · simp only [mem_boxOutlinePixels_of_round hw hh rfl hpos, farEdge]
    generalize effectiveRadius w h radius = re
    by_cases htop : b < y + re
    · obtain ⟨c, hc⟩ := exists_arcOffset (r := re) (d := y + re - b) (by omega) (by omega)
      exact ⟨_, .inr ⟨c, _, hc, .inl rfl, .inl (by omega)⟩⟩
    by_cases hbottom : y + h - 1 - re < b
    · obtain ⟨c, hc⟩ := exists_arcOffset (r := re) (d := b - (y + h - 1 - re)) (by omega) (by omega)
      exact ⟨_, .inr ⟨c, _, hc, .inl rfl, .inr (by omega)⟩⟩
    · exact ⟨x, .inl (.inr ⟨.inl rfl, by omega, by omega⟩)⟩

end

/-! ### The two sets -/

theorem inSet_boxOutline {x y a b : Int} {w h radius : Nat} :
    inSet (boxOutline x y w h radius) a b = true ↔ 1 ≤ w ∧ 1 ≤ h ∧ (a, b) ∈ boxOutlinePixels x y w h radius := by
  rw [boxOutline]
  split_ifs with hempty
  · exact iff_of_false Bool.false_ne_true fun ⟨hw, hh, _⟩ => by omega
  · rw [inSet_pixelSet]
    exact ⟨fun hab => ⟨by omega, by omega, hab⟩, fun ⟨_, _, hab⟩ => hab⟩

theorem inSet_boxFilled {x y a b : Int} {w h radius : Nat} :
    inSet (boxFilled x y w h radius) a b = true ↔ 1 ≤ w ∧ 1 ≤ h ∧ y ≤ b ∧ b ≤ y + h - 1 ∧
      ∃ u v, (u, b) ∈ boxOutlinePixels x y w h radius ∧ (v, b) ∈ boxOutlinePixels x y w h radius ∧ u ≤ a ∧ a ≤ v := by
  rw [boxFilled]
  split_ifs with hempty
  · exact iff_of_false Bool.false_ne_true fun ⟨hw, hh, _⟩ => by omega
  · rw [inSet_fillRows, mem_boxRows]
    exact ⟨fun ⟨hrow, hspan⟩ => ⟨by omega, by omega, hrow.1, by omega, hspan⟩,
      fun ⟨_, _, hy, hy1, hspan⟩ => ⟨⟨hy, by omega⟩, hspan⟩⟩

/-- R150: an outline pixel is a span of its own row. -/
theorem inSet_boxFilled_of_outline {x y a b : Int} {w h radius : Nat}
    (hab : inSet (boxOutline x y w h radius) a b = true) : inSet (boxFilled x y w h radius) a b = true := by
  obtain ⟨hw, hh, hmem⟩ := inSet_boxOutline.mp hab
  obtain ⟨-, -, hy, hy1⟩ := bounds_of_mem_boxOutlinePixels hw hh hmem
  exact inSet_boxFilled.mpr ⟨hw, hh, hy, hy1, a, a, hmem, hmem, le_refl a, le_refl a⟩

/-- Settles O37: the left edge and the arcs meet every row, the arcs stay within their radius, and each outline pixel
fills itself. -/
theorem boxOutlineMeetsEveryRow : Obligations.BoxOutlineMeetsEveryRow := fun _ _ _ _ _ hw hh =>
  ⟨fun _ => exists_mem_boxOutlinePixels hw hh, fun _ _ => bounds_of_mem_boxOutlinePixels hw hh,
    fun _ _ => inSet_boxFilled_of_outline⟩

/-! ### What BOX plots -/

theorem exec_box_outline (p : Plane) (s : State) :
    exec (.box p false) s = draw p (boxOutline (boxOperands s.latched).x (boxOperands s.latched).y
      (boxOperands s.latched).w (boxOperands s.latched).h (boxOperands s.latched).radius) s := rfl

theorem exec_box_filled (p : Plane) (s : State) :
    exec (.box p true) s = draw p (boxFilledInRows (areaH s.latched) (boxOperands s.latched).x
      (boxOperands s.latched).y (boxOperands s.latched).w (boxOperands s.latched).h (boxOperands s.latched).radius) s :=
  rfl

/-- Settles O26: BOX with F = 0 draws the outline, square or round by the effective radius. -/
theorem boxOutlinePlotsEdgesAndArcs : Obligations.BoxOutlinePlotsEdgesAndArcs := by
  intro p s ha hm x0 y0 w h re x1 y1
  refine completesPlotting_of_draw (exec_box_outline p s) ha hm fun x y _ => ?_
  refine inSet_boxOutline.trans (and_congr_right fun hw => and_congr_right fun hh => ?_)
  rcases Nat.eq_zero_or_pos (effectiveRadius w h s.latched.args.arg4.toNat) with hre | hpos
  · have hre0 : re = 0 := congrArg Nat.cast hre
    refine (mem_boxOutlinePixels_of_square hw hh hre).trans ?_
    simp only [hre0, lt_irrefl, true_and, false_and, or_false]
    rfl
  · have hre0 : 0 < re := Int.natCast_pos.mpr hpos
    refine (mem_boxOutlinePixels_of_round hw hh rfl hpos).trans ?_
    simp only [hre0, hre0.ne', true_and, false_and, false_or, or_assoc]
    rfl

/-- Settles O27: filling the rows of the active area plots what filling every row does, and a filled row runs between
two outline pixels. -/
theorem boxFilledPlotsRowsOfOutline : Obligations.BoxFilledPlotsRowsOfOutline := by
  intro p s ha hm x0 y0 w h outline
  refine completesPlotting_of_draw (exec_box_filled p s) ha hm fun x y hin => ?_
  rw [inSet_boxFilledInRows hin.2]
  exact inSet_boxFilled

end Sys2Proof.Machine
end

section
/-! COMBINE (R160 to R165): its four operators over the active area, and XOR as its own inverse. -/

namespace Sys2Proof.Machine

/-! ### What each mode does -/

/-- NORMAL alone does not read dst, and its operator ignores it (R161). -/
theorem combineOp_of_not_readsDst {mode : CombineMode} (h : combineReadsDst mode = false) (d src : Bool) :
    combineOp mode d src = combineOp mode false src := by
  cases mode with
  | normal => rfl
  | or | and | xor => cases h

/-- R164: XOR with the same src undoes itself. -/
theorem combineOp_xor_xor (d src : Bool) : combineOp .xor (combineOp .xor d src) src = d := by
  cases d <;> cases src <;> rfl

/-- R160: a command that is COMBINE in some mode completes by that mode's operator. -/
theorem completesCombining_of_combineActive {i : Instr} {mode : CombineMode} {p : Plane} {s : State}
    (hexec : exec i s = combineActive mode p s) (ha : areaOk s = true) (hm : memoryWf (planeOf s p) = true) :
    CompletesCombining i p (combineOp mode) (combineReadsDst mode) s := by
  intro hsrc hdst
  refine ⟨combinedPlane mode p s, ?_, fun x y b hxy hb => ?_, fun a => cellAt_combinedPlane_kept hm⟩
  · rw [hexec, combineActive_eq ha (areaKnown_planeOf.mpr hsrc) fun hr => areaKnown_planeOf.mpr (hdst hr)]
  · rw [cellAt_combinedPlane_active hm hxy, (readPixel_eq_some.mp hb).2]
    refine ⟨fun d hd => ?_, fun hr => ?_⟩
    · rw [(readPixel_eq_some.mp hd).2]
    · rw [combineOp_of_not_readsDst hr]

/-- Settles O28: each of the four commands is COMBINE in its mode. -/
theorem combineAppliesModeToActiveArea : Obligations.CombineAppliesModeToActiveArea := fun _ _ ha hm =>
  ⟨completesCombining_of_combineActive (mode := .normal) rfl ha hm,
    completesCombining_of_combineActive (mode := .or) rfl ha hm,
    completesCombining_of_combineActive (mode := .and) rfl ha hm,
    completesCombining_of_combineActive (mode := .xor) rfl ha hm⟩

/-! ### Cells and pixels -/

theorem pixelBit_of_cellAt {m : Memory} {a : Nat} {b : Bool} (h : cellAt m a = some (bitCell b)) :
    pixelBit m a = b := by
  rw [pixelBit, h, Option.getD_some, bitCell_getLsbD]

/-- A known cell of a plane is its pixel (R35). -/
theorem cellAt_of_pixelKnown {m : Memory} {a : Nat} (hb : cellsAreBits m = true) (hk : pixelKnown m a = true) :
    cellAt m a = some (bitCell (pixelBit m a)) := by
  obtain ⟨v, hv⟩ := Option.isSome_iff_exists.mp hk
  rw [pixelBit, hv, Option.getD_some]
  rcases cellsAreBits_iff.mp hb _ (mem_of_cellAt_eq_some hv) with hbit | hbit <;> cases hbit <;> rfl

theorem cellAt_combinedPlane {mode : CombineMode} {p : Plane} {s : State} (hm : memoryWf (planeOf s p) = true)
    (a : Nat) :
    cellAt (combinedPlane mode p s) a =
      if a ∈ areaKeys s then
        some (bitCell (combineOp mode (pixelBit (planeOf s p) a) (pixelBit (planeOf s p.other) a)))
      else cellAt (planeOf s p) a :=
  cellAt_writeEach _ _ _ _ hm

/-- A COMBINE leaves a value in every pixel of its active area. -/
theorem areaKnown_combinedPlane {mode : CombineMode} {p : Plane} {s : State} (hm : memoryWf (planeOf s p) = true) :
    areaKnown (combinedPlane mode p s) s = true :=
  areaKnown_iff.mpr fun _ _ hxy => by rw [pixelKnown, cellAt_combinedPlane_active hm hxy]; rfl

/-! ### XOR twice -/

section
variable {p : Plane} {s t : State} (hparams : t.params = s.params) (hw : t.latched.w = s.latched.w)
  (hh : t.latched.h = s.latched.h)
include hparams hw hh

theorem areaOk_congr : areaOk t = areaOk s := by
  rw [areaOk, areaOk, hparams, hw, hh]

theorem areaKeys_congr : areaKeys t = areaKeys s := by
  rw [areaKeys, areaKeys, areaW, areaW, areaH, areaH, hparams, hw, hh]

theorem areaKnown_congr (m : Memory) : areaKnown m t = areaKnown m s := by
  rw [areaKnown, areaKnown, areaKeys_congr hparams hw hh]

/-- R165: (d xor src) xor src is d in the active area, and every other cell is kept twice. -/
theorem combinedPlane_xor_combinedPlane_xor (hm : memoryWf (planeOf s p) = true)
    (hb : cellsAreBits (planeOf s p) = true) (hk : areaKnown (planeOf s p) s = true)
    (hdst : planeOf t p = combinedPlane .xor p s) (hsrc : planeOf t p.other = planeOf s p.other) :
    combinedPlane .xor p t = planeOf s p := by
  have hmt : memoryWf (planeOf t p) = true := hdst ▸ memoryWf_writeEach _ _ _ hm
  refine memory_ext (memoryWf_writeEach _ _ _ hmt) hm fun a => ?_
  have hcell := cellAt_combinedPlane (mode := .xor) hm a
  rw [cellAt_combinedPlane hmt, areaKeys_congr hparams hw hh, hdst, hsrc]
  by_cases hin : a ∈ areaKeys s
  · rw [if_pos hin] at hcell ⊢
    rw [pixelBit_of_cellAt hcell, combineOp_xor_xor, cellAt_of_pixelKnown hb (List.all_eq_true.mp hk a hin)]
  · rw [if_neg hin] at hcell ⊢
    exact hcell

end

/-- Settles O51: the first COMBINE.XOR leaves dst's area known and src as it was, so the second completes and undoes
it. -/
theorem xorTwiceRestoresPlane : Obligations.XorTwiceRestoresPlane := by
  intro p s t t' hmem h hparams hA hB hw hh
  obtain ⟨-, hbits⟩ := (memoriesOk_iff.mp hmem).1 p
  have hm := (memoryWf_of_memoriesOk hmem).1 p
  obtain ⟨ha, hsrc, hdst, rfl⟩ := combineActive_eq_next (mode := .xor) h
  have hplanes : ∀ q, planeOf t' q = planeOf (setPlane s p (combinedPlane .xor p s)) q := fun q => by
    cases q
    exacts [hA, hB]
  have hself : planeOf t' p = combinedPlane .xor p s := by rw [hplanes, planeOf_setPlane_self]
  have hother : planeOf t' p.other = planeOf s p.other := by rw [hplanes, planeOf_setPlane_other]
  refine ⟨_, combineActive_eq (mode := .xor) ?_ ?_ fun _ => ?_, ?_⟩
  · rw [areaOk_congr hparams hw hh, ha]
  · rw [areaKnown_congr hparams hw hh, hother, hsrc]
  · rw [areaKnown_congr hparams hw hh, hself, areaKnown_combinedPlane hm]
  · rw [planeOf_with_status, planeOf_setPlane_self]
    exact combinedPlane_xor_combinedPlane_xor hparams hw hh hm hbits (hdst rfl) hself hother

end Sys2Proof.Machine
end

section
/-! The pack family (R170 to R176): what PACK and UNPACK write, PACK_LEN, the two round trips of R174, and the host's
view of the packed image. -/

namespace Sys2Proof.Machine

/-! ### Packed bytes and unpacked pixels -/

/-- Bit 7-k of a packed group says that row k of the group lies in the active area and its pixel is 1 (R171, R172). -/
theorem getLsbD_packGroup_iff {p : Plane} {s : State} {c g k : Nat} (hknown : areaKnown (planeOf s p) s = true)
    (hc : c < areaW s.latched) (hk : k < 8) :
    (packGroup s.params (planeOf s p) (areaH s.latched) c g).getLsbD (7 - k) = true ↔
      8 * g + k < areaH s.latched ∧ readPixel s p c (8 * g + k) = some true := by
  rw [getLsbD_packGroup hk, Bool.and_eq_true, decide_eq_true_iff, readPixel_eq_some]
  exact and_congr_right fun hr => (and_iff_right (areaKnown_iff.mp hknown c _ ⟨hc, hr⟩)).symm

theorem cellAt_packedBuffer_isSome {p : Plane} {s : State} {j : Nat} (hm : memoryWf s.packBuf = true)
    (hj : j < packedLength s.latched) : ∃ v, cellAt (packedBuffer p s) j = some v :=
  ⟨_, by rw [packedBuffer, cellAt_writeEach _ _ _ _ hm, if_pos (List.mem_range.mpr hj)]⟩

/-- Row k of column c's group g is bit 7-k of the group's byte (R171, R173). -/
theorem unpackedBit_group {buf : Memory} {n c g k : Nat} {v : Byte} (hk : k < 8)
    (hv : cellAt buf (c * n + g) = some v) : unpackedBit buf n c (8 * g + k) = v.getLsbD (7 - k) := by
  have hdiv : (8 * g + k) / 8 = g := by omega
  have hmod : (8 * g + k) % 8 = k := by omega
  rw [unpackedBit, hdiv, hmod, hv, Option.getD_some]

/-- The groups of a column cover its H rows (R170). -/
theorem areaH_le_rows (l : Latch) : areaH l ≤ 8 * areaG l := by
  rw [areaG, ceil8]
  omega

/-! ### What the two completions write -/

/-- Settles O30: the buffer that PACK leaves is `packedBuffer`, known byte by byte. -/
theorem packWritesColumnMajorBytes : Obligations.PackWritesColumnMajorBytes := by
  intro p s ha hm hknown W H G
  have hk := areaKnown_planeOf.mpr hknown
  exact ⟨packedBuffer p s, execPack_eq ha hk,
    fun c g hc hg => ⟨_, cellAt_packedBuffer_group hm hc hg, fun k hk8 => getLsbD_packGroup_iff hk hc hk8⟩,
    fun j => cellAt_packedBuffer_kept hm⟩

/-- Settles O31: the plane that UNPACK leaves is `unpackedPlane`, known pixel by pixel. -/
theorem unpackWritesColumnsWithPadding : Obligations.UnpackWritesColumnsWithPadding := by
  intro p s ha hm W G hknown
  refine ⟨unpackedPlane p s, execUnpack_eq ha (packedKnown_iff.mpr hknown), fun c g k v hc hg hk hv => ?_,
    fun a => cellAt_unpackedPlane_kept hm⟩
  have hr : 8 * g + k < 8 * G := by omega
  have hbit : unpackedBit s.packBuf (areaG s.latched) c (8 * g + k) = v.getLsbD (7 - k) := unpackedBit_group hk hv
  rw [cellAt_unpackedPlane_written hm ha hc hr, hbit]

/-! ### PACK_LEN -/

/-- R175: N fits PACK_LEN's 16 bits, since PACKBUF_BYTES is at most 4096 (R7). -/
theorem toNat_ofNat_packedLength {s : State} (hp : s.params.wellFormed = true) (ha : areaOk s = true) :
    (BitVec.ofNat 16 (packedLength s.latched)).toNat = packedLength s.latched := by
  have hle := packedLength_le hp ha
  obtain ⟨-, -, -, -, -, -, hsize, -⟩ := params_facts hp
  rw [packBytes] at hle
  rw [BitVec.toNat_ofNat, Nat.mod_eq_of_lt (by omega)]

theorem exec_packLen {i : Instr} {s t : State} (h : exec i s = .next t) (hi : ∃ p, i = .pack p ∨ i = .unpack p) :
    areaOk s = true ∧ t.packLen = BitVec.ofNat 16 (packedLength s.latched) := by
  rcases hi with ⟨p, rfl | rfl⟩
  · obtain ⟨ha, -, rfl⟩ := execPack_eq_next h
    exact ⟨ha, rfl⟩
  · obtain ⟨ha, -, rfl⟩ := execUnpack_eq_next h
    exact ⟨ha, rfl⟩

/-- Settles O50: PACK and UNPACK store N without wrapping, and every other completion keeps PACK_LEN. -/
theorem packLenIsPackedLength : Obligations.PackLenIsPackedLength := by
  intro i s t hp h
  refine ⟨fun hi => ?_, fun hi => ?_⟩
  · obtain ⟨ha, hlen⟩ := exec_packLen h hi
    rw [hlen, toNat_ofNat_packedLength hp ha]
    exact ⟨rfl, packedLength_le hp ha⟩
  · rcases exec_packing h with ⟨-, hlen⟩ | ⟨p, rfl, -⟩ | ⟨p, rfl, -⟩
    · exact hlen
    · exact absurd rfl (hi p).2
    · exact absurd rfl (hi p).1

/-! ### UNPACK after PACK -/

/-- What UNPACK leaves at a pixel that it writes (R173). -/
theorem readPixel_exec_unpack {p : Plane} {s t : State} {c r : Nat} (h : exec (.unpack p) s = .next t)
    (hm : memoryWf (planeOf s p) = true) (hc : c < areaW s.latched) (hr : r < 8 * areaG s.latched) :
    readPixel t p c r = some (unpackedBit s.packBuf (areaG s.latched) c r) := by
  obtain ⟨ha, hplane, -⟩ := exec_unpack_planes h
  rw [readPixel, hplane, exec_params h, cellAt_unpackedPlane_written hm ha hc hr, Option.map_some, bitCell_getLsbD]

/-- R174: the packed image of plane p unpacks to p's pixels in the active area and to 0 in the padding rows. -/
theorem unpackedBit_packedBuffer {p : Plane} {s : State} {c r : Nat} (hm : memoryWf s.packBuf = true)
    (hc : c < areaW s.latched) (hr : r < 8 * areaG s.latched) :
    unpackedBit (packedBuffer p s) (areaG s.latched) c r =
      (decide (r < areaH s.latched) && pixelBit (planeOf s p) (pixelKey s.params c r)) := by
  obtain ⟨g, k, hk, rfl⟩ : ∃ g k, k < 8 ∧ r = 8 * g + k := ⟨r / 8, r % 8, by omega, by omega⟩
  rw [unpackedBit_group hk (cellAt_packedBuffer_group hm hc (by omega)), getLsbD_packGroup hk]

/-- The same latched dimensions give the same active area, groups and packed length. -/
theorem area_congr {l l' : Latch} (hw : l'.w = l.w) (hh : l'.h = l.h) :
    areaW l' = areaW l ∧ areaH l' = areaH l ∧ areaG l' = areaG l ∧ packedLength l' = packedLength l := by
  simp only [packedLength, areaG, areaW, areaH, hw, hh, and_self]

/-- Settles O52: PACK leaves every byte that UNPACK reads known, and UNPACK reads the packed pixels back. -/
theorem unpackAfterPackRestoresArea : Obligations.UnpackAfterPackRestoresArea := by
  intro p q s t t' hok h hparams hbuf hq hw hh W H
  have hm := (memoryWf_of_memoriesOk hok).2
  obtain ⟨ha, hknown, rfl⟩ := execPack_eq_next h
  obtain ⟨hW, -, hG, hN⟩ := area_congr hw hh
  have hbytes : packedKnown t' = true := packedKnown_iff.mpr fun j hj => by
    rw [readPackByte, hbuf]
    exact cellAt_packedBuffer_isSome hm (hN ▸ hj)
  obtain ⟨u, hu⟩ : ∃ u, exec (.unpack q) t' = .next u :=
    ⟨_, execUnpack_eq ((areaOk_congr hparams hw hh).trans ha) hbytes⟩
  have written : ∀ c r, c < W → r < 8 * areaG s.latched →
      readPixel u q c r = some (decide (r < H) && pixelBit (planeOf s p) (pixelKey s.params c r)) := by
    intro c r hc hr
    rw [readPixel_exec_unpack hu hq (hW ▸ hc) (hG ▸ hr), hbuf, hG]
    exact congrArg some (unpackedBit_packedBuffer hm hc hr)
  refine ⟨u, hu, fun c r hc hr => ?_, fun c r hc hr hpad => ?_, fun c r hc hout => ?_⟩
  · rw [written c r hc (lt_of_lt_of_le hr (areaH_le_rows _)), decide_eq_true hr, Bool.true_and]
    exact (readPixel_eq_some.mpr ⟨areaKnown_iff.mp hknown c r ⟨hc, hr⟩, rfl⟩).symm
  · rw [written c r hc hpad, decide_eq_false (Nat.not_lt.mpr hr), Bool.false_and]
  · refine exec_unpack_outside_kept hu hq (hparams ▸ hc) fun ⟨hin, hrow⟩ => ?_
    rw [hW] at hin
    rw [hG] at hrow
    exact hout.elim (Nat.not_le.mpr hin) (Nat.not_le.mpr hrow)

/-! ### PACK after UNPACK -/

section
variable {p : Plane} {s : State} (hm : memoryWf (planeOf s p) = true) (ha : areaOk s = true)
include hm ha

/-- An UNPACK leaves a value in every pixel of the active area. -/
theorem areaKnown_unpackedPlane : areaKnown (unpackedPlane p s) s = true :=
  areaKnown_iff.mpr fun _ _ hxy => by
    rw [pixelKnown, cellAt_unpackedPlane_written hm ha hxy.1 (lt_of_lt_of_le hxy.2 (areaH_le_rows _))]
    rfl

/-- R174: packing an unpacked byte gives it back without the bits of the padding rows. -/
theorem getLsbD_packGroup_unpackedPlane {c g k : Nat} {v : Byte} (hc : c < areaW s.latched)
    (hg : g < areaG s.latched) (hk : k < 8) (hv : cellAt s.packBuf (c * areaG s.latched + g) = some v) :
    (packGroup s.params (unpackedPlane p s) (areaH s.latched) c g).getLsbD (7 - k) =
      (v.getLsbD (7 - k) && decide (8 * g + k < areaH s.latched)) := by
  have hcell := cellAt_unpackedPlane_written hm ha hc (show 8 * g + k < 8 * areaG s.latched by omega)
  rw [getLsbD_packGroup hk, pixelBit_of_cellAt hcell, unpackedBit_group hk hv, Bool.and_comm]

end

/-- Settles O53: UNPACK leaves every pixel that PACK reads known, and PACK drops the padding rows. -/
theorem packAfterUnpackClearsPadding : Obligations.PackAfterUnpackClearsPadding := by
  intro p s t t' hok h hparams hplane hbuf hw hh W H G
  have hm := (memoryWf_of_memoriesOk hok).1 p
  obtain ⟨ha, hbytes, -⟩ := execUnpack_eq_next h
  obtain ⟨-, hself, -⟩ := exec_unpack_planes h
  rw [hself] at hplane
  obtain ⟨hW, hH, hG, -⟩ := area_congr hw hh
  have hknown : areaKnown (planeOf t' p) t' = true := by
    rw [areaKnown_congr hparams hw hh, hplane, areaKnown_unpackedPlane hm ha]
  refine ⟨_, execPack_eq ((areaOk_congr hparams hw hh).trans ha) hknown, fun c g hc hg => ?_⟩
  obtain ⟨v, hv⟩ := packedKnown_iff.mp hbytes _ (group_index hc hg).1
  have hcell := cellAt_packedBuffer_group (p := p) hbuf (lt_of_lt_of_eq hc hW.symm) (lt_of_lt_of_eq hg hG.symm)
  rw [hG, hH, hparams, hplane] at hcell
  exact ⟨v, _, hv, hcell, fun k hk => getLsbD_packGroup_unpackedPlane hm ha hc hg hk hv⟩

/-! ### The packed image and the host -/

/-- A backed PACKBUF word whose four bytes hold values reads as the word of those bytes (R55). -/
theorem exists_readPackWord {k : Nat} {s : State} (hk : k < packWords s.params)
    (h : ∀ i < 4, ∃ b, readPackByte s (4 * k + i) = some b) :
    ∃ v, readPackWord k s = .ok v ∧ ∀ i < 4, readPackByte s (4 * k + i) = some (byteOfWord v i) := by
  obtain ⟨b0, h0⟩ := h 0 (by decide)
  obtain ⟨b1, h1⟩ := h 1 (by decide)
  obtain ⟨b2, h2⟩ := h 2 (by decide)
  obtain ⟨b3, h3⟩ := h 3 (by decide)
  obtain ⟨e0, e1, e2, e3⟩ := byteOfWord_wordOfBytes b0 b1 b2 b3
  refine ⟨_, readPackWord_known hk h0 h1 h2 h3, fun i hi => ?_⟩
  have hlane : i = 0 ∨ i = 1 ∨ i = 2 ∨ i = 3 := by omega
  rcases hlane with rfl | rfl | rfl | rfl
  exacts [h0.trans (congrArg some e0.symm), h1.trans (congrArg some e1.symm), h2.trans (congrArg some e2.symm),
    h3.trans (congrArg some e3.symm)]

/-- The host's read of a backed PACKBUF word while BUSY = 0 (R55, R56). -/
theorem hostAct_readPackWord_ok {k : Nat} {s : State} {v : Word} (hp : s.params.wellFormed = true)
    (hb : s.status.busy = false) (hk : k < packWords s.params) (hr : readPackWord k s = .ok v) :
    hostAct (.read (s.params.base + 0x3000 + 4 * k) 4) s = .next { s with observed := .value v :: s.observed } := by
  have hk1024 : k < 1024 := lt_of_lt_of_le hk (planeWords_le hp)
  rw [Nat.add_assoc]
  exact hostAct_readWindow_ok (by omega) (by omega) (by omega) hb ((readWindow_pack s hk1024).trans hr)

/-- R176: a word that holds a byte of the packed image is backed (log 20). -/
theorem lt_packWords_of_lt_packedLength {k : Nat} {s : State} (hp : s.params.wellFormed = true)
    (ha : areaOk s = true) (hk : 4 * k < packedLength s.latched) : k < packWords s.params := by
  have hle := packedLength_le hp ha
  obtain ⟨cols, n, -, -, -, -, -, -, hbytes, -, hwords⟩ := params_shape hp
  omega

theorem writeEach_congr {m : Memory} {keys : List Nat} {f g : Nat → Byte} (h : ∀ a ∈ keys, f a = g a) :
    writeEach m keys f = writeEach m keys g :=
  List.foldl_ext _ _ _ fun m a ha => by rw [h a ha]

section
variable {p : Plane} {s : State} {m : Memory}
  (hsame : ∀ j < packedLength s.latched, cellAt m j = readPackByte s j)
include hsame

theorem packedKnown_of_same_image : packedKnown { s with packBuf := m } = packedKnown s := by
  rw [Bool.eq_iff_iff, packedKnown_iff, packedKnown_iff]
  exact forall₂_congr fun j hj => by rw [readPackByte, hsame j hj]

/-- UNPACK reads no byte from N on (R173, R176). -/
theorem unpackedPlane_of_same_image (ha : areaOk s = true) :
    unpackedPlane p { s with packBuf := m } = unpackedPlane p s := by
  obtain ⟨-, hwidth, -, -⟩ := areaOk_facts ha
  rw [unpackedPlane, unpackedPlane, planeOf_with_packBuf]
  refine writeEach_congr fun a hmem => ?_
  obtain ⟨c, r, hc, hr, rfl⟩ := mem_gridKeys.mp hmem
  have hg : r / 8 < areaG s.latched := Nat.div_lt_of_lt_mul hr
  have hj := (group_index hc hg).1
  rw [keyX_pixelKey (lt_of_lt_of_le hc hwidth), keyY_pixelKey (lt_of_lt_of_le hc hwidth), unpackedBit, unpackedBit,
    hsame _ hj, readPackByte]

/-- R176: UNPACK does the same whatever the bytes from N on hold. -/
theorem exec_unpack_of_same_image {t : State} (h : exec (.unpack p) s = .next t) :
    exec (.unpack p) { s with packBuf := m } = .next { t with packBuf := m } := by
  obtain ⟨ha, hknown, rfl⟩ := execUnpack_eq_next h
  have hnext := execUnpack_eq (p := p) (s := { s with packBuf := m }) ha
    ((packedKnown_of_same_image hsame).trans hknown)
  rw [unpackedPlane_of_same_image hsame ha] at hnext
  refine hnext.trans ?_
  cases p <;> rfl

end

/-- Settles O57: every byte of a word below N is packed or kept, so the host's read of the backed word is answered. -/
theorem hostReadsPackedImage : Obligations.HostReadsPackedImage := by
  intro p s hp hm N
  refine ⟨fun t h => ?_, fun t m h hsame => exec_unpack_of_same_image hsame h⟩
  have hidle : t.status.busy = false := by rw [exec_status h]; rfl
  have hparams := exec_params h
  obtain ⟨ha, -, ht⟩ := execPack_eq_next h
  have hbyte : ∀ j, readPackByte t j = cellAt (packedBuffer p s) j := fun j => by rw [ht, readPackByte]
  have hkept : ∀ j, N ≤ j → readPackByte t j = readPackByte s j := fun j hj =>
    (hbyte j).trans (cellAt_packedBuffer_kept hm hj)
  refine ⟨packedLength_le hp ha, hkept, fun k hk hrest => ?_⟩
  have hbacked : k < packWords t.params := hparams ▸ lt_packWords_of_lt_packedLength hp ha hk
  obtain ⟨v, hword, hlanes⟩ := exists_readPackWord hbacked fun i hi => by
    rcases Nat.lt_or_ge (4 * k + i) N with hj | hj
    · rw [hbyte]
      exact cellAt_packedBuffer_isSome hm hj
    · rw [hkept _ hj]
      exact Option.ne_none_iff_exists'.mp (hrest i hi hj)
  refine ⟨v, ?_, hlanes⟩
  rw [← hparams] at hp ⊢
  exact hostAct_readPackWord_ok hp hidle hbacked hword

end Sys2Proof.Machine
end

section
/-! Every access to the memory windows while BUSY = 1 is rejected, backed or not (R60, R191). -/

namespace Sys2Proof.Machine

/-- Settles O19: the offset lies in a window, where BUSY = 1 rejects the read and the write before either reaches a
memory. -/
theorem busyWindowAccessIsRejected : Obligations.BusyWindowAccessIsRejected := by
  intro s off v hbusy hlo hhi h4
  have hlt : off < 0x4000 := by omega
  exact ⟨hostAct_readWindow_busy hlo hlt h4 hbusy, hostAct_writeWindow_busy hlo hlt h4 v hbusy⟩

end Sys2Proof.Machine
end

section
/-! Commands that read an UNSPECIFIED bit or byte stop by name (I1, I2, D45): the four COMBINE modes, PACK and UNPACK. -/

namespace Sys2Proof.Machine

/-! ### The stop of each completion -/

section
variable {s : State} (ha : areaOk s = true)
include ha

theorem combineActive_of_unspecified_src {p : Plane} {x y : Nat} (hxy : InArea s x y)
    (hnone : readPixel s p.other x y = none) (mode : CombineMode) :
    combineActive mode p s = .fault .unspecifiedSourcePixel := by
  rw [combineActive, withActiveArea_of_ok ha, if_pos (areaKnown_false hxy hnone)]

theorem combineActive_of_unspecified_dst {mode : CombineMode} {p : Plane} {x y : Nat} (hr : combineReadsDst mode = true)
    (hsrc : AreaSpecified s p.other) (hxy : InArea s x y) (hnone : readPixel s p x y = none) :
    combineActive mode p s = .fault .unspecifiedDestPixel := by
  rw [combineActive, withActiveArea_of_ok ha, areaSpecified_iff.mp hsrc, if_neg (by decide),
    if_pos ⟨hr, areaKnown_false hxy hnone⟩]

theorem execPack_of_unspecified {p : Plane} {x y : Nat} (hxy : InArea s x y) (hnone : readPixel s p x y = none) :
    execPack p s = .fault .unspecifiedPackedPixel := by
  rw [execPack, withActiveArea_of_ok ha, if_pos (areaKnown_false hxy hnone)]

theorem execUnpack_of_unspecified {j : Nat} (p : Plane) (hj : j < packedLength s.latched)
    (hnone : readPackByte s j = none) : execUnpack p s = .fault .unspecifiedPackByte := by
  have hknown : packedKnown s = false :=
    Bool.eq_false_iff.mpr fun hk => packedKnown_iff_ne_none.mp hk j hj hnone
  rw [execUnpack, withActiveArea_of_ok ha, if_pos hknown]

end

/-! ### The commands -/

/-- Settles O29: each of the four commands is COMBINE in its mode; src is looked at first, dst by every mode but
NORMAL. -/
theorem combineStopsOnUnspecifiedPixel : Obligations.CombineStopsOnUnspecifiedPixel := by
  intro p s ha
  constructor
  · rintro ⟨x, y, hxy, hnone⟩
    have stops := combineActive_of_unspecified_src ha hxy hnone
    exact ⟨stops .normal, stops .or, stops .and, stops .xor⟩
  · rintro hsrc ⟨x, y, hxy, hnone⟩
    have stops {mode : CombineMode} (hr : combineReadsDst mode = true) :=
      combineActive_of_unspecified_dst ha hr hsrc hxy hnone
    exact ⟨stops (mode := .or) rfl, stops (mode := .and) rfl, stops (mode := .xor) rfl⟩

/-- Settles O32: PACK looks at every pixel of the active area before it writes, UNPACK at every byte of the packed
length. -/
theorem packAndUnpackStopOnUnspecified : Obligations.PackAndUnpackStopOnUnspecified := fun p _ ha =>
  ⟨fun ⟨_, _, hxy, hnone⟩ => execPack_of_unspecified ha hxy hnone,
    fun ⟨_, hj, hnone⟩ => execUnpack_of_unspecified ha p hj hnone⟩

end Sys2Proof.Machine
end
